-- ==== Sys2Proof/Word.lean ====
section
/-! DEFINITION. The words, bytes and the two closed sets of tags that commands carry (30_encoding.md, rules R58 to R61). -/

namespace Sys2Proof

/-- A 32-bit word: a header, an operand word, an event word or a response (rules R58, R66, R67). -/
abbrev Word := BitVec 32

/-- A payload, received or stored byte. -/
abbrev Byte := BitVec 8

/-- The context tag of a command (rule R137): foreground or interrupt context. -/
inductive Ctx where
  | fg
  | irq
deriving DecidableEq, Repr

/-- The direction of a bus transaction (rule R59, format B): bit value 0 is write, 1 is read. -/
inductive Dir where
  | write
  | read
deriving DecidableEq, Repr

end Sys2Proof
end

