-- ==== Sys2Proof/Config.lean ====
section
/-! DEFINITION. The implementation parameters of 00_scope.md rule R9. They are constants of one machine; State carries them in a
field that no step writes, so that a statement over every state holds for every legal choice of them (log entry 1). -/

namespace Sys2Proof

/-- A range of host data memory: `size` bytes from `base`. -/
structure Region where
  base : Nat
  size : Nat
deriving DecidableEq, Repr

/-- The parameters of rule R9. `ADDR_W` is fixed at 32 there and needs no field. -/
structure Params where
  /-- `EVT_W` -/
  evtW : Nat
  /-- `N_DEPTH` -/
  nDepth : Nat
  /-- `BLOCK_MAX` -/
  blockMax : Nat
  /-- `SHALLOW_DEPTH` -/
  shallowDepth : Nat
  /-- `BUS_DEPTH` -/
  busDepth : Nat
  /-- `SER_DEPTH` -/
  serDepth : Nat
  /-- `N_BUS` -/
  nBus : Nat
  /-- `N_SER` -/
  nSer : Nat
  /-- `QCAP` -/
  qcap : Nat
  /-- `TX_CAP` -/
  txCap : Nat
  /-- `DIAG_CAP` -/
  diagCap : Nat
  /-- `RPT_NACK_LIMIT`; `none` is `UNBOUNDED` -/
  rptNackLimit : Option Nat
  /-- where host data memory is: the predicate `DMEM_ADMITS` as data (log entry 13) -/
  dmemMap : List Region
  /-- `EVT_TX_DONE[p]` -/
  evtTxDone : List Word
deriving DecidableEq, Repr

/-- A word fits in the low `n` bits. -/
def fitsIn (n : Nat) (w : Word) : Bool :=
  decide (w.toNat < 2 ^ n)

/-- `QCAP` is a power of two from 2 to 65536 (rule R9). -/
def isQueueCapacity (n : Nat) : Bool :=
  (List.range 17).any fun k => decide (1 ≤ k) && decide (n = 2 ^ k)

/-- A region lies in the 2^32 bytes of `DMEM` (rule R39). -/
def Region.inSpace (r : Region) : Bool :=
  decide (r.base + r.size ≤ 2 ^ 32)

/-- The legal values of rule R9. -/
def Params.legal (c : Params) : Bool :=
  decide (1 ≤ c.evtW) && decide (c.evtW ≤ 32)
    && decide (2 ≤ c.nDepth) && decide (c.nDepth ≤ 255)
    && decide (1 ≤ c.blockMax) && decide (c.blockMax ≤ 255)
    && decide (c.shallowDepth < c.nDepth)
    && decide (c.busDepth < c.nDepth)
    && decide (c.serDepth < c.nDepth)
    && decide (1 ≤ c.nBus) && decide (c.nBus ≤ 16)
    && decide (1 ≤ c.nSer) && decide (c.nSer ≤ 16)
    && isQueueCapacity c.qcap
    && decide (1 ≤ c.txCap) && decide (c.txCap ≤ 65535)
    && decide (1 ≤ c.diagCap) && decide (c.diagCap ≤ 65535)
    && (match c.rptNackLimit with
        | none => true
        | some n => decide (1 ≤ n) && decide (n < 2 ^ 32))
    && c.dmemMap.all Region.inSpace
    && decide (c.evtTxDone.length = c.nSer)
    && c.evtTxDone.all (fitsIn c.evtW)

/-- The region holds the `n` bytes from `a`. -/
def Region.holds (r : Region) (a n : Nat) : Bool :=
  decide (r.base ≤ a) && decide (a + n ≤ r.base + r.size)

/-- `DMEM_ADMITS(a, n)` (rule R9): an aligned access of `n` bytes that lies in one region of host data memory. -/
def Params.admits (c : Params) (a : Word) (n : Nat) : Bool :=
  decide (a.toNat % n = 0) && c.dmemMap.any fun r => r.holds a.toNat n

/-- The vector defaults of rule R9 (DESIGN CHOICE of the model for `State.reset`, log entry 1). -/
def Params.vectorDefault : Params where
  evtW := 32
  nDepth := 5
  blockMax := 4
  shallowDepth := 1
  busDepth := 2
  serDepth := 3
  nBus := 1
  nSer := 1
  qcap := 64
  txCap := 64
  diagCap := 64
  rptNackLimit := none
  dmemMap := [{ base := 0, size := 2 ^ 32 }]
  evtTxDone := [0x00000004#32]

end Sys2Proof
end

