-- ==== Sys2Proof/Syntax.lean ====
section
/-! DEFINITION. The commands of the CORE, one constructor per row of the opcode map (30_encoding.md rule R63). -/

namespace Sys2Proof

/-- A command with its operands as rule R61 extracts them. `p` and `q` are the header's `INST`. -/
inductive Instr where
  /-- `SCHED.OPEN`, rule R74 -/
  | schedOpen
  /-- `SCHED.POST m`, rule R75 -/
  | schedPost (m : Word)
  /-- `SCHED.CLEAR m`, rule R76 -/
  | schedClear (m : Word)
  /-- `SCHED.POLL`, rule R77 -/
  | schedPoll
  /-- `ARB.OPEN`, rule R81 -/
  | arbOpen
  /-- `ARB.BLOCK d`, rule R82 -/
  | arbBlock (d : Byte)
  /-- `ARB.UNBLOCK d`, rule R83 -/
  | arbUnblock (d : Byte)
  /-- `ARB.FLOOR`, rule R85 -/
  | arbFloor
  /-- `ARB.ENTER`, rule R87 -/
  | arbEnter
  /-- `BUS.START p, addr, cmd, dir, count, dest, ev`, rule R94 -/
  | busStart (p : BitVec 4) (addr : BitVec 7) (cmd : Byte) (dir : Dir) (count : BitVec 4) (dest : Word) (ev : Word)
  /-- `BUS.BUSY p`, rule R96 -/
  | busBusy (p : BitVec 4)
  /-- `BUS.RESET p`, rule R97 -/
  | busReset (p : BitVec 4)
  /-- `SER.START p, bytes`, rule R111; L is the number of bytes -/
  | serStart (p : BitVec 4) (bytes : List Byte)
  /-- `SER.BUSY p`, rule R113 -/
  | serBusy (p : BitVec 4)
  /-- `Q.OPEN q`, rule R123 -/
  | qOpen (q : BitVec 4)
  /-- `Q.PUSH q, payload`, rule R124; n is the number of bytes -/
  | qPush (q : BitVec 4) (payload : List Byte)
  /-- `Q.POP q` (`diag` false) or `Q.POP q, DIAG` (`diag` true), rule R125 -/
  | qPop (q : BitVec 4) (diag : Bool)
  /-- `Q.FREE q`, rule R126 -/
  | qFree (q : BitVec 4)
deriving DecidableEq, Repr

end Sys2Proof
end

