-- ==== Sys2Proof/WellFormed.lean ====
section
/-! DEFINITION. Which terms of Instr stand for a legal command: the operand checks of 30_encoding.md rules R59, R60 and R64 that the
types do not make. -/

namespace Sys2Proof

/-- An event mask has no bit at or above `EVT_W` (rule R64 (d)). -/
def Instr.maskFits (evtW : Nat) : Instr → Bool
  | .schedPost m => fitsIn evtW m
  | .schedClear m => fitsIn evtW m
  | .busStart _ _ _ _ _ _ ev => fitsIn evtW ev
  | .schedOpen | .schedPoll | .arbOpen | .arbBlock _ | .arbUnblock _ | .arbFloor | .arbEnter
  | .busBusy _ | .busReset _ | .serStart _ _ | .serBusy _ | .qOpen _ | .qPush _ _ | .qPop _ _ | .qFree _ => true

/-- A payload's length fits the 16-bit field `L` (rule R59, format L). -/
def Instr.payloadFits : Instr → Bool
  | .serStart _ bytes => decide (bytes.length < 2 ^ 16)
  | .qPush _ payload => decide (payload.length < 2 ^ 16)
  | .schedOpen | .schedPost _ | .schedClear _ | .schedPoll | .arbOpen | .arbBlock _ | .arbUnblock _ | .arbFloor | .arbEnter
  | .busStart _ _ _ _ _ _ _ | .busBusy _ | .busReset _ | .serBusy _ | .qOpen _ | .qPop _ _ | .qFree _ => true

/-- The term is what some legal command words decode to, on a machine whose pending set is `evtW` bits wide. -/
def Instr.wellFormed (evtW : Nat) (i : Instr) : Bool :=
  i.maskFits evtW && i.payloadFits

end Sys2Proof
end

