-- ==== Sys2Proof/Decode.lean ====
section
/-! DEFINITION. The decoder of the command port and, after it, the encoder (30_encoding.md rules R58 to R64). The port takes a stream
of 32-bit words; a command's length follows from its header alone (rule R62). -/

namespace Sys2Proof

/-- The operand formats of rule R59. -/
inductive Format where
  | n
  | m
  | d
  | p
  | b
  | l
  | q
deriving DecidableEq, Repr

/-- The rows of the opcode map, rule R63. -/
inductive Opcode where
  | schedOpen
  | schedPost
  | schedClear
  | schedPoll
  | arbOpen
  | arbBlock
  | arbUnblock
  | arbFloor
  | arbEnter
  | busStart
  | busBusy
  | busReset
  | serStart
  | serBusy
  | qOpen
  | qPush
  | qPop
  | qFree
deriving DecidableEq, Repr

/-- Why words on the command port are no command. Every reason but `incomplete` is an illegal encoding of rule R64 and makes the
CORE raise ILLEGAL_COMMAND with the header named here; `incomplete` says that the caller has not yet presented all the words. -/
inductive DecodeError where
  /-- rule R64 (a): `UNIT` is 5 to 15 -/
  | reservedUnit (h : Word)
  /-- rule R64 (b): `OP` is not listed for its `UNIT` -/
  | unlistedOp (h : Word)
  /-- rule R64 (c): a reserved bit is 1, or `INST` is not 0 for units 0 and 1 -/
  | reservedBit (h : Word)
  /-- rule R64 (d): a mask word has a 1 at or above `EVT_W` -/
  | maskAboveEvtW (h : Word)
  /-- rule R64 (e): a padding byte is not 0 -/
  | paddingNonzero (h : Word)
  /-- fewer words than the header calls for -/
  | incomplete
deriving DecidableEq, Repr

/-- The `match` column of rule R63. -/
def Opcode.matchWord : Opcode → Word
  | .schedOpen => 0x00000000#32
  | .schedPost => 0x01000000#32
  | .schedClear => 0x02000000#32
  | .schedPoll => 0x03000000#32
  | .arbOpen => 0x10000000#32
  | .arbBlock => 0x11000000#32
  | .arbUnblock => 0x12000000#32
  | .arbFloor => 0x13000000#32
  | .arbEnter => 0x14000000#32
  | .busStart => 0x20000000#32
  | .busBusy => 0x21000000#32
  | .busReset => 0x22000000#32
  | .serStart => 0x30000000#32
  | .serBusy => 0x31000000#32
  | .qOpen => 0x40000000#32
  | .qPush => 0x41000000#32
  | .qPop => 0x42000000#32
  | .qFree => 0x43000000#32

/-- The `mask` column of rule R63. -/
def Opcode.maskWord : Opcode → Word
  | .schedOpen => 0xFFFFFFFF#32
  | .schedPost => 0xFFFFFFFF#32
  | .schedClear => 0xFFFFFFFF#32
  | .schedPoll => 0xFFFFFFFF#32
  | .arbOpen => 0xFFFFFFFF#32
  | .arbBlock => 0xFFFFFF00#32
  | .arbUnblock => 0xFFFFFF00#32
  | .arbFloor => 0xFFFFFFFF#32
  | .arbEnter => 0xFFFFFFFF#32
  | .busStart => 0xFF000000#32
  | .busBusy => 0xFF0FFFFF#32
  | .busReset => 0xFF0FFFFF#32
  | .serStart => 0xFF0F0000#32
  | .serBusy => 0xFF0FFFFF#32
  | .qOpen => 0xFF0FFFFF#32
  | .qPush => 0xFF0F0000#32
  | .qPop => 0xFF0FFFFE#32
  | .qFree => 0xFF0FFFFF#32

/-- The `format` column of rule R63. -/
def Opcode.format : Opcode → Format
  | .schedOpen | .schedPoll | .arbOpen | .arbFloor | .arbEnter => .n
  | .schedPost | .schedClear => .m
  | .arbBlock | .arbUnblock => .d
  | .busBusy | .busReset | .serBusy | .qOpen | .qFree => .p
  | .busStart => .b
  | .serStart | .qPush => .l
  | .qPop => .q

/-- The row that `UNIT` and `OP` name, if the map lists one (rule R63). -/
def Opcode.ofUnitOp (unit op : Nat) : Option Opcode :=
  match unit, op with
  | 0, 0 => some .schedOpen
  | 0, 1 => some .schedPost
  | 0, 2 => some .schedClear
  | 0, 3 => some .schedPoll
  | 1, 0 => some .arbOpen
  | 1, 1 => some .arbBlock
  | 1, 2 => some .arbUnblock
  | 1, 3 => some .arbFloor
  | 1, 4 => some .arbEnter
  | 2, 0 => some .busStart
  | 2, 1 => some .busBusy
  | 2, 2 => some .busReset
  | 3, 0 => some .serStart
  | 3, 1 => some .serBusy
  | 4, 0 => some .qOpen
  | 4, 1 => some .qPush
  | 4, 2 => some .qPop
  | 4, 3 => some .qFree
  | _, _ => none

/-- `UNIT`, bits 31:28 of a header (rule R58). -/
def unitOf (h : Word) : BitVec 4 := h.extractLsb' 28 4

/-- `OP`, bits 27:24 of a header (rule R58). -/
def opOf (h : Word) : BitVec 4 := h.extractLsb' 24 4

/-- `INST`, bits 23:20 of a header (rule R58). -/
def instOf (h : Word) : BitVec 4 := h.extractLsb' 20 4

/-- `ARG[7:0]` as a depth, rule R61. -/
def depthOf (h : Word) : Byte := h.extractLsb' 0 8

/-- `cmd = ARG[7:0]`, rule R61. -/
def cmdOf (h : Word) : Byte := h.extractLsb' 0 8

/-- `addr = ARG[14:8]`, rule R61. -/
def addrOf (h : Word) : BitVec 7 := h.extractLsb' 8 7

/-- `dir = ARG[15]`, 1 read and 0 write, rules R59 and R61. -/
def dirOf (h : Word) : Dir := if h.getLsbD 15 then .read else .write

/-- `count = ARG[19:16]`, rule R61. -/
def countOf (h : Word) : BitVec 4 := h.extractLsb' 16 4

/-- `L = ARG[15:0]`, rule R61. -/
def lenOf (h : Word) : BitVec 16 := h.extractLsb' 0 16

/-- `diag = ARG[0]`, rule R61. -/
def diagOf (h : Word) : Bool := h.getLsbD 0

/-- Which row a header selects, or why it is illegal (rules R63 and R64 (a) to (c)). -/
def Opcode.ofHeader (h : Word) : Except DecodeError Opcode :=
  match Opcode.ofUnitOp (unitOf h).toNat (opOf h).toNat with
  | none => .error (if 5 ≤ (unitOf h).toNat then .reservedUnit h else .unlistedOp h)
  | some o => if h &&& o.maskWord = o.matchWord then .ok o else .error (.reservedBit h)

/-- The number of payload words of `n` payload bytes, ceil(n/4) (rule R59, format L). -/
def payloadWords (n : Nat) : Nat := (n + 3) / 4

/-- How many operand words follow a header of a row (rules R59 and R62). -/
def Opcode.operandWords (o : Opcode) (h : Word) : Nat :=
  match o.format with
  | .n | .d | .p | .q => 0
  | .m => 1
  | .b => 2
  | .l => payloadWords (lenOf h).toNat

/-- The length of a command in words, from its header alone; 1 where the header is illegal (rule R62). -/
def commandWords (h : Word) : Nat :=
  match Opcode.ofHeader h with
  | .ok o => 1 + o.operandWords h
  | .error _ => 1

/-- The four bytes of a payload word, the first in the low-order bits (rule R60). -/
def bytesOfWord (w : Word) : List Byte :=
  [w.extractLsb' 0 8, w.extractLsb' 8 8, w.extractLsb' 16 8, w.extractLsb' 24 8]

/-- The bytes of payload words, in order (rule R60). -/
def unpackBytes : List Word → List Byte
  | [] => []
  | w :: ws => bytesOfWord w ++ unpackBytes ws

/-- A format-M command: one mask word, whose bits at and above `EVT_W` must be 0 (rules R59, R64 (d)). -/
def decodeMask (evtW : Nat) (h : Word) (make : Word → Instr) : List Word → Except DecodeError (Instr × List Word)
  | [] => .error .incomplete
  | m :: rest => if fitsIn evtW m then .ok (make m, rest) else .error (.maskAboveEvtW h)

/-- `BUS.START`, format B: the destination address and the completion mask follow the header (rules R59, R61, R64 (d)). -/
def decodeBusStart (evtW : Nat) (h : Word) : List Word → Except DecodeError (Instr × List Word)
  | dest :: ev :: rest =>
    if fitsIn evtW ev then
      .ok (.busStart (instOf h) (addrOf h) (cmdOf h) (dirOf h) (countOf h) dest ev, rest)
    else .error (.maskAboveEvtW h)
  | _ => .error .incomplete

/-- A format-L command: ceil(L/4) payload words, whose bytes past L − 1 must be 0 (rules R59, R60, R64 (e)). -/
def decodePayload (h : Word) (make : List Byte → Instr) (ws : List Word) : Except DecodeError (Instr × List Word) :=
  let len := (lenOf h).toNat
  let words := payloadWords len
  if (ws.take words).length < words then .error .incomplete
  else
    let bytes := unpackBytes (ws.take words)
    if (bytes.drop len).all (fun b => decide (b = 0#8)) then .ok (make (bytes.take len), ws.drop words)
    else .error (.paddingNonzero h)

/-- The operand words of a legal header: the command and the words after it (rules R59 to R61). -/
def decodeOperands (evtW : Nat) (o : Opcode) (h : Word) (ws : List Word) : Except DecodeError (Instr × List Word) :=
  match o with
  | .schedOpen => .ok (.schedOpen, ws)
  | .schedPost => decodeMask evtW h .schedPost ws
  | .schedClear => decodeMask evtW h .schedClear ws
  | .schedPoll => .ok (.schedPoll, ws)
  | .arbOpen => .ok (.arbOpen, ws)
  | .arbBlock => .ok (.arbBlock (depthOf h), ws)
  | .arbUnblock => .ok (.arbUnblock (depthOf h), ws)
  | .arbFloor => .ok (.arbFloor, ws)
  | .arbEnter => .ok (.arbEnter, ws)
  | .busStart => decodeBusStart evtW h ws
  | .busBusy => .ok (.busBusy (instOf h), ws)
  | .busReset => .ok (.busReset (instOf h), ws)
  | .serStart => decodePayload h (.serStart (instOf h)) ws
  | .serBusy => .ok (.serBusy (instOf h), ws)
  | .qOpen => .ok (.qOpen (instOf h), ws)
  | .qPush => decodePayload h (.qPush (instOf h)) ws
  | .qPop => .ok (.qPop (instOf h) (diagOf h), ws)
  | .qFree => .ok (.qFree (instOf h), ws)

/-- The command at the head of a word stream and the words after it, or why there is none (rules R58 to R64). -/
def decode (evtW : Nat) : List Word → Except DecodeError (Instr × List Word)
  | [] => .error .incomplete
  | h :: ws =>
    match Opcode.ofHeader h with
    | .error e => .error e
    | .ok o => decodeOperands evtW o h ws

/-- The row a command belongs to (rule R63). -/
def Instr.opcode : Instr → Opcode
  | .schedOpen => .schedOpen
  | .schedPost _ => .schedPost
  | .schedClear _ => .schedClear
  | .schedPoll => .schedPoll
  | .arbOpen => .arbOpen
  | .arbBlock _ => .arbBlock
  | .arbUnblock _ => .arbUnblock
  | .arbFloor => .arbFloor
  | .arbEnter => .arbEnter
  | .busStart _ _ _ _ _ _ _ => .busStart
  | .busBusy _ => .busBusy
  | .busReset _ => .busReset
  | .serStart _ _ => .serStart
  | .serBusy _ => .serBusy
  | .qOpen _ => .qOpen
  | .qPush _ _ => .qPush
  | .qPop _ _ => .qPop
  | .qFree _ => .qFree

/-- A header of the fields of rule R58, `ARG` given whole. -/
def headerWord (unit op inst : BitVec 4) (arg : BitVec 20) : Word :=
  unit ++ op ++ inst ++ arg

/-- `ARG` of format D (rule R59). -/
def depthArg (d : Byte) : BitVec 20 := 0#12 ++ d

/-- The direction bit of format B (rule R59). -/
def dirBit : Dir → BitVec 1
  | .write => 0#1
  | .read => 1#1

/-- `ARG` of format B (rule R59). -/
def busArg (count : BitVec 4) (dir : Dir) (addr : BitVec 7) (cmd : Byte) : BitVec 20 :=
  count ++ dirBit dir ++ addr ++ cmd

/-- `ARG` of format L for `n` payload bytes (rule R59). -/
def lenArg (n : Nat) : BitVec 20 := 0#4 ++ BitVec.ofNat 16 n

/-- `ARG` of format Q (rule R59). -/
def diagArg (diag : Bool) : BitVec 20 := 0#19 ++ BitVec.ofBool diag

/-- The header word of a command, written from rules R58, R59 and R63. -/
def Instr.header : Instr → Word
  | .schedOpen => headerWord 0#4 0#4 0#4 0#20
  | .schedPost _ => headerWord 0#4 1#4 0#4 0#20
  | .schedClear _ => headerWord 0#4 2#4 0#4 0#20
  | .schedPoll => headerWord 0#4 3#4 0#4 0#20
  | .arbOpen => headerWord 1#4 0#4 0#4 0#20
  | .arbBlock d => headerWord 1#4 1#4 0#4 (depthArg d)
  | .arbUnblock d => headerWord 1#4 2#4 0#4 (depthArg d)
  | .arbFloor => headerWord 1#4 3#4 0#4 0#20
  | .arbEnter => headerWord 1#4 4#4 0#4 0#20
  | .busStart p addr cmd dir count _ _ => headerWord 2#4 0#4 p (busArg count dir addr cmd)
  | .busBusy p => headerWord 2#4 1#4 p 0#20
  | .busReset p => headerWord 2#4 2#4 p 0#20
  | .serStart p bytes => headerWord 3#4 0#4 p (lenArg bytes.length)
  | .serBusy p => headerWord 3#4 1#4 p 0#20
  | .qOpen q => headerWord 4#4 0#4 q 0#20
  | .qPush q payload => headerWord 4#4 1#4 q (lenArg payload.length)
  | .qPop q diag => headerWord 4#4 2#4 q (diagArg diag)
  | .qFree q => headerWord 4#4 3#4 q 0#20

/-- A payload word of four bytes, the first in the low-order bits (rule R60). -/
def wordOfBytes (b0 b1 b2 b3 : Byte) : Word := b3 ++ b2 ++ b1 ++ b0

/-- Payload bytes as payload words, the last padded with 0 (rule R60). -/
def packBytes : List Byte → List Word
  | [] => []
  | [b0] => [wordOfBytes b0 0#8 0#8 0#8]
  | [b0, b1] => [wordOfBytes b0 b1 0#8 0#8]
  | [b0, b1, b2] => [wordOfBytes b0 b1 b2 0#8]
  | b0 :: b1 :: b2 :: b3 :: rest => wordOfBytes b0 b1 b2 b3 :: packBytes rest

/-- The operand words of a command (rules R59 and R60). -/
def Instr.operands : Instr → List Word
  | .schedPost m => [m]
  | .schedClear m => [m]
  | .busStart _ _ _ _ _ dest ev => [dest, ev]
  | .serStart _ bytes => packBytes bytes
  | .qPush _ payload => packBytes payload
  | .schedOpen | .schedPoll | .arbOpen | .arbBlock _ | .arbUnblock _ | .arbFloor | .arbEnter
  | .busBusy _ | .busReset _ | .serBusy _ | .qOpen _ | .qPop _ _ | .qFree _ => []

/-- The words of a command: its header, then its operand words (rules R58 to R60). -/
def encode (i : Instr) : List Word := i.header :: i.operands

/-- The 32-bit words of a bit string of `nbits` bits whose first word is lowest, with words of zeros up to the length the header
calls for. -/
def tableWords (nbits w : Nat) : List Word :=
  let given := (List.range ((nbits + 31) / 32)).map fun k => BitVec.ofNat 32 (w >>> (32 * k))
  given ++ List.replicate (commandWords (given.headD 0#32) - given.length) 0#32

/-- The command the decoder reads from the bits `w`, numbered from the least significant bit of the header up, on a machine with the
vector default `EVT_W` = 32. -/
def decodeTableWord (nbits w : Nat) : Option Instr :=
  match decode 32 (tableWords nbits w) with
  | .ok (i, _) => some i
  | .error _ => none

end Sys2Proof
end

