-- ==== Sys2Proof/Machine/State.lean ====
section
/-! DEFINITION. The state of the CORE, every element S00 to S45 of 10_state.md, host data memory, what stands at its interfaces, and
the state after reset (70_reset_and_hazards.md rule R159). -/

namespace Sys2Proof.Machine

/-- Why the machine stops without a next state. A fault of the spec (60_exceptions.md rule R133) is not one of these: it is a next
state whose fault register is written. -/
inductive Fault where
  /-- Raised by `step` in a state whose `FAULT_CODE` is not 0: a halted CORE takes no step of any kind (00_scope.md rule R15). Safe: the
  spec gives no next state either. -/
  | halted
  /-- Raised by the two bus handler steps that reach the destination word, where `DMEM_ADMITS` refuses the address: `MemRead` and
  `MemWrite` are not defined there (20_memory.md rules R40 and R41). Only a transaction that no `BUS.START` began gets here (log entry
  14). Safe: the model stops where the spec defines nothing. -/
  | dmemNotAdmitted
deriving DecidableEq, Repr

/-- Why the model gives a step no meaning. -/
inductive Refusal where
  /-- An arm of `exec` whose instruction has no meaning in the model; no arm is one. Safe: nothing can be proved of such a step. -/
  | notModelled (mnemonic : String)
  /-- Raised by an event step on a word that rule R67 of 30_encoding.md does not list: it is not an event, and no event step takes it
  (log entry 16). Safe: the spec gives it no effect. -/
  | notAnEvent (w : Word)
deriving DecidableEq, Repr

/-- The fault codes of 60_exceptions.md rule R131, `noFault` for the code 0x00. -/
inductive FaultCode where
  | noFault
  | busProtocol
  | serProtocol
  | sleepOverflow
  | busStartBusy
  | queueOverflow
  | illegalCommand
  | operandRange
  | unsupported
  | txLength
  | frameLength
  | diagOverflow
  | dmemAccess
  | context
  | corruptFrame
  | busRetryExhausted
deriving DecidableEq, Repr

/-- The bus engine's state tag, 10_state.md rule R30. -/
inductive BusState where
  | initSendAddr
  | sendCommand
  | sendRptStartAddr
  | readMsByte
  | readLs
  | stopEnd
deriving DecidableEq, Repr

/-- The serial engine's state tag, 10_state.md rule R33. -/
inductive SerState where
  | init
  | sendData
  | stopClose
deriving DecidableEq, Repr

/-- The interrupt flags of a bus peripheral, 10_state.md rule R31. -/
inductive BusFlag where
  | ack
  | nack
  | rxdatav
  | mstop
deriving DecidableEq, Repr

/-- The interrupt flags of a serial peripheral, 10_state.md rule R34. -/
inductive SerFlag where
  | txbl
  | txc
deriving DecidableEq, Repr

/-- A peripheral action, 30_encoding.md rule R69. -/
inductive Action where
  | busAutoackOff (p : Nat)
  | busTxdata (p : Nat) (b : Byte)
  | busStart (p : Nat)
  | busStop (p : Nat)
  | busAbort (p : Nat)
  | busAck (p : Nat)
  | busNack (p : Nat)
  | busCleartx (p : Nat)
  | serTxen (p : Nat)
  | serTxdis (p : Nat)
  | serTxdata (p : Nat) (b : Byte)
  | cpuSleep (t : Nat)
deriving DecidableEq, Repr

/-- `FG_HELD`, 10_state.md rule R25. The length L of `SER_START(p, L, bytes)` is the length of `bytes` (log entry 21). -/
inductive Held where
  | none
  | serStart (p : Nat) (bytes : List Byte)
  | busReset (p : Nat)
deriving DecidableEq, Repr

/-- The record, state tag and peripheral copies of a bus engine (10_state.md rules R29 to R31). -/
structure BusUnit where
  /-- S10 `REC_ADDR` -/
  recAddr : BitVec 7
  /-- S11 `REC_DIR` -/
  recDir : Dir
  /-- S12 `REC_CMD` -/
  recCmd : Byte
  /-- S13 `REC_DEST` -/
  recDest : Word
  /-- S14 `REC_COUNT` -/
  recCount : BitVec 4
  /-- S15 `REC_EVT` -/
  recEvt : Word
  /-- S16 `BUS_STATE` -/
  busState : BusState
  /-- S17 `BUS_BUSY` -/
  busBusy : Bool
  /-- S18 `BIEN`: bit 0 ACK, 1 NACK, 2 RXDATAV, 3 MSTOP -/
  bien : BitVec 4
  /-- S19 `BIF`, the same bit positions -/
  bifReg : BitVec 4
  /-- S20 `BRXDATA` -/
  brxdata : Byte
  /-- S21 `BPIDLE` -/
  bpidle : Bool
  /-- S22 `BAUTOACK` -/
  bautoack : Bool
  /-- S23 `BIEN_SAVE` -/
  bienSave : BitVec 4
  /-- S24 `NACK_CNT` -/
  nackCnt : Word
deriving DecidableEq, Repr

/-- The record, state tag and peripheral copies of a serial engine (10_state.md rules R32 to R34). -/
structure SerUnit where
  /-- S30 `TXBUF` -/
  txbuf : List Byte
  /-- S31 `TX_LEN` -/
  txLen : BitVec 16
  /-- S32 `TX_IDX` -/
  txIdx : BitVec 16
  /-- S33 `SER_STATE` -/
  serState : SerState
  /-- S34 `SER_BUSY` -/
  serBusy : Bool
  /-- S35 `SIEN`: bit 0 TXBL, 1 TXC -/
  sien : BitVec 2
  /-- S36 `SIF`, the same bit positions -/
  sifReg : BitVec 2
  /-- S37 `STXEN` -/
  stxen : Bool
deriving DecidableEq, Repr

/-- A framed output queue (10_state.md rule R35); `QMASK` (S41) is a constant of the parameters, `State.qmask`. -/
structure QueueUnit where
  /-- S40 `QBUF` -/
  qbuf : List Byte
  /-- S42 `QRD` -/
  qrd : Nat
  /-- S43 `QWR` -/
  qwr : Nat
  /-- S44 `DIAGBUF` -/
  diagbuf : List Byte
  /-- S45 `DIAG_LEN` -/
  diagLen : BitVec 16
deriving DecidableEq, Repr

/-- A response word and the context of the caller it goes to (30_encoding.md rule R66). -/
structure Response where
  ctx : Ctx
  value : Word
deriving DecidableEq, Repr

/-- One step of rule R11, or a store of the host to its own memory (20_memory.md rule R48), as the interleaving names it. -/
inductive Move where
  /-- a command step: the next command at the port with this context tag -/
  | command (ctx : Ctx)
  /-- an event step: the next word at the event port -/
  | event
  /-- a handler step of bus engine `p` for flag `k` -/
  | busHandler (p : Nat) (k : BusFlag)
  /-- a handler step of serial engine `p` for flag `k` -/
  | serHandler (p : Nat) (k : SerFlag)
  /-- the completion step of the held foreground command -/
  | completion
  /-- the host stores the next byte of `hostStores` to `DMEM` -/
  | hostStore
deriving DecidableEq, Repr

/-- The machine. -/
structure State where
  /-- The parameters of 00_scope.md rule R9; no step writes them. -/
  cfg : Params
  /-- S00 `FAULT_CODE` -/
  faultCode : FaultCode
  /-- S01 `FAULT_UNIT` -/
  faultUnit : BitVec 4
  /-- S02 `FAULT_INST` -/
  faultInst : BitVec 4
  /-- S03 `FAULT_INFO` -/
  faultInfo : Word
  /-- S04 `FG_ASLEEP` -/
  fgAsleep : Bool
  /-- S05 `FG_DEPTH` -/
  fgDepth : BitVec 8
  /-- S06 `FG_HELD` -/
  fgHeld : Held
  /-- S07 `ACT`, the oldest action first -/
  act : List Action
  /-- S08 `PENDING`, its low `EVT_W` bits -/
  pending : Word
  /-- S09 `CNT[d]`, depth 0 first -/
  cnt : List (BitVec 8)
  /-- the bus engines, instance 0 first (S10 to S24) -/
  bus : List BusUnit
  /-- the serial engines, instance 0 first (S30 to S37) -/
  ser : List SerUnit
  /-- the queues, queue 0 first (S40 to S45) -/
  queue : List QueueUnit
  /-- host data memory `DMEM` (20_memory.md rule R39): the bytes that differ from what an unlisted address reads as, by rising address -/
  dmem : List Host.Cell
  /-- model: the context tag of the command in execution (log entry 6) -/
  ctx : Ctx
  /-- model: every response given, the oldest first (log entry 7) -/
  resp : List Response
  /-- model: the command words the foreground has presented (log entry 4) -/
  fgPort : List Word
  /-- model: the command words interrupt context has presented (log entry 4) -/
  irqPort : List Word
  /-- model: the event words the environment has presented (log entry 4) -/
  evtPort : List Word
  /-- model: the stores the host has yet to make to its memory (log entry 15) -/
  hostStores : List Host.Cell
  /-- model: which step is next, the first in the list (log entry 2) -/
  moves : List Move
deriving DecidableEq, Repr

/-- A bus engine after reset (rule R159). `bautoack` is unspecified there: DESIGN CHOICE, log entry 8. -/
def BusUnit.reset : BusUnit where
  recAddr := 0#7
  recDir := .write
  recCmd := 0#8
  recDest := 0#32
  recCount := 0#4
  recEvt := 0#32
  busState := .initSendAddr
  busBusy := false
  bien := 0b1011#4
  bifReg := 0#4
  brxdata := 0#8
  bpidle := true
  bautoack := false
  bienSave := 0#4
  nackCnt := 0#32

/-- A serial engine after reset (rule R159). `txbuf` is unspecified there: DESIGN CHOICE, log entry 9. -/
def SerUnit.reset (c : Params) : SerUnit where
  txbuf := List.replicate c.txCap 0#8
  txLen := 0#16
  txIdx := 0#16
  serState := .init
  serBusy := false
  sien := 0#2
  sifReg := 0#2
  stxen := false

/-- A queue after reset (rule R159). `qbuf` and `diagbuf` are unspecified there: DESIGN CHOICE, log entries 10 and 11. -/
def QueueUnit.reset (c : Params) : QueueUnit where
  qbuf := List.replicate c.qcap 0#8
  qrd := 0
  qwr := 0
  diagbuf := List.replicate c.diagCap 0#8
  diagLen := 0#16

/-- The state after reset of a machine with the parameters `c` (rule R159), with nothing presented at its ports. -/
def State.resetOf (c : Params) : State where
  cfg := c
  faultCode := .noFault
  faultUnit := 0#4
  faultInst := 0#4
  faultInfo := 0#32
  fgAsleep := false
  fgDepth := 0#8
  fgHeld := .none
  act := []
  pending := 0#32
  cnt := List.replicate c.nDepth 0#8
  bus := List.replicate c.nBus BusUnit.reset
  ser := List.replicate c.nSer (SerUnit.reset c)
  queue := List.replicate c.nSer (QueueUnit.reset c)
  dmem := []
  ctx := .fg
  resp := []
  fgPort := []
  irqPort := []
  evtPort := []
  hostStores := []
  moves := []

/-- The machine right after reset (rule R159), with the vector defaults of rule R9 (log entry 1). -/
def State.reset : State := State.resetOf Params.vectorDefault

end Sys2Proof.Machine
end

