-- ==== Sys2Proof/Machine/Flags.lean ====
section
/-! DEFINITION. The encodings of the tags and codes, and the interrupt flag and enable bits of the two peripheral interfaces
(10_state.md rules R30, R31, R33, R34; 60_exceptions.md rules R131 and R139). -/

namespace Sys2Proof.Machine

/-- The numbers of rule R131. -/
def FaultCode.code : FaultCode → BitVec 8
  | .noFault => 0x00#8
  | .busProtocol => 0x01#8
  | .serProtocol => 0x02#8
  | .sleepOverflow => 0x03#8
  | .busStartBusy => 0x04#8
  | .queueOverflow => 0x05#8
  | .illegalCommand => 0x06#8
  | .operandRange => 0x07#8
  | .unsupported => 0x08#8
  | .txLength => 0x09#8
  | .frameLength => 0x0A#8
  | .diagOverflow => 0x0B#8
  | .dmemAccess => 0x0C#8
  | .context => 0x0D#8
  | .corruptFrame => 0x0E#8
  | .busRetryExhausted => 0x0F#8

/-- The encoding of rule R30. -/
def BusState.code : BusState → BitVec 3
  | .initSendAddr => 0#3
  | .sendCommand => 1#3
  | .sendRptStartAddr => 2#3
  | .readMsByte => 3#3
  | .readLs => 4#3
  | .stopEnd => 5#3

/-- The encoding of rule R33. -/
def SerState.code : SerState → BitVec 2
  | .init => 0#2
  | .sendData => 1#2
  | .stopClose => 2#2

/-- The bit position of a bus flag and its enable (rule R31), and the number k of rule R99. -/
def BusFlag.bit : BusFlag → Nat
  | .ack => 0
  | .nack => 1
  | .rxdatav => 2
  | .mstop => 3

/-- The bit position of a serial flag and its enable (rule R34), and the number k of rule R114. -/
def SerFlag.bit : SerFlag → Nat
  | .txbl => 0
  | .txc => 1

/-- Bit `k` of a flag or enable register becomes 1. -/
def setBit {w : Nat} (v : BitVec w) (k : Nat) : BitVec w := v ||| (1#w <<< k)

/-- Bit `k` of a flag or enable register becomes 0. -/
def clearBit {w : Nat} (v : BitVec w) (k : Nat) : BitVec w := v &&& ~~~(1#w <<< k)

/-- A bus flag is raised and enabled (rule R140). -/
def BusUnit.enabled (u : BusUnit) (k : BusFlag) : Bool := u.bifReg.getLsbD k.bit && u.bien.getLsbD k.bit

/-- A serial flag is raised and enabled (rule R140). -/
def SerUnit.enabled (u : SerUnit) (k : SerFlag) : Bool := u.sifReg.getLsbD k.bit && u.sien.getLsbD k.bit

/-- Raise a bus flag (rule R67). -/
def BusUnit.raiseFlag (u : BusUnit) (k : BusFlag) : BusUnit := { u with bifReg := setBit u.bifReg k.bit }

/-- Clear a bus flag (rule R99). -/
def BusUnit.clearFlag (u : BusUnit) (k : BusFlag) : BusUnit := { u with bifReg := clearBit u.bifReg k.bit }

/-- Enable a bus interrupt (rule R103). -/
def BusUnit.enableFlag (u : BusUnit) (k : BusFlag) : BusUnit := { u with bien := setBit u.bien k.bit }

/-- Raise a serial flag (rule R67). -/
def SerUnit.raiseFlag (u : SerUnit) (k : SerFlag) : SerUnit := { u with sifReg := setBit u.sifReg k.bit }

/-- Clear a serial flag (rule R114). -/
def SerUnit.clearFlag (u : SerUnit) (k : SerFlag) : SerUnit := { u with sifReg := clearBit u.sifReg k.bit }

/-- Enable a serial interrupt (rules R112 and R116). -/
def SerUnit.enableFlag (u : SerUnit) (k : SerFlag) : SerUnit := { u with sien := setBit u.sien k.bit }

/-- Disable a serial interrupt (rule R116). -/
def SerUnit.disableFlag (u : SerUnit) (k : SerFlag) : SerUnit := { u with sien := clearBit u.sien k.bit }

end Sys2Proof.Machine
end

