-- ==== Sys2Proof/Machine/Ops.lean ====
section
/-! DEFINITION. The named operations every rule is written in: host data memory (20_memory.md), the accessors of the engines and
counters, emitting an action, responding, posting, the block counters, and raising a fault, which is this hardware's one exception
(60_exceptions.md rule R133). There is no return from a fault and none from an interrupt (rules R133 and R143). -/

namespace Sys2Proof.Machine

/-- What a step answers. -/
abbrev Out := Host.Outcome State Fault Refusal

/-- What a byte of `DMEM` that nothing has written reads as (DESIGN CHOICE, log entry 12). -/
def Memory.unlisted : Byte := 0#8

/-- The byte at address `a`. -/
def Memory.read : List Host.Cell → Nat → Byte
  | [], _ => Memory.unlisted
  | (k, b) :: m, a => if k = a then b else Memory.read m a

/-- Put a byte before the cells of higher addresses, or nothing where it is what an unlisted address reads as. -/
def Memory.cons (a : Nat) (v : Byte) (m : List Host.Cell) : List Host.Cell :=
  if v = Memory.unlisted then m else (a, v) :: m

/-- Store a byte at address `a`, keeping the canonical form. -/
def Memory.write : List Host.Cell → Nat → Byte → List Host.Cell
  | [], a, v => Memory.cons a v []
  | (k, b) :: m, a, v =>
    if a < k then Memory.cons a v ((k, b) :: m)
    else if a = k then Memory.cons a v m
    else (k, b) :: Memory.write m a v

/-- The canonical form: addresses strictly rise from `lo`, none is past the 2^32 bytes of `DMEM`, and no entry is what an unlisted
address reads as. -/
def Memory.wfFrom : Nat → List Host.Cell → Bool
  | _, [] => true
  | lo, (k, b) :: m => decide (lo ≤ k) && decide (k < 2 ^ 32) && decide (b ≠ Memory.unlisted) && Memory.wfFrom (k + 1) m

/-- The canonical form of a memory. -/
def Memory.wf (m : List Host.Cell) : Bool := Memory.wfFrom 0 m

/-- `MemRead(addr, 2)` (rule R40): the byte at the lower address is the low-order byte; undefined, here `none`, where `DMEM_ADMITS` fails. -/
def State.memRead (s : State) (addr : Word) : Option (BitVec 16) :=
  if s.cfg.admits addr 2 then
    some (Memory.read s.dmem (addr.toNat + 1) ++ Memory.read s.dmem addr.toNat)
  else none

/-- `MemWrite(addr, 2, v)` (rule R41), both bytes in the same step; undefined, here `none`, where `DMEM_ADMITS` fails. -/
def State.memWrite (s : State) (addr : Word) (v : BitVec 16) : Option State :=
  if s.cfg.admits addr 2 then
    some { s with
      dmem := Memory.write (Memory.write s.dmem addr.toNat (v.extractLsb' 0 8)) (addr.toNat + 1) (v.extractLsb' 8 8) }
  else none

/-- `QMASK` (S41): the constant `QCAP` − 1 (10_state.md rule R35). -/
def State.qmask (s : State) : Nat := s.cfg.qcap - 1

/-- Bus engine `p`. Outside 0 to `N_BUS` − 1, which every command, event and handler step rules out, an idle engine (log entry 19). -/
def State.busAt (s : State) (p : Nat) : BusUnit := s.bus.getD p BusUnit.reset

/-- Serial engine `p`, an idle engine outside 0 to `N_SER` − 1 (log entry 19). -/
def State.serAt (s : State) (p : Nat) : SerUnit := s.ser.getD p (SerUnit.reset s.cfg)

/-- Queue `q`, an empty queue outside 0 to `N_SER` − 1 (log entry 19). -/
def State.queueAt (s : State) (q : Nat) : QueueUnit := s.queue.getD q (QueueUnit.reset s.cfg)

/-- Write bus engine `p`. -/
def State.setBus (s : State) (p : Nat) (u : BusUnit) : State := { s with bus := s.bus.set p u }

/-- Write serial engine `p`. -/
def State.setSer (s : State) (p : Nat) (u : SerUnit) : State := { s with ser := s.ser.set p u }

/-- Write queue `q`. -/
def State.setQueue (s : State) (q : Nat) (u : QueueUnit) : State := { s with queue := s.queue.set q u }

/-- `CNT[d]` (10_state.md rule R27). -/
def State.cntAt (s : State) (d : Nat) : BitVec 8 := s.cnt.getD d 0#8

/-- `emit A` (00_scope.md rule R18): append to `ACT`. -/
def State.emit (s : State) (a : Action) : State := { s with act := s.act ++ [a] }

/-- `respond(v)` to the caller in context `c` (00_scope.md rule R18, 30_encoding.md rule R66). -/
def State.respondTo (s : State) (c : Ctx) (v : Word) : State := { s with resp := s.resp ++ [⟨c, v⟩] }

/-- `respond(v)` in a command step: to the context the command carries. -/
def State.respond (s : State) (v : Word) : State := s.respondTo s.ctx v

/-- `S.PENDING <- S.PENDING | m` (40_scheduler.md rules R75 and R78). -/
def State.post (s : State) (m : Word) : State := { s with pending := s.pending ||| m }

/-- One more block of depth `d` would pass the bound (41_arbiter.md rule R82). -/
def State.blockFull (s : State) (d : Nat) : Bool := decide ((s.cntAt d).toNat + 1 > s.cfg.blockMax)

/-- `S.CNT[d] <- S.CNT[d] + 1` (rule R82). -/
def State.block (s : State) (d : Nat) : State := { s with cnt := s.cnt.set d (s.cntAt d + 1#8) }

/-- `if S.CNT[d] != 0: S.CNT[d] <- S.CNT[d] − 1` (rule R83). -/
def State.unblock (s : State) (d : Nat) : State :=
  if s.cntAt d ≠ 0#8 then { s with cnt := s.cnt.set d (s.cntAt d - 1#8) } else s

/-- What a fault writes to the fault register (60_exceptions.md rules R131 and R132). -/
structure FaultReport where
  code : FaultCode
  unit : BitVec 4
  inst : BitVec 4
  info : Word
deriving DecidableEq, Repr

/-- `raise Fault` (rule R133), the one exception of this hardware: the state before the step with the fault register written. -/
def State.raiseFault (s : State) (f : FaultReport) : State :=
  { s with faultCode := f.code, faultUnit := f.unit, faultInst := f.inst, faultInfo := f.info }

/-- The fault register holds a fault (00_scope.md rule R15). -/
def State.halted (s : State) : Bool := decide (s.faultCode ≠ .noFault)

/-- `cat(zext_8(k), zext_8(state))` at 32 bits, the cause of a protocol fault (rule R132). -/
def protocolInfo (k : Nat) (state : BitVec 8) : Word := 0#16 ++ (BitVec.ofNat 8 k ++ state : BitVec 16)

/-- `BUS_PROTOCOL` (42_bus_master.md rule R107). -/
def faultBusProtocol (p : Nat) (k : BusFlag) (st : BusState) : FaultReport where
  code := .busProtocol
  unit := 2#4
  inst := BitVec.ofNat 4 p
  info := protocolInfo k.bit (st.code.setWidth 8)

/-- `SER_PROTOCOL` (43_serial_tx.md rule R118). -/
def faultSerProtocol (p : Nat) (k : SerFlag) (st : SerState) : FaultReport where
  code := .serProtocol
  unit := 3#4
  inst := BitVec.ofNat 4 p
  info := protocolInfo k.bit (st.code.setWidth 8)

/-- `SLEEP_OVERFLOW` of depth `d` (rule R132). -/
def faultSleepOverflow (d : Nat) : FaultReport where
  code := .sleepOverflow
  unit := 1#4
  inst := 0#4
  info := BitVec.ofNat 32 d

/-- A fault of the header's own unit and instance that records the header: `OPERAND_RANGE`, `CONTEXT`, and for unit 2
`BUS_START_BUSY` and `UNSUPPORTED` (rule R132). -/
def faultHeader (code : FaultCode) (h : Word) : FaultReport where
  code := code
  unit := unitOf h
  inst := instOf h
  info := h

/-- `ILLEGAL_COMMAND` (rule R132). -/
def faultIllegal (h : Word) : FaultReport where
  code := .illegalCommand
  unit := 15#4
  inst := 0#4
  info := h

/-- A fault of unit `unit`, instance `p`, that records a length, a length byte, an address or a count (rule R132). -/
def faultInfoOf (code : FaultCode) (unit : BitVec 4) (p : Nat) (info : Word) : FaultReport where
  code := code
  unit := unit
  inst := BitVec.ofNat 4 p
  info := info

/-- The result of a handler's transition. -/
inductive Result where
  /-- the effects are applied -/
  | ok (s : State)
  /-- a fault of rule R131 is raised -/
  | raised (f : FaultReport)
  /-- the model stops -/
  | stopped (r : Fault)
deriving DecidableEq, Repr

/-- The end of a handler step (60_exceptions.md rule R140): it wakes the foreground; a fault changes only the fault register of the state
`s` before the step. -/
def finishHandler (s : State) : Result → Out
  | .ok t => .next { t with fgAsleep := false }
  | .raised f => .next (s.raiseFault f)
  | .stopped r => .fault r

end Sys2Proof.Machine
end

