-- ==== Sys2Proof/Machine/Operands.lean ====
section
/-! DEFINITION. What every command does with its operands before its own rule: the masks and lengths of 30_encoding.md rule R61, the
context table of 60_exceptions.md rule R137, the instance ranges of 30_encoding.md rule R65, and the frame of a command step. -/

namespace Sys2Proof.Machine

/-- `W[EVT_W-1:0]` (rule R61): the event mask an operand word carries. -/
def State.eventMask (s : State) (w : Word) : Word := w &&& BitVec.ofNat 32 (2 ^ s.cfg.evtW - 1)

/-- The `IRQ` column of the context table (rule R137). -/
def allowedFromIrq : Instr → Bool
  | .schedPost _ | .arbBlock _ | .arbUnblock _ => true
  | .schedPoll | .arbFloor | .busBusy _ | .serBusy _ | .qFree _ => true
  | .schedOpen | .schedClear _ | .arbOpen | .arbEnter => false
  | .busStart _ _ _ _ _ _ _ | .busReset _ | .serStart _ _ => false
  | .qOpen _ | .qPush _ _ | .qPop _ _ => false

/-- The instance of a command is one the machine has (rule R65 (3)). -/
def State.instanceInRange (s : State) : Instr → Bool
  | .schedOpen | .schedPost _ | .schedClear _ | .schedPoll => true
  | .arbOpen | .arbBlock _ | .arbUnblock _ | .arbFloor | .arbEnter => true
  | .busStart p _ _ _ _ _ _ | .busBusy p | .busReset p => decide (p.toNat < s.cfg.nBus)
  | .serStart p _ | .serBusy p => decide (p.toNat < s.cfg.nSer)
  | .qOpen q | .qPush q _ | .qPop q _ | .qFree q => decide (q.toNat < s.cfg.nSer)

/-- The first failing check of rule R65 (2) and (3). -/
def State.admission (s : State) (i : Instr) : Option FaultReport :=
  if s.ctx = .irq ∧ allowedFromIrq i = false then some (faultHeader .context i.header)
  else if s.instanceInRange i = false then some (faultHeader .operandRange i.header)
  else none

/-- The end of a command step: an `IRQ` command wakes the foreground (41_arbiter.md rule R89). -/
def State.endCommand (s : State) : State :=
  match s.ctx with
  | .fg => s
  | .irq => { s with fgAsleep := false }

/-- A command step (00_scope.md rule R12) of command `i` whose rule, applied to the state, gives `body`: the checks of rule R65 first,
then the rule; a fault discards every other effect (60_exceptions.md rule R133). -/
def runCommand (i : Instr) (s : State) (body : Except FaultReport State) : Out :=
  match s.admission i with
  | some f => .next (s.raiseFault f)
  | none =>
    match body with
    | .error f => .next (s.raiseFault f)
    | .ok t => .next t.endCommand

end Sys2Proof.Machine
end

