-- ==== Sys2Proof/Machine/Arbiter.lean ====
section
/-! DEFINITION. The sleep-depth arbiter (41_arbiter.md). -/

namespace Sys2Proof.Machine

/-- The shallowest depth with a nonzero counter, if there is one. -/
def shallowestBlocked (cnt : List (BitVec 8)) : Option Nat := cnt.findIdx? (fun c => decide (c ≠ 0#8))

/-- `floor(CNT)` (rule R84). -/
def State.floor (s : State) : Nat :=
  match shallowestBlocked s.cnt with
  | some d => d
  | none => s.cfg.nDepth - 1

/-- `target(CNT)` (rule R86). -/
def State.target (s : State) : Nat :=
  match shallowestBlocked s.cnt with
  | some d => d - 1
  | none => s.cfg.nDepth - 1

/-- `ARB.OPEN` (rule R81). -/
def execArbOpen (s : State) : Out :=
  runCommand .arbOpen s (.ok ({ s with cnt := s.cnt.map fun _ => 0#8 }.respond 0#32))

/-- The rule of `ARB.BLOCK` (rule R82). -/
def arbBlockBody (h : Word) (d : Nat) (s : State) : Except FaultReport State :=
  if s.cfg.nDepth ≤ d then .error (faultHeader .operandRange h)
  else if s.blockFull d then .error (faultSleepOverflow d)
  else .ok ((s.block d).respond 0#32)

/-- `ARB.BLOCK d` (rule R82). -/
def execArbBlock (d : Byte) (s : State) : Out :=
  runCommand (.arbBlock d) s (arbBlockBody (Instr.arbBlock d).header d.toNat s)

/-- The rule of `ARB.UNBLOCK` (rule R83). -/
def arbUnblockBody (h : Word) (d : Nat) (s : State) : Except FaultReport State :=
  if s.cfg.nDepth ≤ d then .error (faultHeader .operandRange h)
  else .ok ((s.unblock d).respond 0#32)

/-- `ARB.UNBLOCK d` (rule R83). -/
def execArbUnblock (d : Byte) (s : State) : Out :=
  runCommand (.arbUnblock d) s (arbUnblockBody (Instr.arbUnblock d).header d.toNat s)

/-- `ARB.FLOOR` (rule R85). -/
def execArbFloor (s : State) : Out :=
  runCommand .arbFloor s (.ok (s.respond (BitVec.ofNat 32 s.floor)))

/-- The power-mode transition to depth `t` that `ARB.ENTER` requests, none for a shallow depth (rule R87). -/
def State.sleepAt (s : State) (t : Nat) : State :=
  if t > s.cfg.shallowDepth then
    { s.emit (.cpuSleep t) with fgDepth := BitVec.ofNat 8 t, fgAsleep := true }
  else s

/-- `ARB.ENTER` (rule R87). -/
def execArbEnter (s : State) : Out :=
  runCommand .arbEnter s (.ok ((s.respond (BitVec.ofNat 32 s.target)).sleepAt s.target))

end Sys2Proof.Machine
end

