-- ==== Sys2Proof/Machine/BusMaster.lean ====
section
/-! DEFINITION. The bus master engine (42_bus_master.md): its commands, its handler steps and the completion of `BUS.RESET`. -/

namespace Sys2Proof.Machine

/-- The address byte on the bus, `cat(addr, rw)` (rule R93). -/
def addressByte (addr : BitVec 7) (rw : BitVec 1) : Byte := addr ++ rw

/-- The record of a transaction that `BUS.START` begins on engine `u` (rule R94). -/
def BusUnit.start (u : BusUnit) (addr : BitVec 7) (cmd : Byte) (dir : Dir) (count : BitVec 4) (dest ev : Word) : BusUnit :=
  { u with
    busBusy := true
    recAddr := addr
    recDir := dir
    recCmd := cmd
    recDest := dest
    recCount := count
    recEvt := ev
    busState := .initSendAddr
    nackCnt := 0#32
    bautoack := false }

/-- The rule of `BUS.START` (rules R94 and R95), `h` its header. -/
def busStartBody (h : Word) (p : Nat) (addr : BitVec 7) (cmd : Byte) (dir : Dir) (count : BitVec 4) (dest ev : Word) (s : State) :
    Except FaultReport State :=
  let u := s.busAt p
  if u.busBusy = true ∨ u.bpidle = false then .error (faultHeader .busStartBusy h)
  else if dir = .write ∨ count ≠ 2#4 then .error (faultHeader .unsupported h)
  else if dest.getLsbD 0 = true ∨ s.cfg.admits dest 2 = false then .error (faultInfoOf .dmemAccess 2#4 p dest)
  else if s.blockFull s.cfg.busDepth then .error (faultSleepOverflow s.cfg.busDepth)
  else
    .ok ((((((s.block s.cfg.busDepth).setBus p (u.start addr cmd dir count dest ev)).emit (.busAutoackOff p)).emit
      (.busTxdata p (addressByte addr 0#1))).emit (.busStart p)).respond 0#32)

/-- `BUS.START p, addr, cmd, dir, count, dest, ev` (rules R94 and R95). -/
def execBusStart (p : BitVec 4) (addr : BitVec 7) (cmd : Byte) (dir : Dir) (count : BitVec 4) (dest ev : Word) (s : State) : Out :=
  runCommand (.busStart p addr cmd dir count dest ev) s
    (busStartBody (Instr.busStart p addr cmd dir count dest ev).header p.toNat addr cmd dir count dest (s.eventMask ev) s)

/-- `BUS.BUSY p` (rule R96). -/
def execBusBusy (p : BitVec 4) (s : State) : Out :=
  runCommand (.busBusy p) s (.ok (s.respond ((BitVec.ofBool (s.busAt p.toNat).busBusy).setWidth 32)))

/-- The command step of `BUS.RESET p` (rule R97): it holds, so it gives no response. -/
def busResetBody (p : Nat) (s : State) : State :=
  let u := s.busAt p
  { ((((s.setBus p { u with bienSave := u.bien, bien := 0#4 }).emit (.busAbort p)).emit (.busCleartx p)).emit
      (.busStart p)).emit (.busStop p) with fgHeld := .busReset p }

/-- `BUS.RESET p` (rule R97). -/
def execBusReset (p : BitVec 4) (s : State) : Out :=
  runCommand (.busReset p) s (.ok (busResetBody p.toNat s))

/-- The completion of `BUS.RESET p` (rule R98) is enabled: the stop-complete flag is raised. -/
def State.busResetDone (s : State) (p : Nat) : Bool := (s.busAt p).bifReg.getLsbD BusFlag.mstop.bit

/-- The completion of `BUS.RESET p` (rule R98). -/
def busResetCompletion (p : Nat) (s : State) : State :=
  let u := s.busAt p
  { s.setBus p { u with bifReg := 0#4, busBusy := false, busState := .initSendAddr, bien := u.bienSave } with
    fgHeld := .none }.respondTo .fg 0#32

/-- ACK in `INIT_SEND_ADDR` (rule R100). -/
def busSendCommand (p : Nat) (s : State) : Result :=
  let u := s.busAt p
  .ok ((s.emit (.busTxdata p u.recCmd)).setBus p { u with busState := .sendCommand })

/-- The repeated START with the read address (rules R101 and R102). -/
def State.emitRepeatedStart (s : State) (p : Nat) (addr : BitVec 7) : State :=
  (s.emit (.busStart p)).emit (.busTxdata p (addressByte addr 1#1))

/-- ACK in `SEND_COMMAND` (rule R101). -/
def busRepeatedStart (p : Nat) (s : State) : Result :=
  let u := s.busAt p
  .ok ((s.emitRepeatedStart p u.recAddr).setBus p { u with busState := .sendRptStartAddr })

/-- `RPT_NACK_LIMIT` is finite and reached (rule R102). -/
def retriesExhausted (limit : Option Nat) (nackCnt : Word) : Bool :=
  match limit with
  | none => false
  | some n => decide (n ≤ nackCnt.toNat)

/-- `NACK_CNT` one higher, saturating at 2^32 − 1 (rule R102). -/
def nackCount (n : Word) : Word := if n.toNat < 2 ^ 32 - 1 then n + 1#32 else n

/-- NACK in `SEND_RPT_START_ADDR` (rule R102). -/
def busRetry (p : Nat) (s : State) : Result :=
  let u := s.busAt p
  if retriesExhausted s.cfg.rptNackLimit u.nackCnt then .raised (faultInfoOf .busRetryExhausted 2#4 p u.nackCnt)
  else .ok ((s.setBus p { u with nackCnt := nackCount u.nackCnt }).emitRepeatedStart p u.recAddr)

/-- ACK in `SEND_RPT_START_ADDR` (rule R103). -/
def busEnableReceive (p : Nat) (s : State) : Result :=
  .ok (s.setBus p { (s.busAt p).enableFlag .rxdatav with busState := .readMsByte })

/-- RXDATAV in `READ_MS_BYTE` (rule R104): the whole destination word is written (20_memory.md rule R45). -/
def busStoreHigh (p : Nat) (s : State) : Result :=
  let u := s.busAt p
  match s.memWrite u.recDest (u.brxdata.setWidth 16 <<< 8) with
  | none => .stopped .dmemNotAdmitted
  | some t => .ok ((t.emit (.busAck p)).setBus p { u with busState := .readLs })

/-- RXDATAV in `READ_LS` (rule R105): the second byte is merged into the word as it stands (20_memory.md rule R46). -/
def busMergeLow (p : Nat) (s : State) : Result :=
  let u := s.busAt p
  match s.memRead u.recDest with
  | none => .stopped .dmemNotAdmitted
  | some v =>
    match s.memWrite u.recDest (v ||| u.brxdata.setWidth 16) with
    | none => .stopped .dmemNotAdmitted
    | some t => .ok (((t.emit (.busNack p)).emit (.busStop p)).setBus p { u with busState := .stopEnd })

/-- MSTOP in `STOP_END` (rule R106). -/
def busFinish (p : Nat) (s : State) : Result :=
  let u := s.busAt p
  .ok (((s.unblock s.cfg.busDepth).post u.recEvt).setBus p { u with busBusy := false, busState := .initSendAddr })

/-- The transition the pair (`BUS_STATE[p]`, k) selects (rule R99); every other pair is the protocol fault of rule R107. -/
def busTransition (p : Nat) (k : BusFlag) (s : State) : Result :=
  match (s.busAt p).busState, k with
  | .initSendAddr, .ack => busSendCommand p s
  | .sendCommand, .ack => busRepeatedStart p s
  | .sendRptStartAddr, .ack => busEnableReceive p s
  | .sendRptStartAddr, .nack => busRetry p s
  | .readMsByte, .rxdatav => busStoreHigh p s
  | .readLs, .rxdatav => busMergeLow p s
  | .stopEnd, .mstop => busFinish p s
  | st, k => .raised (faultBusProtocol p k st)

/-- The handler step of bus engine `p` for flag `k` (rule R99, 60_exceptions.md rule R140): no step where the flag or its enable is 0;
else the flag is cleared and the transition applied. -/
def busHandler (p : Nat) (k : BusFlag) (s : State) : Out :=
  if (s.busAt p).enabled k then finishHandler s (busTransition p k (s.setBus p ((s.busAt p).clearFlag k)))
  else .next s

end Sys2Proof.Machine
end

