-- ==== Sys2Proof/Machine/SerialTx.lean ====
section
/-! DEFINITION. The serial transmit engine (43_serial_tx.md): its commands and handler steps. -/

namespace Sys2Proof.Machine

/-- The record of a transmission of `bytes` that begins on engine `u` (rule R112): bytes of `TXBUF` past the last keep their values. -/
def SerUnit.start (u : SerUnit) (bytes : List Byte) : SerUnit :=
  { u.enableFlag .txbl with
    txbuf := bytes ++ u.txbuf.drop bytes.length
    txLen := BitVec.ofNat 16 bytes.length
    txIdx := 0#16
    serState := .init
    serBusy := true
    stxen := true }

/-- The effects of rule R112 after its check, without its respond. -/
def serEffects (p : Nat) (bytes : List Byte) (s : State) : State :=
  { ((s.setSer p ((s.serAt p).start bytes)).block s.cfg.serDepth).emit (.serTxen p) with fgHeld := .none }

/-- Rule R112 without its respond: the bound of the dedicated depth is checked first. -/
def serBegin (p : Nat) (bytes : List Byte) (s : State) : Except FaultReport State :=
  if s.blockFull s.cfg.serDepth then .error (faultSleepOverflow s.cfg.serDepth)
  else .ok (serEffects p bytes s)

/-- A payload the serial engine cannot take: empty, or longer than its buffer (rule R111). -/
def badTxLength (c : Params) (n : Nat) : Bool := decide (n = 0) || decide (n > c.txCap)

/-- The command step of `SER.START` (rule R111): while the engine is busy the command is held and gives no response. -/
def serStartBody (p : Nat) (bytes : List Byte) (s : State) : Except FaultReport State :=
  if badTxLength s.cfg bytes.length then .error (faultInfoOf .txLength 3#4 p (BitVec.ofNat 32 bytes.length))
  else if (s.serAt p).serBusy then .ok { s with fgHeld := .serStart p bytes }
  else
    match serBegin p bytes s with
    | .error f => .error f
    | .ok t => .ok (t.respond 0#32)

/-- `SER.START p, bytes` (rule R111). -/
def execSerStart (p : BitVec 4) (bytes : List Byte) (s : State) : Out :=
  runCommand (.serStart p bytes) s (serStartBody p.toNat bytes s)

/-- The completion of a held `SER.START` (rule R112). -/
def serStartCompletion (p : Nat) (bytes : List Byte) (s : State) : State :=
  match serBegin p bytes s with
  | .error f => s.raiseFault f
  | .ok t => t.respondTo .fg 0#32

/-- `SER.BUSY p` (rule R113). -/
def execSerBusy (p : BitVec 4) (s : State) : Out :=
  runCommand (.serBusy p) s (.ok (s.respond ((BitVec.ofBool (s.serAt p.toNat).serBusy).setWidth 32)))

/-- TXBL in `INIT` (rule R115). -/
def serArm (p : Nat) (s : State) : Result :=
  .ok (s.setSer p { s.serAt p with serState := .sendData })

/-- The engine after it has written the byte at its index (rule R116). -/
def SerUnit.advance (u : SerUnit) : SerUnit :=
  let v : SerUnit := { u with txIdx := u.txIdx + 1#16 }
  if v.txIdx = v.txLen then { (v.disableFlag .txbl).enableFlag .txc with serState := .stopClose } else v

/-- TXBL in `SEND_DATA` (rule R116). -/
def serSendByte (p : Nat) (s : State) : Result :=
  let u := s.serAt p
  .ok ((s.emit (.serTxdata p (u.txbuf.getD u.txIdx.toNat 0#8))).setSer p u.advance)

/-- TXC in `STOP_CLOSE` (rule R117). -/
def serFinish (p : Nat) (s : State) : Result :=
  let u := s.serAt p
  .ok ((((s.emit (.serTxdis p)).unblock s.cfg.serDepth).post (s.cfg.evtTxDone.getD p 0#32)).setSer p
    { u with stxen := false, serBusy := false, serState := .init })

/-- The transition the pair (`SER_STATE[p]`, k) selects (rule R114); every other pair is the protocol fault of rule R118. -/
def serTransition (p : Nat) (k : SerFlag) (s : State) : Result :=
  match (s.serAt p).serState, k with
  | .init, .txbl => serArm p s
  | .sendData, .txbl => serSendByte p s
  | .stopClose, .txc => serFinish p s
  | st, k => .raised (faultSerProtocol p k st)

/-- The handler step of serial engine `p` for flag `k` (rule R114, 60_exceptions.md rule R140): no step where the flag or its enable is
0; else the flag is cleared and the transition applied. -/
def serHandler (p : Nat) (k : SerFlag) (s : State) : Out :=
  if (s.serAt p).enabled k then finishHandler s (serTransition p k (s.setSer p ((s.serAt p).clearFlag k)))
  else .next s

end Sys2Proof.Machine
end

