-- ==== Sys2Proof/Machine/FramedQueue.lean ====
section
/-! DEFINITION. The framed output queue (44_framed_queue.md). -/

namespace Sys2Proof.Machine

/-- `used(q)` (rule R122): the subtraction is modulo `QCAP`. -/
def State.used (s : State) (q : Nat) : Nat :=
  ((s.queueAt q).qwr + (s.cfg.qcap - (s.queueAt q).qrd)) &&& s.qmask

/-- `free(q)` (rule R122). -/
def State.free (s : State) (q : Nat) : Nat := s.cfg.qcap - s.used q

/-- `Q.OPEN q` (rule R123). -/
def execQOpen (q : BitVec 4) (s : State) : Out :=
  runCommand (.qOpen q) s
    (.ok ((s.setQueue q.toNat { s.queueAt q.toNat with qrd := 0, qwr := 0, diagLen := 0#16 }).respond 0#32))

/-- One byte at the write index, which advances under the mask (rule R124). -/
def QueueUnit.put (mask : Nat) (u : QueueUnit) (b : Byte) : QueueUnit :=
  { u with qbuf := u.qbuf.set u.qwr b, qwr := (u.qwr + 1) &&& mask }

/-- A frame: the length byte, then the payload (rule R121). -/
def frame (payload : List Byte) : List Byte := BitVec.ofNat 8 (payload.length + 1) :: payload

/-- The queue after a frame is written byte by byte (rule R124). -/
def QueueUnit.putFrame (mask : Nat) (u : QueueUnit) (payload : List Byte) : QueueUnit :=
  (frame payload).foldl (QueueUnit.put mask) u

/-- The rule of `Q.PUSH` (rule R124). -/
def qPushBody (q : Nat) (payload : List Byte) (s : State) : Except FaultReport State :=
  if payload.length > 254 then .error (faultInfoOf .frameLength 4#4 q (BitVec.ofNat 32 payload.length))
  else if s.free q < payload.length + 1 then .error (faultInfoOf .queueOverflow 4#4 q (BitVec.ofNat 32 payload.length))
  else .ok ((s.setQueue q ((s.queueAt q).putFrame s.qmask payload)).respond 0#32)

/-- `Q.PUSH q, payload` (rule R124). -/
def execQPush (q : BitVec 4) (payload : List Byte) (s : State) : Out :=
  runCommand (.qPush q payload) s (qPushBody q.toNat payload s)

/-- The `n` payload bytes of the frame at index `r` (rule R125). -/
def QueueUnit.payloadAt (mask : Nat) (u : QueueUnit) (r n : Nat) : List Byte :=
  (List.range n).map fun i => u.qbuf.getD ((r + 1 + i) &&& mask) 0#8

/-- The queue after a diagnostic capture of `pay` (rule R125): bytes past the last keep their values. -/
def QueueUnit.capture (u : QueueUnit) (pay : List Byte) : QueueUnit :=
  { u with diagbuf := pay ++ u.diagbuf.drop pay.length, diagLen := BitVec.ofNat 16 pay.length }

/-- The rest of `Q.POP` once a frame of length byte `lb` is found at the read index (rule R125). -/
def qPopFrame (q : Nat) (diag : Bool) (lb : Nat) (s : State) : Except FaultReport State :=
  let u := s.queueAt q
  let n := lb - 1
  let pay := u.payloadAt s.qmask u.qrd n
  let popped : QueueUnit := { u with qrd := (u.qrd + lb) &&& s.qmask }
  match diag with
  | false =>
    if badTxLength s.cfg n then .error (faultInfoOf .txLength 4#4 q (BitVec.ofNat 32 n))
    else if s.blockFull s.cfg.serDepth then .error (faultSleepOverflow s.cfg.serDepth)
    else .ok ((serEffects q pay (s.setQueue q popped)).respond 1#32)
  | true =>
    if n > s.cfg.diagCap then .error (faultInfoOf .diagOverflow 4#4 q (BitVec.ofNat 32 n))
    else .ok ((s.setQueue q (popped.capture pay)).respond 1#32)

/-- The rule of `Q.POP` (rule R125): nothing is popped while serial engine `q` is busy or the queue reads as empty. -/
def qPopBody (q : Nat) (diag : Bool) (s : State) : Except FaultReport State :=
  if (s.serAt q).serBusy = true ∨ s.free q = s.cfg.qcap then .ok (s.respond 0#32)
  else
    let lb := ((s.queueAt q).qbuf.getD (s.queueAt q).qrd 0#8).toNat
    if lb = 0 ∨ lb > s.used q then .error (faultInfoOf .corruptFrame 4#4 q (BitVec.ofNat 32 lb))
    else qPopFrame q diag lb s

/-- `Q.POP q` or `Q.POP q, DIAG` (rule R125). -/
def execQPop (q : BitVec 4) (diag : Bool) (s : State) : Out :=
  runCommand (.qPop q diag) s (qPopBody q.toNat diag s)

/-- `Q.FREE q` (rule R126). -/
def execQFree (q : BitVec 4) (s : State) : Out :=
  runCommand (.qFree q) s (.ok (s.respond (BitVec.ofNat 32 (s.free q.toNat))))

end Sys2Proof.Machine
end

