-- ==== Sys2Proof/Machine/Scheduler.lean ====
section
/-! DEFINITION. The event scheduler (40_scheduler.md). -/

namespace Sys2Proof.Machine

/-- `SCHED.OPEN` (rule R74). -/
def execSchedOpen (s : State) : Out :=
  runCommand .schedOpen s (.ok ({ s with pending := 0#32 }.respond 0#32))

/-- `SCHED.POST m` (rule R75). -/
def execSchedPost (m : Word) (s : State) : Out :=
  runCommand (.schedPost m) s (.ok ((s.post (s.eventMask m)).respond 0#32))

/-- `SCHED.CLEAR m` (rule R76): ownership of a bit is not checked, as that rule says. DESIGN CHOICE: the duty to clear owned bits only
(60_exceptions.md rule R155) is left to the host; the model names no owner and keeps no mask off the `FG` port (log entry 26). -/
def execSchedClear (m : Word) (s : State) : Out :=
  runCommand (.schedClear m) s (.ok ({ s with pending := s.pending &&& ~~~(s.eventMask m) }.respond 0#32))

/-- `SCHED.POLL` (rule R77). -/
def execSchedPoll (s : State) : Out :=
  runCommand .schedPoll s (.ok (s.respond s.pending))

end Sys2Proof.Machine
end

