-- ==== Sys2Proof/Machine/Dispatch.lean ====
section
/-! DEFINITION. One arm per command of the opcode map (30_encoding.md rule R63): the command step of an accepted command. -/

namespace Sys2Proof.Machine

def exec (i : Instr) (s : State) : Host.Outcome State Fault Refusal :=
  match i with
  | .schedOpen => Sys2Proof.Machine.execSchedOpen s
  | .schedPost m => Sys2Proof.Machine.execSchedPost m s
  | .schedClear m => Sys2Proof.Machine.execSchedClear m s
  | .schedPoll => Sys2Proof.Machine.execSchedPoll s
  | .arbOpen => Sys2Proof.Machine.execArbOpen s
  | .arbBlock d => Sys2Proof.Machine.execArbBlock d s
  | .arbUnblock d => Sys2Proof.Machine.execArbUnblock d s
  | .arbFloor => Sys2Proof.Machine.execArbFloor s
  | .arbEnter => Sys2Proof.Machine.execArbEnter s
  | .busStart p addr cmd dir count dest ev => Sys2Proof.Machine.execBusStart p addr cmd dir count dest ev s
  | .busBusy p => Sys2Proof.Machine.execBusBusy p s
  | .busReset p => Sys2Proof.Machine.execBusReset p s
  | .serStart p bytes => Sys2Proof.Machine.execSerStart p bytes s
  | .serBusy p => Sys2Proof.Machine.execSerBusy p s
  | .qOpen q => Sys2Proof.Machine.execQOpen q s
  | .qPush q payload => Sys2Proof.Machine.execQPush q payload s
  | .qPop q diag => Sys2Proof.Machine.execQPop q diag s
  | .qFree q => Sys2Proof.Machine.execQFree q s

end Sys2Proof.Machine
end

