-- ==== Sys2Proof/Machine/Events.lean ====
section
/-! DEFINITION. The event port (30_encoding.md rules R67 and R68) and the host's own stores to its memory (20_memory.md rule R48). -/

namespace Sys2Proof.Machine

/-- The events of rule R67. -/
inductive Event where
  /-- `EV.BUS.ACK` -/
  | busAck (p : BitVec 4)
  /-- `EV.BUS.NACK` -/
  | busNack (p : BitVec 4)
  /-- `EV.BUS.RX` -/
  | busRx (p : BitVec 4) (b : Byte)
  /-- `EV.BUS.MSTOP` -/
  | busMstop (p : BitVec 4)
  /-- `EV.BUS.IDLE` -/
  | busIdle (p : BitVec 4) (v : Bool)
  /-- `EV.SER.TXBL` -/
  | serTxbl (p : BitVec 4)
  /-- `EV.SER.TXC` -/
  | serTxc (p : BitVec 4)
deriving DecidableEq, Repr

/-- An event word of the fields of rule R67. -/
def eventWord (src kind inst : BitVec 4) (data : Byte) : Word := src ++ kind ++ inst ++ 0#12 ++ data

/-- The word of an event (rule R67). -/
def encodeEvent : Event → Word
  | .busAck p => eventWord 2#4 0#4 p 0#8
  | .busNack p => eventWord 2#4 1#4 p 0#8
  | .busRx p b => eventWord 2#4 2#4 p b
  | .busMstop p => eventWord 2#4 3#4 p 0#8
  | .busIdle p v => eventWord 2#4 4#4 p (0#7 ++ BitVec.ofBool v)
  | .serTxbl p => eventWord 3#4 0#4 p 0#8
  | .serTxc p => eventWord 3#4 1#4 p 0#8

/-- The events of a source, kind, instance and datum; a datum the event does not carry is 0 (rule R67). -/
def eventOfFields (src kind : Nat) (p : BitVec 4) (data : Byte) : Option Event :=
  match src, kind with
  | 2, 0 => if data = 0#8 then some (.busAck p) else none
  | 2, 1 => if data = 0#8 then some (.busNack p) else none
  | 2, 2 => some (.busRx p data)
  | 2, 3 => if data = 0#8 then some (.busMstop p) else none
  | 2, 4 => if data = 0#8 then some (.busIdle p false) else if data = 1#8 then some (.busIdle p true) else none
  | 3, 0 => if data = 0#8 then some (.serTxbl p) else none
  | 3, 1 => if data = 0#8 then some (.serTxc p) else none
  | _, _ => none

/-- The instance of an event is one the machine has (rule R67). -/
def Event.inRange (c : Params) : Event → Bool
  | .busAck p | .busNack p | .busRx p _ | .busMstop p | .busIdle p _ => decide (p.toNat < c.nBus)
  | .serTxbl p | .serTxc p => decide (p.toNat < c.nSer)

/-- The event a word stands for, if it is one of the machine's (rule R67). -/
def decodeEvent (c : Params) (w : Word) : Option Event :=
  if w.extractLsb' 8 12 = 0#12 then
    match eventOfFields (w.extractLsb' 28 4).toNat (w.extractLsb' 24 4).toNat (w.extractLsb' 20 4) (w.extractLsb' 0 8) with
    | some e => if e.inRange c then some e else none
    | none => none
  else none

/-- The effect of an event (rules R67 and R68). -/
def applyEvent (e : Event) (s : State) : State :=
  match e with
  | .busAck p => s.setBus p.toNat ((s.busAt p.toNat).raiseFlag .ack)
  | .busNack p => s.setBus p.toNat ((s.busAt p.toNat).raiseFlag .nack)
  | .busRx p b => s.setBus p.toNat { (s.busAt p.toNat).raiseFlag .rxdatav with brxdata := b }
  | .busMstop p => s.setBus p.toNat ((s.busAt p.toNat).raiseFlag .mstop)
  | .busIdle p v => s.setBus p.toNat { s.busAt p.toNat with bpidle := v }
  | .serTxbl p => s.setSer p.toNat ((s.serAt p.toNat).raiseFlag .txbl)
  | .serTxc p => s.setSer p.toNat ((s.serAt p.toNat).raiseFlag .txc)

/-- An event step (rule R68): the next word at the event port; no step where the port is empty; a word that is not an event is refused
(log entry 16). -/
def eventStep (s : State) : Out :=
  match s.evtPort with
  | [] => .next s
  | w :: rest =>
    match decodeEvent s.cfg w with
    | some e => .next (applyEvent e { s with evtPort := rest })
    | none => .refused (.notAnEvent w)

/-- An address is a byte of the destination word of a transaction in flight (60_exceptions.md rules R150 and R155). -/
def State.inFlight (s : State) (a : Nat) : Bool :=
  s.bus.any fun u => u.busBusy && (decide (a = u.recDest.toNat) || decide (a = u.recDest.toNat + 1))

/-- The host may store the byte at `a`: memory is there, and it is no destination byte in flight (rule R155, log entry 15). -/
def State.hostMayStore (s : State) (a : Nat) : Bool :=
  decide (a < 2 ^ 32) && s.cfg.admits (BitVec.ofNat 32 a) 1 && !s.inFlight a

/-- A store of the host to its own memory (20_memory.md rule R48, log entry 15); no step where it may not make it. -/
def hostStoreStep (s : State) : State :=
  match s.hostStores with
  | [] => s
  | (a, v) :: rest =>
    if s.hostMayStore a then { s with hostStores := rest, dmem := Memory.write s.dmem a v } else s

end Sys2Proof.Machine
end

