-- ==== Sys2Proof/Machine/Ports.lean ====
section
/-! DEFINITION. The command port (00_scope.md rules R10, R13 and R14): which command it takes, and the completion step of a held one. -/

namespace Sys2Proof.Machine

/-- The port takes a command with this tag (rules R13 and R14, 41_arbiter.md rule R88). -/
def State.accepts (s : State) : Ctx → Bool
  | .fg => decide (s.fgHeld = .none) && !s.fgAsleep
  | .irq => true

/-- The words presented with this tag. -/
def State.portWords (s : State) : Ctx → List Word
  | .fg => s.fgPort
  | .irq => s.irqPort

/-- The command tagged `c` is taken from the port, `rest` the words after it; the tag goes with it. -/
def State.takeFrom (s : State) (c : Ctx) (rest : List Word) : State :=
  match c with
  | .fg => { s with fgPort := rest, ctx := .fg }
  | .irq => { s with irqPort := rest, ctx := .irq }

/-- What the port hands over. -/
inductive Fetched where
  /-- nothing: the port takes no command with this tag now, or its words are not all there -/
  | nothing
  /-- words that are no legal command, to be reported by their header (30_encoding.md rule R64) -/
  | illegal (h : Word)
  /-- a command, and the state with its words taken -/
  | command (i : Instr) (s : State)

/-- The next command with tag `c` (rules R13, R62 and R64). -/
def fetchCommand (s : State) (c : Ctx) : Fetched :=
  if s.accepts c then
    match decode s.cfg.evtW (s.portWords c) with
    | .ok (i, rest) => .command i (s.takeFrom c rest)
    | .error .incomplete => .nothing
    | .error (.reservedUnit h) => .illegal h
    | .error (.unlistedOp h) => .illegal h
    | .error (.reservedBit h) => .illegal h
    | .error (.maskAboveEvtW h) => .illegal h
    | .error (.paddingNonzero h) => .illegal h
  else .nothing

/-- The completion step of the held command (rule R14, 43_serial_tx.md rule R112, 42_bus_master.md rule R98); no step where none is held
or its condition does not hold. -/
def completionStep (s : State) : State :=
  match s.fgHeld with
  | .none => s
  | .serStart p bytes => if (s.serAt p).serBusy then s else serStartCompletion p bytes s
  | .busReset p => if s.busResetDone p then busResetCompletion p s else s

/-- The words of the port with the command of the bits `w` before them, and that command's step next (log entry 5). -/
def State.presentFirst (s : State) (nbits w : Nat) : State :=
  { s with fgPort := tableWords nbits w ++ s.fgPort, moves := .command .fg :: s.moves }

end Sys2Proof.Machine
end

