-- ==== Sys2Proof/Machine/Step.lean ====
section
/-! DEFINITION. The step (00_scope.md rules R11 to R15): the interleaving names the next step; a step that is not enabled changes nothing;
a halted CORE takes none. -/

namespace Sys2Proof.Machine

/-- The command step of the port with tag `c` (rule R11 (a)). -/
def commandStep (c : Ctx) (s : State) : Host.Outcome State Fault Refusal :=
  match fetchCommand s c with
  | .nothing => .next s
  | .illegal h => .next (s.raiseFault (faultIllegal h))
  | .command i t => exec i t

/-- The step a move names (rule R11). -/
def moveStep (m : Move) (s : State) : Host.Outcome State Fault Refusal :=
  match m with
  | .command c => commandStep c s
  | .event => eventStep s
  | .busHandler p k => busHandler p k s
  | .serHandler p k => serHandler p k s
  | .completion => .next (completionStep s)
  | .hostStore => .next (hostStoreStep s)

/-- One step of the machine: none in a halted CORE (rule R15); the machine rests where the interleaving names no step. -/
def step (s : State) : Host.Outcome State Fault Refusal :=
  if s.halted then .fault .halted
  else
    match s.moves with
    | [] => .next s
    | m :: rest => moveStep m { s with moves := rest }

/-- The command of the bits `w` presented at the port, and its command step next (log entry 5). -/
def State.withFetchWord (s : State) (nbits w : Nat) : State := s.presentFirst nbits w

end Sys2Proof.Machine
end

