-- ==== Sys2Proof/Safety.lean ====
section
/-! DEFINITION. The terms claims are stated in: the invariants of 10_state.md rule R38, the end of a run (60_exceptions.md rule R156) and
the premises of its launch (rule R157), what a completed command and a fault leave, and what a queue holds (44_framed_queue.md rules R121
and R128). -/

namespace Sys2Proof.Machine

/-- Some handler step of the state is enabled (60_exceptions.md rule R140). -/
def State.handlerEnabled (s : State) : Bool :=
  s.bus.any (fun u => [BusFlag.ack, .nack, .rxdatav, .mstop].any u.enabled)
    || s.ser.any (fun u => [SerFlag.txbl, .txc].any u.enabled)

/-- Quiescence (rule R156). -/
def State.quiescent (s : State) : Bool :=
  !s.halted && decide (s.fgHeld = .none) && s.bus.all (fun u => !u.busBusy) && s.ser.all (fun u => !u.serBusy)
    && !s.handlerEnabled

/-- The fault register after `raise Fault` (rule R133), every other element as it was. -/
def State.withFault (s : State) (code : FaultCode) (unit inst : BitVec 4) (info : Word) : State :=
  { s with faultCode := code, faultUnit := unit, faultInst := inst, faultInfo := info }

/-- What every completed command does besides its own effects: it gives one response `v` to its caller (30_encoding.md rule R66), and an
`IRQ` command wakes the foreground (41_arbiter.md rule R89). -/
def State.completed (s : State) (v : Word) : State :=
  { s with resp := s.resp ++ [⟨s.ctx, v⟩], fgAsleep := s.fgAsleep && decide (s.ctx = .fg) }

/-- What a handler step of bus engine `p` leaves: its engine `u`, the actions appended, the foreground awake (60_exceptions.md rule R140). -/
def State.afterBusHandler (s : State) (p : Nat) (u : BusUnit) (acts : List Action) : State :=
  { s with bus := s.bus.set p u, act := s.act ++ acts, fgAsleep := false }

/-- What a handler step of serial engine `p` leaves: its engine `u`, the actions appended, the foreground awake (rule R140). -/
def State.afterSerHandler (s : State) (p : Nat) (u : SerUnit) (acts : List Action) : State :=
  { s with ser := s.ser.set p u, act := s.act ++ acts, fgAsleep := false }

/-- Counter `d` is one higher and every other counter is as it was (41_arbiter.md rule R82). -/
def State.CountsOneMore (s t : State) (d : Nat) : Prop :=
  (t.cntAt d).toNat = (s.cntAt d).toNat + 1 ∧ ∀ d', d' ≠ d → t.cntAt d' = s.cntAt d'

/-- Counter `d` is one lower, or 0 where it was 0, and every other counter is as it was (rule R83). -/
def State.CountsOneLess (s t : State) (d : Nat) : Prop :=
  (t.cntAt d).toNat = (s.cntAt d).toNat - 1 ∧ ∀ d', d' ≠ d → t.cntAt d' = s.cntAt d'

/-- Every bus engine but `p` is as it was. -/
def State.OtherBusesKept (s t : State) (p : Nat) : Prop := t.bus.length = s.bus.length ∧ ∀ p', p' ≠ p → t.busAt p' = s.busAt p'

/-- Every serial engine but `p` is as it was. -/
def State.OtherSersKept (s t : State) (p : Nat) : Prop := t.ser.length = s.ser.length ∧ ∀ p', p' ≠ p → t.serAt p' = s.serAt p'

/-- Every queue but `q` is as it was. -/
def State.OtherQueuesKept (s t : State) (q : Nat) : Prop :=
  t.queue.length = s.queue.length ∧ ∀ q', q' ≠ q → t.queueAt q' = s.queueAt q'

/-- The commands that only the foreground may issue (60_exceptions.md rule R137). -/
def foregroundOnly : List Opcode :=
  [.schedOpen, .schedClear, .arbOpen, .arbEnter, .busStart, .busReset, .serStart, .qOpen, .qPush, .qPop]

/-- The (`BUS_STATE`, flag) pairs with a transition (42_bus_master.md rule R99). -/
def busExpected : List (BusState × BusFlag) :=
  [(.initSendAddr, .ack), (.sendCommand, .ack), (.sendRptStartAddr, .ack), (.sendRptStartAddr, .nack), (.readMsByte, .rxdatav),
    (.readLs, .rxdatav), (.stopEnd, .mstop)]

/-- The (`SER_STATE`, flag) pairs with a transition (43_serial_tx.md rule R114). -/
def serExpected : List (SerState × SerFlag) := [(.init, .txbl), (.sendData, .txbl), (.stopClose, .txc)]

/-- The events of a read transaction whose repeated START is refused `n` times (42_bus_master.md rule R108), each with the flag it raises. -/
def readEvents (p : BitVec 4) (n : Nat) (b1 b2 : Byte) : List (Event × BusFlag) :=
  [(.busAck p, .ack), (.busAck p, .ack)] ++ List.replicate n (.busNack p, .nack)
    ++ [(.busAck p, .ack), (.busRx p b1, .rxdatav), (.busRx p b2, .rxdatav), (.busMstop p, .mstop)]

/-- The actions of a read transaction after its start (rule R108). -/
def readActions (p : Nat) (addr : BitVec 7) (cmd : Byte) (n : Nat) : List Action :=
  [.busTxdata p cmd] ++ (List.replicate (n + 1) [Action.busStart p, .busTxdata p (addr ++ 1#1)]).flatten
    ++ [.busAck p, .busNack p, .busStop p]

/-- The events of a transmission of `n` bytes (43_serial_tx.md rule R119), each with the flag it raises. -/
def transmitEvents (p : BitVec 4) (n : Nat) : List (Event × SerFlag) :=
  List.replicate (n + 1) (.serTxbl p, .txbl) ++ [(.serTxc p, .txc)]

/-- Each bus event arrives and is serviced before the next. -/
def busServiceMoves (p : Nat) (es : List (Event × BusFlag)) : List Move := es.flatMap fun e => [.event, .busHandler p e.2]

/-- Each serial event arrives and is serviced before the next. -/
def serServiceMoves (p : Nat) (es : List (Event × SerFlag)) : List Move := es.flatMap fun e => [.event, .serHandler p e.2]

/-- Commands run one after another, each as its own step. -/
def runCommands : List Instr → State → Out
  | [], s => .next s
  | i :: is, s =>
    match exec i s with
    | .next t => runCommands is t
    | .fault r => .fault r
    | .refused r => .refused r

/-- Every array has the length its parameter gives it (00_scope.md rule R9, 10_state.md rules R27, R29, R32, R35). -/
abbrev State.ShapeOk (s : State) : Prop :=
  s.cnt.length = s.cfg.nDepth ∧ s.bus.length = s.cfg.nBus ∧ s.ser.length = s.cfg.nSer ∧ s.queue.length = s.cfg.nSer
    ∧ (∀ u ∈ s.ser, u.txbuf.length = s.cfg.txCap)
    ∧ (∀ u ∈ s.queue, u.qbuf.length = s.cfg.qcap ∧ u.diagbuf.length = s.cfg.diagCap)

/-- `CNT[d]` ≤ `BLOCK_MAX` for every d (rule R38 item 1). -/
abbrev State.CountersBounded (s : State) : Prop := ∀ c ∈ s.cnt, c.toNat ≤ s.cfg.blockMax

/-- The pending set and every completion mask have no bit at or above `EVT_W` (rules R26 and R29). -/
abbrev State.MasksFit (s : State) : Prop :=
  fitsIn s.cfg.evtW s.pending = true ∧ ∀ u ∈ s.bus, fitsIn s.cfg.evtW u.recEvt = true

/-- The queue indices are below `QCAP` (rule R38 item 5), and a capture never passes its buffer. -/
abbrev State.IndicesInRange (s : State) : Prop :=
  ∀ u ∈ s.queue, u.qrd < s.cfg.qcap ∧ u.qwr < s.cfg.qcap ∧ u.diagLen.toNat ≤ s.cfg.diagCap

/-- What the tags, index and enables of a serial engine say together (rule R38 items 3 and 4; 43_serial_tx.md rules R112 to R118). -/
abbrev SerUnit.Coherent (txCap : Nat) (u : SerUnit) : Prop :=
  (u.serBusy = false → u.serState = .init ∧ u.sien.getLsbD 0 = false)
    ∧ (u.serBusy = true → 1 ≤ u.txLen.toNat ∧ u.txLen.toNat ≤ txCap)
    ∧ (u.serBusy = true → u.serState = .init → u.txIdx = 0#16)
    ∧ (u.serState = .sendData → u.txIdx.toNat < u.txLen.toNat)
    ∧ (u.serState = .stopClose → u.txIdx = u.txLen ∧ u.sien.getLsbD 0 = false)

/-- Every serial engine is coherent. -/
abbrev State.SerialCoherent (s : State) : Prop := ∀ u ∈ s.ser, u.Coherent s.cfg.txCap

/-- A transaction in flight is a two-byte read into an admitted, aligned destination word (20_memory.md rule R44, 42_bus_master.md rules R94
and R95). -/
abbrev State.RecordsChecked (s : State) : Prop :=
  ∀ u ∈ s.bus, u.busBusy = true →
    u.recDir = .read ∧ u.recCount = 2#4 ∧ u.recDest.getLsbD 0 = false ∧ s.cfg.admits u.recDest 2 = true

/-- What the hold says (00_scope.md rule R14): the foreground is awake; a held `SER.START` has a payload its engine takes; a held
`BUS.RESET` has its engine's interrupts disabled (42_bus_master.md rule R97). -/
abbrev State.HeldOk (s : State) : Prop :=
  match s.fgHeld with
  | .none => True
  | .serStart p bytes => s.fgAsleep = false ∧ p < s.cfg.nSer ∧ 1 ≤ bytes.length ∧ bytes.length ≤ s.cfg.txCap
  | .busReset p => s.fgAsleep = false ∧ p < s.cfg.nBus ∧ (s.busAt p).bien = 0#4

/-- The invariant every step keeps, from any state that has it. -/
abbrev State.Inv (s : State) : Prop :=
  s.cfg.legal = true ∧ s.ShapeOk ∧ s.CountersBounded ∧ s.MasksFit ∧ s.IndicesInRange ∧ s.SerialCoherent
    ∧ s.RecordsChecked ∧ s.HeldOk ∧ Memory.wf s.dmem = true

/-- Bus engine `p` has its first tag where it is idle (rule R38 item 2). -/
abbrev State.IdleBusAtInit (s : State) (p : Nat) : Prop :=
  (s.busAt p).busBusy = false → (s.busAt p).busState = .initSendAddr

/-- The step named next services an ACK of bus engine `p` while it is idle, the exception of rule R38 item 2 (42_bus_master.md rule R100). -/
def State.AckWhileIdle (s : State) (p : Nat) : Prop :=
  s.moves.head? = some (.busHandler p .ack) ∧ (s.busAt p).enabled .ack = true ∧ (s.busAt p).busBusy = false

/-- The step named next services the MSTOP of an idle bus engine that stray events have walked to `STOP_END`: it releases a block that no
start of that engine took (log entry 25). -/
def State.StopWhileIdle (s : State) : Prop :=
  ∃ p, s.moves.head? = some (.busHandler p .mstop) ∧ (s.busAt p).busBusy = false ∧ (s.busAt p).busState = .stopEnd

/-- The commands by which a caller can release an engine's block (rule R38 item 6, 70_reset_and_hazards.md rule R166). -/
def releasingCommands (c : Params) : List Instr :=
  [.arbOpen, .arbUnblock (BitVec.ofNat 8 c.serDepth), .arbUnblock (BitVec.ofNat 8 c.busDepth)]

/-- The step named next is one of those commands, in either context. -/
def State.CallerReleases (s : State) : Prop :=
  ∃ c i rest, s.moves.head? = some (.command c) ∧ decode s.cfg.evtW (s.portWords c) = .ok (i, rest) ∧ i ∈ releasingCommands s.cfg

/-- How many busy engines have a block of depth `d` from their start (42_bus_master.md rule R94, 43_serial_tx.md rule R112). -/
def State.blocksOwed (s : State) (d : Nat) : Nat :=
  (if d = s.cfg.busDepth then s.bus.countP (fun u => u.busBusy) else 0)
    + (if d = s.cfg.serDepth then s.ser.countP (fun u => u.serBusy) else 0)

/-- Every busy engine's block is still counted: rule R38 item 6, in the form the steps keep with several instances or one shared depth. -/
abbrev State.BlocksHeld (s : State) : Prop := ∀ d, d < s.cfg.nDepth → s.blocksOwed d ≤ (s.cntAt d).toNat

/-- A state right after reset (70_reset_and_hazards.md rule R159): its values on every element, any value on the four that are unspecified
there, and whatever stands in host memory and at the ports. -/
abbrev State.AfterReset (s : State) : Prop :=
  s = { State.resetOf s.cfg with
      bus := s.bus, ser := s.ser, queue := s.queue, dmem := s.dmem, fgPort := s.fgPort, irqPort := s.irqPort, evtPort := s.evtPort
      hostStores := s.hostStores, moves := s.moves }
    ∧ s.ShapeOk ∧ Memory.wf s.dmem = true
    ∧ (∀ u ∈ s.bus, u = { BusUnit.reset with bautoack := u.bautoack })
    ∧ (∀ u ∈ s.ser, u = { SerUnit.reset s.cfg with txbuf := u.txbuf })
    ∧ (∀ u ∈ s.queue, u = { QueueUnit.reset s.cfg with qbuf := u.qbuf, diagbuf := u.diagbuf })

/-- The commands of the boot sequence, in order (70_reset_and_hazards.md rule R160). -/
def bootCommands (c : Params) : List Instr :=
  [.schedOpen, .arbOpen] ++ (List.range c.nSer).map (fun q => .qOpen (BitVec.ofNat 4 q))
    ++ (List.range c.nBus).map (fun p => .busReset (BitVec.ofNat 4 p))

/-- The words of the boot sequence at the `FG` port. -/
def bootWords (c : Params) : List Word := (bootCommands c).flatMap encode

/-- The actions of the boot sequence (70_reset_and_hazards.md rule R161). -/
def bootActions (c : Params) : List Action :=
  (List.range c.nBus).flatMap fun p => [.busAbort p, .busCleartx p, .busStart p, .busStop p]

/-- The event a state waits for in the boot: the MSTOP that completes the held `BUS.RESET` (60_exceptions.md rule R157). -/
def State.bootEvent (s : State) : Option Word :=
  match s.fgHeld with
  | .busReset p => if s.busResetDone p then none else some (encodeEvent (.busMstop (BitVec.ofNat 4 p)))
  | .serStart _ _ => none
  | .none => none

/-- The boot admits the step named next: no command but those of the `FG` port (rule R160), no event but the one waited for (rule R157). -/
def State.bootAdmits (s : State) : Bool :=
  match s.moves with
  | .command .irq :: _ => false
  | .event :: _ => decide (s.evtPort = []) || decide (s.evtPort.head? = s.bootEvent)
  | _ => true

/-- The state after `n` steps that the boot admits, if none of them stops. -/
def State.bootRun : Nat → State → Option State
  | 0, s => some s
  | n + 1, s =>
    if s.bootAdmits then
      match step s with
      | .next t => t.bootRun n
      | .fault _ => none
      | .refused _ => none
    else none

/-- The premise "no fault recorded" (60_exceptions.md rule R157). -/
abbrev State.NoFaultRecorded (s : State) : Prop := s.faultCode = .noFault

/-- The premise "clean entry" (rule R157): the boot sequence has run to completion from a state right after reset, without a fault and with
no event but the MSTOP that completes each `BUS.RESET`; what is left at the `FG` port is what the host issues next (log entry 24). -/
def State.CleanEntry (s : State) : Prop :=
  ∃ (start : State) (n : Nat), start.cfg.legal = true ∧ start.AfterReset ∧ start.fgPort = bootWords start.cfg ++ s.fgPort
    ∧ start.bootRun n = some s ∧ s.fgHeld = .none ∧ s.NoFaultRecorded

/-- The used bytes of a queue, from its read index (44_framed_queue.md rule R122). -/
def QueueUnit.usedBytes (cap : Nat) (u : QueueUnit) : List Byte :=
  (List.range ((u.qwr + (cap - u.qrd)) % cap)).map fun i => u.qbuf.getD ((u.qrd + i) % cap) 0#8

/-- The queue holds exactly the frames of these payloads, the oldest first (rules R121 and R128). -/
abbrev QueueUnit.Holds (cap : Nat) (u : QueueUnit) (payloads : List (List Byte)) : Prop :=
  u.usedBytes cap = payloads.flatMap frame ∧ ∀ pay ∈ payloads, pay.length ≤ 254

end Sys2Proof.Machine
end

