-- ==== Sys2Proof/Certificates/Slice0/Obligations.lean ====
section
/-! DEFINITION. The statements for the provers. Each docstring names the rule of spec/ it rests on. A statement about every state takes
as premises only what `State.Inv` says, which `StepKeepsTheInvariant` states of every step. -/

open Sys2Proof Sys2Proof.Machine

/-! Encoding -/

/-- Decoding the words of a well-formed command gives it back, with the words after it, for every command and every operand (30_encoding.md
R58 to R63). -/
def Obligations.DecodeReadsBackEncode : Prop :=
  ∀ (evtW : Nat) (i : Instr) (rest : List Word), i.wellFormed evtW = true → decode evtW (encode i ++ rest) = .ok (i, rest)

/-- What decodes is well formed and its words are those of its encoding: each word has one meaning (30_encoding.md R58 to R64). -/
def Obligations.EncodeReadsBackDecode : Prop :=
  ∀ (evtW : Nat) (ws rest : List Word) (i : Instr), decode evtW ws = .ok (i, rest) → i.wellFormed evtW = true ∧ ws = encode i ++ rest

/-- A header selects a row exactly when `h & mask = match`, and the length of a command follows from its header alone, 1 for an illegal
header (30_encoding.md R62, R63). -/
def Obligations.HeaderGivesRowAndLength : Prop :=
  (∀ (h : Word) (o : Opcode), Opcode.ofHeader h = .ok o ↔ h &&& o.maskWord = o.matchWord)
    ∧ (∀ (evtW : Nat) (h : Word) (ws rest : List Word) (i : Instr),
      decode evtW (h :: ws) = .ok (i, rest) → (h :: ws).length = commandWords h + rest.length)
    ∧ ∀ h : Word, (∀ o : Opcode, h &&& o.maskWord ≠ o.matchWord) → commandWords h = 1

/-- The encoded examples of 30_encoding.md R72 decode to the commands they stand for. -/
def Obligations.ExampleWordsDecode : Prop :=
  decode 32 [0x01000000#32, 0x00000005#32] = .ok (.schedPost 0x5#32, [])
    ∧ decode 32 [0x11000003#32] = .ok (.arbBlock 3#8, [])
    ∧ decode 32 [0x2002C0E3#32, 0x20000100#32, 0x00000001#32] = .ok (.busStart 0#4 0x40#7 0xE3#8 .read 2#4 0x20000100#32 0x1#32, [])
    ∧ decode 32 [0x30000002#32, 0x00006968#32] = .ok (.serStart 0#4 [0x68#8, 0x69#8], [])
    ∧ decode 32 [0x41000005#32, 0x6C6C6568#32, 0x0000006F#32] = .ok (.qPush 0#4 [0x68#8, 0x65#8, 0x6C#8, 0x6C#8, 0x6F#8], [])
    ∧ decode 32 [0x42000001#32] = .ok (.qPop 0#4 true, [])
    ∧ decodeEvent Params.vectorDefault 0x220000AB#32 = some (.busRx 0#4 0xAB#8)

/-- The event words are exactly the encodings of the machine's events (30_encoding.md R67). -/
def Obligations.EventWordsReadBack : Prop :=
  ∀ (c : Params) (w : Word) (e : Event), decodeEvent c w = some e ↔ e.inRange c = true ∧ encodeEvent e = w

/-- Words at an open port that are no legal command, and do not merely lack operand words, raise ILLEGAL_COMMAND with their header and
change nothing else of the CORE (30_encoding.md R64, 60_exceptions.md R132). -/
def Obligations.IllegalWordsRaiseIllegalCommand : Prop :=
  ∀ (s : State) (c : Ctx) (ms : List Move) (h : Word) (ws : List Word) (e : DecodeError),
    s.faultCode = .noFault → s.moves = .command c :: ms → s.accepts c = true → s.portWords c = h :: ws →
    decode s.cfg.evtW (h :: ws) = .error e → e ≠ .incomplete →
    step s = .next ({ s with moves := ms }.withFault .illegalCommand 15#4 0#4 h)

/-! The step -/

/-- When the words at an open port decode to a command, the step is `exec` of that command, on the state with the move and the words taken
and the tag of the port (00_scope.md R11 (a), R12, R13). The list of moves and the words at the ports are the model's data (log entries 2
and 4). -/
def Obligations.StepRunsTheDecodedCommand : Prop :=
  ∀ (s : State) (c : Ctx) (ms : List Move) (i : Instr) (rest : List Word),
    s.faultCode = .noFault → s.moves = .command c :: ms → (c = .fg → s.fgHeld = .none ∧ s.fgAsleep = false) →
    decode s.cfg.evtW (s.portWords c) = .ok (i, rest) →
    step s = exec i (match c with
      | .fg => { s with moves := ms, fgPort := rest, ctx := .fg }
      | .irq => { s with moves := ms, irqPort := rest, ctx := .irq })

/-- The step is the one the first move names, with that move taken; while a command is held or the foreground sleeps the `FG` port takes
nothing; with no move left the machine rests (00_scope.md R11, R13, R14, 41_arbiter.md R88). The order of moves is the model's data
(log entry 2). -/
def Obligations.StepTakesTheNamedMove : Prop :=
  ∀ (s : State) (ms : List Move), s.faultCode = .noFault →
    (s.moves = [] → step s = .next s)
    ∧ (s.moves = .event :: ms → step s = eventStep { s with moves := ms })
    ∧ (∀ p k, s.moves = .busHandler p k :: ms → step s = busHandler p k { s with moves := ms })
    ∧ (∀ p k, s.moves = .serHandler p k :: ms → step s = serHandler p k { s with moves := ms })
    ∧ (s.moves = .completion :: ms → step s = .next (completionStep { s with moves := ms }))
    ∧ (s.moves = .command .fg :: ms → s.fgHeld ≠ .none ∨ s.fgAsleep = true → step s = .next { s with moves := ms })

/-- A CORE whose fault code is not 0 takes no step, whatever is named next, and its state does not end a run (00_scope.md R15). -/
def Obligations.HaltedCoreTakesNoStep : Prop :=
  ∀ s : State, s.faultCode ≠ .noFault → step s = .fault .halted ∧ s.quiescent = false

/-- A foreground-only command from interrupt context raises CONTEXT; otherwise a command for an instance the machine lacks raises
OPERAND_RANGE; both with the header's unit and instance, whatever the command's own checks would say (60_exceptions.md R132, R137,
30_encoding.md R65). -/
def Obligations.ContextThenInstanceFaults : Prop :=
  ∀ (i : Instr) (s : State),
    (s.ctx = .irq → i.opcode ∈ foregroundOnly →
      exec i s = .next (s.withFault .context (unitOf i.header) (instOf i.header) i.header))
    ∧ ((s.ctx = .irq → i.opcode ∉ foregroundOnly) →
        (unitOf i.header = 2#4 ∧ s.cfg.nBus ≤ (instOf i.header).toNat
          ∨ (unitOf i.header = 3#4 ∨ unitOf i.header = 4#4) ∧ s.cfg.nSer ≤ (instOf i.header).toNat) →
        exec i s = .next (s.withFault .operandRange (unitOf i.header) (instOf i.header) i.header))

/-- Every fault is precise: a step that raises one changes nothing of the CORE but the fault register. The model's own move, port words and
context tag are taken as by any step (00_scope.md R19). -/
def Obligations.RaisedFaultIsPrecise : Prop :=
  ∀ s t : State, step s = .next t → t.faultCode ≠ .noFault →
    t = { s with
      faultCode := t.faultCode, faultUnit := t.faultUnit, faultInst := t.faultInst, faultInfo := t.faultInfo
      moves := s.moves.tail, fgPort := t.fgPort, irqPort := t.irqPort, ctx := t.ctx }

/-! Opening the units -/

/-- SCHED.OPEN clears the pending set, ARB.OPEN every counter, Q.OPEN the queue's indices and captured length; each changes nothing else and
responds 0 (40_scheduler.md R74, 41_arbiter.md R81, 44_framed_queue.md R123). -/
def Obligations.OpenCommandsEmptyTheirUnit : Prop :=
  ∀ s : State, s.ctx = .fg → s.ShapeOk →
    exec .schedOpen s = .next ({ s with pending := 0#32 }.completed 0#32)
    ∧ exec .arbOpen s = .next ({ s with cnt := List.replicate s.cfg.nDepth 0#8 }.completed 0#32)
    ∧ ∀ q : BitVec 4, q.toNat < s.cfg.nSer → ∃ t, exec (.qOpen q) s = .next (t.completed 0#32)
        ∧ t = { s with queue := t.queue } ∧ s.OtherQueuesKept t q.toNat
        ∧ t.queueAt q.toNat = { s.queueAt q.toNat with qrd := 0, qwr := 0, diagLen := 0#16 }

/-! Queries -/

/-- SCHED.POLL responds the pending set, ARB.FLOOR the floor, BUS.BUSY and SER.BUSY the busy flag as 0 or 1, in either context; each changes
nothing else (40_scheduler.md R77, 41_arbiter.md R85, 42_bus_master.md R96, 43_serial_tx.md R113). -/
def Obligations.QueriesRespondAndChangeNothing : Prop :=
  ∀ s : State,
    exec .schedPoll s = .next (s.completed s.pending)
    ∧ exec .arbFloor s = .next (s.completed (BitVec.ofNat 32 s.floor))
    ∧ ∀ p : BitVec 4,
      (p.toNat < s.cfg.nBus → exec (.busBusy p) s = .next (s.completed (if (s.busAt p.toNat).busBusy then 1#32 else 0#32)))
      ∧ (p.toNat < s.cfg.nSer → exec (.serBusy p) s = .next (s.completed (if (s.serAt p.toNat).serBusy then 1#32 else 0#32)))

/-! The scheduler -/

/-- SCHED.POST sets the bits of its mask and no other, and changes nothing else (40_scheduler.md R75). -/
def Obligations.SchedPostSetsItsBits : Prop :=
  ∀ (s : State) (m : Word), fitsIn s.cfg.evtW m = true →
    exec (.schedPost m) s = .next ({ s with pending := s.pending ||| m }.completed 0#32)

/-- SCHED.CLEAR clears the bits of its mask and no other, and changes nothing else (40_scheduler.md R76). -/
def Obligations.SchedClearClearsItsBits : Prop :=
  ∀ (s : State) (m : Word), s.ctx = .fg → fitsIn s.cfg.evtW m = true →
    exec (.schedClear m) s = .next ({ s with pending := s.pending &&& ~~~m }.completed 0#32)

/-- Posts are idempotent and commute; a post after a clear survives and a clear after a post wins (40_scheduler.md R79). -/
def Obligations.PostsCoalesceAndCommute : Prop :=
  ∀ (s : State) (a b : Word), fitsIn s.cfg.evtW a = true → fitsIn s.cfg.evtW b = true →
    (∃ t, runCommands [.schedPost a, .schedPost b] s = .next t ∧ runCommands [.schedPost b, .schedPost a] s = .next t
      ∧ t.pending = s.pending ||| a ||| b)
    ∧ (∃ t u, runCommands [.schedPost a, .schedPost a] s = .next t ∧ runCommands [.schedPost a] s = .next u ∧ t.pending = u.pending)
    ∧ (s.ctx = .fg → ∃ t u, runCommands [.schedClear a, .schedPost a] s = .next t ∧ runCommands [.schedPost a, .schedClear a] s = .next u
      ∧ t.pending &&& a = a ∧ u.pending &&& a = 0#32)

/-! The arbiter -/

/-- ARB.BLOCK of a depth whose counter is below the bound counts one more and changes nothing else (41_arbiter.md R82). -/
def Obligations.ArbBlockCountsOneMore : Prop :=
  ∀ (s : State) (d : Byte), s.cfg.legal = true → s.ShapeOk → d.toNat < s.cfg.nDepth → (s.cntAt d.toNat).toNat < s.cfg.blockMax →
    ∃ t, exec (.arbBlock d) s = .next (t.completed 0#32) ∧ t = { s with cnt := t.cnt } ∧ s.CountsOneMore t d.toNat

/-- ARB.UNBLOCK counts one less, nothing at 0, and changes nothing else (41_arbiter.md R83). -/
def Obligations.ArbUnblockCountsOneLess : Prop :=
  ∀ (s : State) (d : Byte), s.ShapeOk → d.toNat < s.cfg.nDepth →
    ∃ t, exec (.arbUnblock d) s = .next (t.completed 0#32) ∧ t = { s with cnt := t.cnt } ∧ s.CountsOneLess t d.toNat

/-- A depth outside the array raises OPERAND_RANGE; a block at the bound raises SLEEP_OVERFLOW with the depth (41_arbiter.md R82, R83,
60_exceptions.md R132). -/
def Obligations.ArbRangeAndOverflowFaults : Prop :=
  ∀ (s : State) (d : Byte),
    (s.cfg.nDepth ≤ d.toNat →
      exec (.arbBlock d) s = .next (s.withFault .operandRange 1#4 0#4 (0x11000000#32 ||| d.setWidth 32))
      ∧ exec (.arbUnblock d) s = .next (s.withFault .operandRange 1#4 0#4 (0x12000000#32 ||| d.setWidth 32)))
    ∧ (d.toNat < s.cfg.nDepth → s.cfg.blockMax ≤ (s.cntAt d.toNat).toNat →
      exec (.arbBlock d) s = .next (s.withFault .sleepOverflow 1#4 0#4 (d.setWidth 32)))

/-- The floor is the least depth whose counter is not 0, and the deepest depth where every counter is 0 (41_arbiter.md R84). -/
def Obligations.FloorIsTheShallowestBlockedDepth : Prop :=
  ∀ s : State, s.ShapeOk →
    (∀ d, d < s.cfg.nDepth → s.cntAt d ≠ 0#8 → s.floor ≤ d ∧ s.cntAt s.floor ≠ 0#8)
    ∧ ((∀ d, d < s.cfg.nDepth → s.cntAt d = 0#8) → s.floor = s.cfg.nDepth - 1)

/-- The target is the deepest depth where every counter is 0 and else one shallower than the floor, 0 at floor 0; a target other than 0 is
never forbidden (41_arbiter.md R86, R91). -/
def Obligations.TargetIsJustAboveTheFloor : Prop :=
  ∀ s : State, s.ShapeOk →
    ((∀ d, d < s.cfg.nDepth → s.cntAt d = 0#8) → s.target = s.cfg.nDepth - 1)
    ∧ ((∃ d, d < s.cfg.nDepth ∧ s.cntAt d ≠ 0#8) → s.target = max (s.floor - 1) 0)
    ∧ (0 < s.target → ∀ d, d ≤ s.target → s.cntAt d = 0#8)

/-- ARB.ENTER responds the target; past the shallow depths it also emits CPU.SLEEP, records the depth and puts the foreground to sleep; it
changes nothing else (41_arbiter.md R87). -/
def Obligations.ArbEnterSleepsAtTheTarget : Prop :=
  ∀ s : State, s.ctx = .fg →
    exec .arbEnter s = .next (
      if s.cfg.shallowDepth < s.target then
        { s with act := s.act ++ [Action.cpuSleep s.target], fgDepth := BitVec.ofNat 8 s.target, fgAsleep := true }.completed
          (BitVec.ofNat 32 s.target)
      else s.completed (BitVec.ofNat 32 s.target))

/-- From counters all 0, a sequence of blocks and unblocks with as many unblocks as blocks of each depth, no unblock of a depth ahead of its
blocks, and no fault, leaves every counter 0 and the floor at the deepest depth (41_arbiter.md R91 item 1, which the spec derives). -/
def Obligations.BalancedBlocksLeaveNothingBlocked : Prop :=
  ∀ (s t : State) (is : List Instr), s.cfg.legal = true → s.ShapeOk → (∀ c ∈ s.cnt, c = 0#8) →
    (∀ i ∈ is, ∃ d, i = .arbBlock d ∨ i = .arbUnblock d) →
    (∀ d, is.count (.arbBlock d) = is.count (.arbUnblock d)) →
    (∀ d n, (is.take n).count (.arbUnblock d) ≤ (is.take n).count (.arbBlock d)) →
    runCommands is s = .next t → t.faultCode = .noFault →
    (∀ c ∈ t.cnt, c = 0#8) ∧ t.floor = t.cfg.nDepth - 1

/-! The bus master engine -/

/-- BUS.START of a two-byte read on an idle engine: the record, the block of the dedicated depth, and the three actions; nothing else changes,
the destination word included (42_bus_master.md R94). -/
def Obligations.BusStartBeginsATransaction : Prop :=
  ∀ (s : State) (p : BitVec 4) (addr : BitVec 7) (cmd : Byte) (dest ev : Word), s.ctx = .fg → s.cfg.legal = true → s.ShapeOk →
    p.toNat < s.cfg.nBus → (s.busAt p.toNat).busBusy = false → (s.busAt p.toNat).bpidle = true →
    dest.getLsbD 0 = false → s.cfg.admits dest 2 = true → fitsIn s.cfg.evtW ev = true →
    (s.cntAt s.cfg.busDepth).toNat < s.cfg.blockMax →
    ∃ t, exec (.busStart p addr cmd .read 2#4 dest ev) s = .next (t.completed 0#32)
      ∧ t = { s with bus := t.bus, cnt := t.cnt, act := t.act }
      ∧ t.busAt p.toNat = { s.busAt p.toNat with
          recAddr := addr, recDir := .read, recCmd := cmd, recDest := dest, recCount := 2#4, recEvt := ev
          busState := .initSendAddr, busBusy := true, bautoack := false, nackCnt := 0#32 }
      ∧ s.OtherBusesKept t p.toNat ∧ s.CountsOneMore t s.cfg.busDepth
      ∧ t.act = s.act ++ [.busAutoackOff p.toNat, .busTxdata p.toNat (addr ++ 0#1), .busStart p.toNat]

/-- The faults of BUS.START, the first failing check reported: busy or not idle, then direction and count, then the destination, then the
block counter (42_bus_master.md R94, R95, 60_exceptions.md R132, R134). -/
def Obligations.BusStartFaultsInOrder : Prop :=
  ∀ (s : State) (p : BitVec 4) (addr : BitVec 7) (cmd : Byte) (dir : Dir) (count : BitVec 4) (dest ev : Word), s.ctx = .fg →
    p.toNat < s.cfg.nBus →
    if (s.busAt p.toNat).busBusy = true ∨ (s.busAt p.toNat).bpidle = false then
      exec (.busStart p addr cmd dir count dest ev) s
        = .next (s.withFault .busStartBusy 2#4 p (Instr.busStart p addr cmd dir count dest ev).header)
    else if dir = .write ∨ count ≠ 2#4 then
      exec (.busStart p addr cmd dir count dest ev) s
        = .next (s.withFault .unsupported 2#4 p (Instr.busStart p addr cmd dir count dest ev).header)
    else if dest.getLsbD 0 = true ∨ s.cfg.admits dest 2 = false then
      exec (.busStart p addr cmd dir count dest ev) s = .next (s.withFault .dmemAccess 2#4 p dest)
    else s.cfg.blockMax ≤ (s.cntAt s.cfg.busDepth).toNat →
      exec (.busStart p addr cmd dir count dest ev) s = .next (s.withFault .sleepOverflow 1#4 0#4 (BitVec.ofNat 32 s.cfg.busDepth))

/-- BUS.RESET saves and disables the enables, appends its four actions and holds without a response; nothing else changes
(42_bus_master.md R97). -/
def Obligations.BusResetHolds : Prop :=
  ∀ (s : State) (p : BitVec 4), s.ctx = .fg → s.ShapeOk → p.toNat < s.cfg.nBus →
    ∃ t, exec (.busReset p) s = .next t
      ∧ t = { s with
          bus := t.bus
          act := s.act ++ [.busAbort p.toNat, .busCleartx p.toNat, .busStart p.toNat, .busStop p.toNat]
          fgHeld := .busReset p.toNat }
      ∧ t.busAt p.toNat = { s.busAt p.toNat with bienSave := (s.busAt p.toNat).bien, bien := 0#4 }
      ∧ s.OtherBusesKept t p.toNat

/-- The completion step of a held BUS.RESET: nothing until the stop-complete flag is raised; then the engine is idle with every flag clear and
its enables restored, the command responds 0, and no block is released and no event posted (42_bus_master.md R98). -/
def Obligations.BusResetCompletes : Prop :=
  ∀ (s : State) (p : Nat) (ms : List Move), s.faultCode = .noFault → s.moves = .completion :: ms → s.fgHeld = .busReset p →
    p < s.bus.length →
    ((s.busAt p).bifReg.getLsbD 3 = false → step s = .next { s with moves := ms })
    ∧ ((s.busAt p).bifReg.getLsbD 3 = true →
      step s = .next { s with
        moves := ms, fgHeld := .none, resp := s.resp ++ [⟨.fg, 0#32⟩]
        bus := s.bus.set p { s.busAt p with
          bifReg := 0#4, busBusy := false, busState := .initSendAddr, bien := (s.busAt p).bienSave } })

/-- The three acknowledge transitions (42_bus_master.md R99, R100, R101, R103). -/
def Obligations.BusAckTransitions : Prop :=
  ∀ (s : State) (p : Nat), p < s.bus.length → (s.busAt p).bifReg.getLsbD 0 = true → (s.busAt p).bien.getLsbD 0 = true →
    ((s.busAt p).busState = .initSendAddr →
      busHandler p .ack s = .next (s.afterBusHandler p
        { s.busAt p with bifReg := (s.busAt p).bifReg &&& 0b1110#4, busState := .sendCommand } [.busTxdata p (s.busAt p).recCmd]))
    ∧ ((s.busAt p).busState = .sendCommand →
      busHandler p .ack s = .next (s.afterBusHandler p
        { s.busAt p with bifReg := (s.busAt p).bifReg &&& 0b1110#4, busState := .sendRptStartAddr }
        [.busStart p, .busTxdata p ((s.busAt p).recAddr ++ 1#1)]))
    ∧ ((s.busAt p).busState = .sendRptStartAddr →
      busHandler p .ack s = .next (s.afterBusHandler p
        { s.busAt p with
          bifReg := (s.busAt p).bifReg &&& 0b1110#4, bien := (s.busAt p).bien ||| 0b0100#4, busState := .readMsByte } []))

/-- A refused repeated START is retried without a change of state, counted with saturation; with a finite limit reached it raises
BUS_RETRY_EXHAUSTED (42_bus_master.md R102). -/
def Obligations.BusNackRetriesTheRepeatedStart : Prop :=
  ∀ (s : State) (p : Nat), p < s.bus.length → (s.busAt p).bifReg.getLsbD 1 = true → (s.busAt p).bien.getLsbD 1 = true →
    (s.busAt p).busState = .sendRptStartAddr →
    ((∀ n, s.cfg.rptNackLimit = some n → (s.busAt p).nackCnt.toNat < n) →
      ∃ c : Word, c.toNat = min ((s.busAt p).nackCnt.toNat + 1) (2 ^ 32 - 1)
        ∧ busHandler p .nack s = .next (s.afterBusHandler p
            { s.busAt p with bifReg := (s.busAt p).bifReg &&& 0b1101#4, nackCnt := c }
            [.busStart p, .busTxdata p ((s.busAt p).recAddr ++ 1#1)]))
    ∧ (∀ n, s.cfg.rptNackLimit = some n → n ≤ (s.busAt p).nackCnt.toNat →
      busHandler p .nack s = .next (s.withFault .busRetryExhausted 2#4 (BitVec.ofNat 4 p) (s.busAt p).nackCnt))

/-- The first data byte replaces the destination word, low byte 0; the second is ORed into its low byte; every other byte of host memory stays
(42_bus_master.md R104, R105, 20_memory.md R40, R41, R45, R46). -/
def Obligations.BusDataBytesReachTheWord : Prop :=
  ∀ (s : State) (p : Nat), s.cfg.legal = true → Memory.wf s.dmem = true → p < s.bus.length →
    (s.busAt p).bifReg.getLsbD 2 = true → (s.busAt p).bien.getLsbD 2 = true → s.cfg.admits (s.busAt p).recDest 2 = true →
    ((s.busAt p).busState = .readMsByte →
      ∃ m, busHandler p .rxdatav s = .next { s.afterBusHandler p
            { s.busAt p with bifReg := (s.busAt p).bifReg &&& 0b1011#4, busState := .readLs } [.busAck p] with dmem := m }
        ∧ Memory.read m (s.busAt p).recDest.toNat = 0#8
        ∧ Memory.read m ((s.busAt p).recDest.toNat + 1) = (s.busAt p).brxdata
        ∧ ∀ a, a ≠ (s.busAt p).recDest.toNat → a ≠ (s.busAt p).recDest.toNat + 1 → Memory.read m a = Memory.read s.dmem a)
    ∧ ((s.busAt p).busState = .readLs →
      ∃ m, busHandler p .rxdatav s = .next { s.afterBusHandler p
            { s.busAt p with bifReg := (s.busAt p).bifReg &&& 0b1011#4, busState := .stopEnd } [.busNack p, .busStop p] with dmem := m }
        ∧ Memory.read m (s.busAt p).recDest.toNat = Memory.read s.dmem (s.busAt p).recDest.toNat ||| (s.busAt p).brxdata
        ∧ ∀ a, a ≠ (s.busAt p).recDest.toNat → Memory.read m a = Memory.read s.dmem a)

/-- The stop-complete interrupt in STOP_END ends the transaction: not busy, one block of the dedicated depth released, the completion event
posted (42_bus_master.md R106). -/
def Obligations.BusStopFinishesTheTransaction : Prop :=
  ∀ (s : State) (p : Nat), s.cfg.legal = true → s.ShapeOk → p < s.bus.length →
    (s.busAt p).bifReg.getLsbD 3 = true → (s.busAt p).bien.getLsbD 3 = true → (s.busAt p).busState = .stopEnd →
    ∃ t, busHandler p .mstop s = .next t
      ∧ t = { s.afterBusHandler p
            { s.busAt p with bifReg := (s.busAt p).bifReg &&& 0b0111#4, busBusy := false, busState := .initSendAddr } [] with
          cnt := t.cnt, pending := s.pending ||| (s.busAt p).recEvt }
      ∧ s.CountsOneLess t s.cfg.busDepth

/-- Every other pair of state and flag raises BUS_PROTOCOL, naming the flag and the state, and changes nothing else; the flag stays raised
(42_bus_master.md R99, R107, 60_exceptions.md R132). -/
def Obligations.BusProtocolFaults : Prop :=
  ∀ (s : State) (p : Nat) (k : BusFlag), (s.busAt p).bifReg.getLsbD k.bit = true → (s.busAt p).bien.getLsbD k.bit = true →
    ((s.busAt p).busState, k) ∉ busExpected →
    busHandler p k s = .next (s.withFault .busProtocol 2#4 (BitVec.ofNat 4 p)
      (BitVec.ofNat 32 (256 * k.bit + (s.busAt p).busState.code.toNat)))

/-- A read transaction whose events arrive in the expected order, with n refusals of the repeated START, each serviced as it is raised,
delivers its two bytes to the destination word, frees the engine, releases its block, posts its event and appends its actions
(42_bus_master.md R108, which the spec derives). -/
def Obligations.BusReadDeliversTheWord : Prop :=
  ∀ (s : State) (p : BitVec 4) (n : Nat) (b1 b2 : Byte), s.Inv → s.faultCode = .noFault → p.toNat < s.cfg.nBus →
    (s.busAt p.toNat).busBusy = true → (s.busAt p.toNat).busState = .initSendAddr → (s.busAt p.toNat).bifReg = 0#4 →
    (s.busAt p.toNat).bien &&& 0b1011#4 = 0b1011#4 →
    (s.busAt p.toNat).nackCnt = 0#32 → (∀ l, s.cfg.rptNackLimit = some l → n ≤ l) →
    s.evtPort = (readEvents p n b1 b2).map (fun e => encodeEvent e.1) → s.moves = busServiceMoves p.toNat (readEvents p n b1 b2) →
    ∃ t : State, Sys2Proof.core.run s.moves.length s = .next t
      ∧ t.faultCode = .noFault ∧ t.evtPort = [] ∧ t.moves = []
      ∧ Memory.read t.dmem (s.busAt p.toNat).recDest.toNat = b2
      ∧ Memory.read t.dmem ((s.busAt p.toNat).recDest.toNat + 1) = b1
      ∧ (t.busAt p.toNat).busBusy = false ∧ (t.busAt p.toNat).busState = .initSendAddr
      ∧ t.pending = s.pending ||| (s.busAt p.toNat).recEvt
      ∧ s.CountsOneLess t s.cfg.busDepth
      ∧ t.act = s.act ++ readActions p.toNat (s.busAt p.toNat).recAddr (s.busAt p.toNat).recCmd n

/-- No step ends a transaction but the stop-complete handler in STOP_END and the completion of BUS.RESET: the engine has no timeout
(42_bus_master.md R109). -/
def Obligations.OnlyStopOrResetEndsATransaction : Prop :=
  ∀ (s t : State) (p : Nat), step s = .next t → (s.busAt p).busBusy = true → (t.busAt p).busBusy = false →
    (s.moves.head? = some (.busHandler p .mstop) ∧ (s.busAt p).busState = .stopEnd)
    ∨ (s.moves.head? = some .completion ∧ s.fgHeld = .busReset p)

/-! Host memory -/

/-- No command stores to host memory: every byte reads as before (20_memory.md R39 item 1). -/
def Obligations.CommandsLeaveHostMemory : Prop :=
  ∀ (i : Instr) (s t : State), exec i s = .next t → ∀ a, Memory.read t.dmem a = Memory.read s.dmem a

/-- A step changes a byte of host memory only where the data-received handler of a bus engine in one of its two read states stores its
destination word, or the host stores that byte itself (20_memory.md R39, R47, R48; the host's stores are the model's move, log entry 15). -/
def Obligations.MemoryChangesOnlyAtTheDestination : Prop :=
  ∀ (s t : State) (a : Nat), Memory.wf s.dmem = true → step s = .next t → Memory.read t.dmem a ≠ Memory.read s.dmem a →
    (∃ p, s.moves.head? = some (.busHandler p .rxdatav)
      ∧ ((s.busAt p).busState = .readMsByte ∨ (s.busAt p).busState = .readLs)
      ∧ (a = (s.busAt p).recDest.toNat ∨ a = (s.busAt p).recDest.toNat + 1))
    ∨ (s.moves.head? = some .hostStore ∧ s.hostStores.head? = some (a, Memory.read t.dmem a) ∧ s.inFlight a = false)

/-- A handler step of a busy bus engine never stops the machine: its destination was checked at its start (20_memory.md R44). -/
def Obligations.BusyEngineNeverStopsOnMemory : Prop :=
  ∀ (s : State) (p : Nat) (k : BusFlag), s.Inv → (s.busAt p).busBusy = true → ∃ t, busHandler p k s = .next t

/-! The serial transmit engine -/

/-- SER.START of a payload the buffer takes, on an idle engine: the copy, the block of the dedicated depth, the transmitter and its interrupt
enabled; nothing else changes (43_serial_tx.md R111, R112). -/
def Obligations.SerStartBeginsATransmission : Prop :=
  ∀ (s : State) (p : BitVec 4) (bytes : List Byte), s.ctx = .fg → s.cfg.legal = true → s.ShapeOk → p.toNat < s.cfg.nSer →
    (s.serAt p.toNat).serBusy = false → 1 ≤ bytes.length → bytes.length ≤ s.cfg.txCap →
    (s.cntAt s.cfg.serDepth).toNat < s.cfg.blockMax →
    ∃ t, exec (.serStart p bytes) s = .next (t.completed 0#32)
      ∧ t = { s with ser := t.ser, cnt := t.cnt, act := s.act ++ [.serTxen p.toNat], fgHeld := .none }
      ∧ t.serAt p.toNat = { s.serAt p.toNat with
          txbuf := bytes ++ (s.serAt p.toNat).txbuf.drop bytes.length, txLen := BitVec.ofNat 16 bytes.length, txIdx := 0#16
          serState := .init, serBusy := true, stxen := true, sien := (s.serAt p.toNat).sien ||| 0b01#2 }
      ∧ s.OtherSersKept t p.toNat ∧ s.CountsOneMore t s.cfg.serDepth

/-- SER.START of a payload the buffer cannot take raises TX_LENGTH; on a busy engine it is held, with no response and no other change; on an
idle engine with the depth's counter at its bound it raises SLEEP_OVERFLOW (43_serial_tx.md R111, R112, 60_exceptions.md R132). -/
def Obligations.SerStartWaitsOrFaults : Prop :=
  ∀ (s : State) (p : BitVec 4) (bytes : List Byte), s.ctx = .fg → p.toNat < s.cfg.nSer →
    if bytes.length = 0 ∨ s.cfg.txCap < bytes.length then
      exec (.serStart p bytes) s = .next (s.withFault .txLength 3#4 p (BitVec.ofNat 32 bytes.length))
    else if (s.serAt p.toNat).serBusy = true then exec (.serStart p bytes) s = .next { s with fgHeld := .serStart p.toNat bytes }
    else s.cfg.blockMax ≤ (s.cntAt s.cfg.serDepth).toNat →
      exec (.serStart p bytes) s = .next (s.withFault .sleepOverflow 1#4 0#4 (BitVec.ofNat 32 s.cfg.serDepth))

/-- The completion step of a held SER.START: nothing while its engine is busy; then the effects of the start and the response 0, or
SLEEP_OVERFLOW with the command still held (43_serial_tx.md R112). -/
def Obligations.HeldSerStartTakesEffect : Prop :=
  ∀ (s : State) (p : Nat) (bytes : List Byte) (ms : List Move), s.faultCode = .noFault → s.moves = .completion :: ms →
    s.fgHeld = .serStart p bytes → s.cfg.legal = true → s.ShapeOk → p < s.cfg.nSer →
    ((s.serAt p).serBusy = true → step s = .next { s with moves := ms })
    ∧ ((s.serAt p).serBusy = false → s.cfg.blockMax ≤ (s.cntAt s.cfg.serDepth).toNat →
      step s = .next ({ s with moves := ms }.withFault .sleepOverflow 1#4 0#4 (BitVec.ofNat 32 s.cfg.serDepth)))
    ∧ ((s.serAt p).serBusy = false → (s.cntAt s.cfg.serDepth).toNat < s.cfg.blockMax →
      ∃ t, step s = .next t
        ∧ t = { s with
            moves := ms, ser := t.ser, cnt := t.cnt, act := s.act ++ [.serTxen p], fgHeld := .none
            resp := s.resp ++ [⟨.fg, 0#32⟩] }
        ∧ t.serAt p = { s.serAt p with
            txbuf := bytes ++ (s.serAt p).txbuf.drop bytes.length, txLen := BitVec.ofNat 16 bytes.length, txIdx := 0#16
            serState := .init, serBusy := true, stxen := true, sien := (s.serAt p).sien ||| 0b01#2 }
        ∧ s.OtherSersKept t p ∧ s.CountsOneMore t s.cfg.serDepth)

/-- The three transitions of the serial engine: the first buffer-empty interrupt arms, the next ones send a byte each, the last byte swaps the
enables, and transmit-complete ends the transmission (43_serial_tx.md R114 to R117). -/
def Obligations.SerHandlerTransitions : Prop :=
  ∀ (s : State) (p : Nat), s.cfg.legal = true → s.ShapeOk → p < s.ser.length →
    ((s.serAt p).sifReg.getLsbD 0 = true → (s.serAt p).sien.getLsbD 0 = true →
      ((s.serAt p).serState = .init →
        serHandler p .txbl s = .next (s.afterSerHandler p
          { s.serAt p with sifReg := (s.serAt p).sifReg &&& 0b10#2, serState := .sendData } []))
      ∧ ((s.serAt p).serState = .sendData → (s.serAt p).txIdx + 1#16 ≠ (s.serAt p).txLen →
        serHandler p .txbl s = .next (s.afterSerHandler p
          { s.serAt p with sifReg := (s.serAt p).sifReg &&& 0b10#2, txIdx := (s.serAt p).txIdx + 1#16 }
          [.serTxdata p ((s.serAt p).txbuf.getD (s.serAt p).txIdx.toNat 0#8)]))
      ∧ ((s.serAt p).serState = .sendData → (s.serAt p).txIdx + 1#16 = (s.serAt p).txLen →
        serHandler p .txbl s = .next (s.afterSerHandler p
          { s.serAt p with
            sifReg := (s.serAt p).sifReg &&& 0b10#2, txIdx := (s.serAt p).txIdx + 1#16, sien := 0b10#2, serState := .stopClose }
          [.serTxdata p ((s.serAt p).txbuf.getD (s.serAt p).txIdx.toNat 0#8)])))
    ∧ ((s.serAt p).sifReg.getLsbD 1 = true → (s.serAt p).sien.getLsbD 1 = true → (s.serAt p).serState = .stopClose →
      ∃ t, serHandler p .txc s = .next t
        ∧ t = { s.afterSerHandler p
              { s.serAt p with
                sifReg := (s.serAt p).sifReg &&& 0b01#2, stxen := false, serBusy := false, serState := .init } [.serTxdis p] with
            cnt := t.cnt, pending := s.pending ||| s.cfg.evtTxDone.getD p 0#32 }
        ∧ s.CountsOneLess t s.cfg.serDepth)

/-- Every other pair of state and flag raises SER_PROTOCOL, naming the flag and the state, and changes nothing else (43_serial_tx.md R114,
R118, 60_exceptions.md R132). -/
def Obligations.SerProtocolFaults : Prop :=
  ∀ (s : State) (p : Nat) (k : SerFlag), (s.serAt p).sifReg.getLsbD k.bit = true → (s.serAt p).sien.getLsbD k.bit = true →
    ((s.serAt p).serState, k) ∉ serExpected →
    serHandler p k s = .next (s.withFault .serProtocol 3#4 (BitVec.ofNat 4 p)
      (BitVec.ofNat 32 (256 * k.bit + (s.serAt p).serState.code.toNat)))

/-- A transmission of L bytes that has just begun, with L + 1 buffer-empty interrupts and one transmit-complete, each serviced as it is raised,
writes exactly its bytes, in order, disables the transmitter, releases its block and posts its event (43_serial_tx.md R119, which the
spec derives). -/
def Obligations.TransmissionSendsItsBytes : Prop :=
  ∀ (s : State) (p : BitVec 4) (bytes : List Byte), s.Inv → s.faultCode = .noFault → p.toNat < s.cfg.nSer →
    (s.serAt p.toNat).serBusy = true → (s.serAt p.toNat).serState = .init → (s.serAt p.toNat).sifReg = 0#2 →
    (s.serAt p.toNat).sien.getLsbD 0 = true →
    (s.serAt p.toNat).txLen.toNat = bytes.length → (s.serAt p.toNat).txbuf.take bytes.length = bytes →
    s.evtPort = (transmitEvents p bytes.length).map (fun e => encodeEvent e.1) →
    s.moves = serServiceMoves p.toNat (transmitEvents p bytes.length) →
    ∃ t : State, Sys2Proof.core.run s.moves.length s = .next t
      ∧ t.faultCode = .noFault ∧ t.evtPort = [] ∧ t.moves = []
      ∧ t.act = s.act ++ bytes.map (Action.serTxdata p.toNat) ++ [.serTxdis p.toNat]
      ∧ (t.serAt p.toNat).serBusy = false ∧ (t.serAt p.toNat).serState = .init ∧ (t.serAt p.toNat).stxen = false
      ∧ t.pending = s.pending ||| s.cfg.evtTxDone.getD p.toNat 0#32
      ∧ s.CountsOneLess t s.cfg.serDepth

/-- No step ends a transmission but the transmit-complete handler in STOP_CLOSE (43_serial_tx.md R117, 60_exceptions.md R136). -/
def Obligations.OnlyTransmitCompleteEndsATransmission : Prop :=
  ∀ (s t : State) (p : Nat), step s = .next t → (s.serAt p).serBusy = true → (t.serAt p).serBusy = false →
    s.moves.head? = some (.serHandler p .txc) ∧ (s.serAt p).serState = .stopClose

/-! The framed output queue -/

/-- Q.PUSH of a payload that fits writes the length byte n + 1 and the payload from the write index, modulo the capacity, and advances the write
index past them; every other ring byte, the read index and the capture stay (44_framed_queue.md R121, R124). -/
def Obligations.QPushWritesTheFrame : Prop :=
  ∀ (s : State) (q : BitVec 4) (pay : List Byte), s.ctx = .fg → s.cfg.legal = true → s.ShapeOk → s.IndicesInRange → q.toNat < s.cfg.nSer →
    pay.length ≤ 254 → pay.length + 1 ≤ s.free q.toNat →
    ∃ t, exec (.qPush q pay) s = .next (t.completed 0#32)
      ∧ t = { s with queue := t.queue } ∧ s.OtherQueuesKept t q.toNat
      ∧ t.queueAt q.toNat = { s.queueAt q.toNat with
          qbuf := (t.queueAt q.toNat).qbuf, qwr := ((s.queueAt q.toNat).qwr + pay.length + 1) % s.cfg.qcap }
      ∧ (t.queueAt q.toNat).qbuf.length = s.cfg.qcap
      ∧ (∀ i, i ≤ pay.length →
          (t.queueAt q.toNat).qbuf.getD (((s.queueAt q.toNat).qwr + i) % s.cfg.qcap) 0#8
            = (BitVec.ofNat 8 (pay.length + 1) :: pay).getD i 0#8)
      ∧ (∀ i, pay.length < i → i < s.cfg.qcap →
          (t.queueAt q.toNat).qbuf.getD (((s.queueAt q.toNat).qwr + i) % s.cfg.qcap) 0#8
            = (s.queueAt q.toNat).qbuf.getD (((s.queueAt q.toNat).qwr + i) % s.cfg.qcap) 0#8)

/-- A push that fills the ring exactly is accepted and leaves a queue that reads as empty: Q.FREE responds the capacity and Q.POP pops nothing
(44_framed_queue.md R127, which the spec derives). -/
def Obligations.ExactFillReadsAsEmpty : Prop :=
  ∀ (s : State) (q : BitVec 4) (pay : List Byte), s.ctx = .fg → s.Inv → q.toNat < s.cfg.nSer → pay.length ≤ 254 →
    pay.length + 1 = s.free q.toNat →
    ∃ t, exec (.qPush q pay) s = .next t ∧ t.free q.toNat = t.cfg.qcap
      ∧ exec (.qFree q) t = .next (t.completed (BitVec.ofNat 32 t.cfg.qcap))
      ∧ (∀ diag, exec (.qPop q diag) t = .next (t.completed 0#32))

/-- Q.POP pops nothing, responding 0 with no other effect, while its serial engine is busy or the queue reads as empty, in both modes
(44_framed_queue.md R125). -/
def Obligations.QPopOfNothingChangesNothing : Prop :=
  ∀ (s : State) (q : BitVec 4) (diag : Bool), s.ctx = .fg → q.toNat < s.cfg.nSer →
    (s.serAt q.toNat).serBusy = true ∨ s.free q.toNat = s.cfg.qcap → exec (.qPop q diag) s = .next (s.completed 0#32)

/-- A diagnostic Q.POP of a queue that holds a frame captures its payload, removes the frame, responds 1 and changes nothing else
(44_framed_queue.md R125, R128 item 1). -/
def Obligations.DiagnosticPopCapturesTheOldestFrame : Prop :=
  ∀ (s : State) (q : BitVec 4) (pay : List Byte) (rest : List (List Byte)), s.ctx = .fg → s.Inv → q.toNat < s.cfg.nSer →
    (s.serAt q.toNat).serBusy = false → (s.queueAt q.toNat).Holds s.cfg.qcap (pay :: rest) → pay.length ≤ s.cfg.diagCap →
    ∃ t, exec (.qPop q true) s = .next (t.completed 1#32)
      ∧ t = { s with queue := t.queue } ∧ s.OtherQueuesKept t q.toNat
      ∧ t.queueAt q.toNat = { s.queueAt q.toNat with
          qrd := ((s.queueAt q.toNat).qrd + pay.length + 1) % s.cfg.qcap
          diagbuf := pay ++ (s.queueAt q.toNat).diagbuf.drop pay.length, diagLen := BitVec.ofNat 16 pay.length }
      ∧ (t.queueAt q.toNat).Holds s.cfg.qcap rest

/-- A normal Q.POP of a queue that holds a frame the serial engine takes removes the frame, starts its transmission, responds 1 and changes
nothing else (44_framed_queue.md R125, 43_serial_tx.md R112). -/
def Obligations.NormalPopTransmitsTheOldestFrame : Prop :=
  ∀ (s : State) (q : BitVec 4) (pay : List Byte) (rest : List (List Byte)), s.ctx = .fg → s.Inv → q.toNat < s.cfg.nSer →
    (s.serAt q.toNat).serBusy = false → (s.queueAt q.toNat).Holds s.cfg.qcap (pay :: rest) → 1 ≤ pay.length →
    pay.length ≤ s.cfg.txCap → (s.cntAt s.cfg.serDepth).toNat < s.cfg.blockMax →
    ∃ t, exec (.qPop q false) s = .next (t.completed 1#32)
      ∧ t = { s with
          queue := t.queue, ser := t.ser, cnt := t.cnt, act := s.act ++ [.serTxen q.toNat], fgHeld := .none }
      ∧ s.OtherQueuesKept t q.toNat ∧ s.OtherSersKept t q.toNat ∧ s.CountsOneMore t s.cfg.serDepth
      ∧ t.queueAt q.toNat = { s.queueAt q.toNat with qrd := ((s.queueAt q.toNat).qrd + pay.length + 1) % s.cfg.qcap }
      ∧ (t.queueAt q.toNat).Holds s.cfg.qcap rest
      ∧ t.serAt q.toNat = { s.serAt q.toNat with
          txbuf := pay ++ (s.serAt q.toNat).txbuf.drop pay.length, txLen := BitVec.ofNat 16 pay.length, txIdx := 0#16
          serState := .init, serBusy := true, stxen := true, sien := (s.serAt q.toNat).sien ||| 0b01#2 }

/-- The faults of Q.PUSH, of a Q.POP whose length byte is 0 or passes the used bytes, and of a Q.POP that finds the frame `pay`, each before
any effect (44_framed_queue.md R124, R125, 60_exceptions.md R132). -/
def Obligations.QueueFaults : Prop :=
  ∀ (s : State) (q : BitVec 4) (pay : List Byte), s.ctx = .fg → q.toNat < s.cfg.nSer →
    (254 < pay.length → exec (.qPush q pay) s = .next (s.withFault .frameLength 4#4 q (BitVec.ofNat 32 pay.length)))
    ∧ (pay.length ≤ 254 → s.free q.toNat < pay.length + 1 →
      exec (.qPush q pay) s = .next (s.withFault .queueOverflow 4#4 q (BitVec.ofNat 32 pay.length)))
    ∧ (∀ diag lb, (s.serAt q.toNat).serBusy = false → s.free q.toNat ≠ s.cfg.qcap →
      lb = (s.queueAt q.toNat).qbuf.getD (s.queueAt q.toNat).qrd 0#8 → (lb = 0#8 ∨ s.cfg.qcap < s.free q.toNat + lb.toNat) →
      exec (.qPop q diag) s = .next (s.withFault .corruptFrame 4#4 q (lb.setWidth 32)))
    ∧ (s.Inv → (s.serAt q.toNat).serBusy = false → (∃ rest, (s.queueAt q.toNat).Holds s.cfg.qcap (pay :: rest)) →
      (s.cfg.diagCap < pay.length →
        exec (.qPop q true) s = .next (s.withFault .diagOverflow 4#4 q (BitVec.ofNat 32 pay.length)))
      ∧ (pay.length = 0 ∨ s.cfg.txCap < pay.length →
        exec (.qPop q false) s = .next (s.withFault .txLength 4#4 q (BitVec.ofNat 32 pay.length)))
      ∧ (1 ≤ pay.length → pay.length ≤ s.cfg.txCap → s.cfg.blockMax ≤ (s.cntAt s.cfg.serDepth).toNat →
        exec (.qPop q false) s = .next (s.withFault .sleepOverflow 1#4 0#4 (BitVec.ofNat 32 s.cfg.serDepth))))

/-- Q.FREE responds the capacity less the used bytes, the difference of the indices modulo the capacity, from 1 to the capacity, and changes
nothing else (44_framed_queue.md R122, R126). -/
def Obligations.QFreeRespondsTheFreeSpace : Prop :=
  ∀ (s : State) (q : BitVec 4), s.cfg.legal = true → s.ShapeOk → s.IndicesInRange → q.toNat < s.cfg.nSer →
    ∃ n, exec (.qFree q) s = .next (s.completed (BitVec.ofNat 32 n)) ∧ 1 ≤ n ∧ n ≤ s.cfg.qcap
      ∧ ((s.cfg.qcap - n : Nat) : Int) = (((s.queueAt q.toNat).qwr : Int) - (s.queueAt q.toNat).qrd) % s.cfg.qcap

/-- A push onto a queue that keeps room to spare adds its payload behind the ones held: the ring is a first-in first-out list of payloads
(44_framed_queue.md R128, which the spec derives). -/
def Obligations.PushAppendsToTheHeldPayloads : Prop :=
  ∀ (s t : State) (q : BitVec 4) (pay : List Byte) (held : List (List Byte)), s.Inv → s.ctx = .fg → q.toNat < s.cfg.nSer →
    (s.queueAt q.toNat).Holds s.cfg.qcap held → pay.length ≤ 254 → pay.length + 1 < s.free q.toNat →
    exec (.qPush q pay) s = .next t → (t.queueAt q.toNat).Holds s.cfg.qcap (held ++ [pay])

/-! Interrupts, sleep and the traces -/

/-- An event step applies the event's effect and nothing else: it takes the word and the move, raises or delivers, runs no handler, wakes nothing
(30_encoding.md R67, R68). -/
def Obligations.EventStepAppliesItsEvent : Prop :=
  ∀ (s : State) (w : Word) (ws : List Word) (ms : List Move) (e : Event), s.faultCode = .noFault → s.moves = .event :: ms →
    s.evtPort = w :: ws → decodeEvent s.cfg w = some e →
    step s = .next { s with
      moves := ms
      evtPort := ws
      bus := match e with
        | .busAck p => s.bus.set p.toNat { s.busAt p.toNat with bifReg := (s.busAt p.toNat).bifReg ||| 0b0001#4 }
        | .busNack p => s.bus.set p.toNat { s.busAt p.toNat with bifReg := (s.busAt p.toNat).bifReg ||| 0b0010#4 }
        | .busRx p b => s.bus.set p.toNat { s.busAt p.toNat with bifReg := (s.busAt p.toNat).bifReg ||| 0b0100#4, brxdata := b }
        | .busMstop p => s.bus.set p.toNat { s.busAt p.toNat with bifReg := (s.busAt p.toNat).bifReg ||| 0b1000#4 }
        | .busIdle p v => s.bus.set p.toNat { s.busAt p.toNat with bpidle := v }
        | .serTxbl _ => s.bus
        | .serTxc _ => s.bus
      ser := match e with
        | .serTxbl p => s.ser.set p.toNat { s.serAt p.toNat with sifReg := (s.serAt p.toNat).sifReg ||| 0b01#2 }
        | .serTxc p => s.ser.set p.toNat { s.serAt p.toNat with sifReg := (s.serAt p.toNat).sifReg ||| 0b10#2 }
        | _ => s.ser }

/-- A handler step whose flag or enable is 0 is no step; one that runs without a fault, and every IRQ command that completes, leaves the
foreground awake (60_exceptions.md R140, 41_arbiter.md R89). -/
def Obligations.InterruptsWakeTheForeground : Prop :=
  ∀ s t : State, s.faultCode = .noFault → t.faultCode = .noFault →
    (∀ p k, busHandler p k s = .next t → if (s.busAt p).enabled k then t.fgAsleep = false else t = s)
    ∧ (∀ p k, serHandler p k s = .next t → if (s.serAt p).enabled k then t.fgAsleep = false else t = s)
    ∧ (∀ i, s.ctx = .irq → exec i s = .next t → t.fgAsleep = false)

/-- Only a foreground ARB.ENTER puts the foreground to sleep (41_arbiter.md R87, R88, 10_state.md R25). -/
def Obligations.OnlyEnterSleeps : Prop :=
  ∀ s t : State, step s = .next t → s.fgAsleep = false → t.fgAsleep = true →
    s.moves.head? = some (.command .fg) ∧ ∃ rest, decode s.cfg.evtW s.fgPort = .ok (.arbEnter, rest)

/-- No step shortens or rewrites the action trace (00_scope.md R16). The same of the list of responses is the model's choice, which holds
them in a list of its own (log entry 7), and that no step changes a parameter is the model's choice too, which holds the constants of
00_scope.md R9 in a field (log entry 1). -/
def Obligations.TracesOnlyGrow : Prop :=
  ∀ s t : State, step s = .next t → t.cfg = s.cfg ∧ (∃ acts, t.act = s.act ++ acts) ∧ ∃ rs, t.resp = s.resp ++ rs

/-! Reset and the invariant -/

/-- The reset values the spec gives, for every choice of the parameters, and an empty action trace (70_reset_and_hazards.md R159). -/
def Obligations.ResetValues : Prop :=
  ∀ c : Params,
    (State.resetOf c).faultCode.code = 0#8 ∧ (State.resetOf c).faultUnit = 0#4 ∧ (State.resetOf c).faultInst = 0#4
    ∧ (State.resetOf c).faultInfo = 0#32 ∧ (State.resetOf c).fgAsleep = false ∧ (State.resetOf c).fgDepth = 0#8
    ∧ (State.resetOf c).fgHeld = .none ∧ (State.resetOf c).act = [] ∧ (State.resetOf c).pending = 0#32
    ∧ (State.resetOf c).cnt = List.replicate c.nDepth 0#8
    ∧ (∀ p, p < c.nBus → ∃ b, (State.resetOf c).busAt p =
        { recAddr := 0#7, recDir := .write, recCmd := 0#8, recDest := 0#32, recCount := 0#4, recEvt := 0#32
          busState := .initSendAddr, busBusy := false, bien := 0b1011#4, bifReg := 0#4, brxdata := 0#8, bpidle := true
          bautoack := b, bienSave := 0#4, nackCnt := 0#32 })
    ∧ (∀ p, p < c.nSer → ∃ buf, (State.resetOf c).serAt p =
        { txbuf := buf, txLen := 0#16, txIdx := 0#16, serState := .init, serBusy := false, sien := 0#2, sifReg := 0#2
          stxen := false })
    ∧ (∀ q, q < c.nSer → ∃ buf diag, (State.resetOf c).queueAt q =
        { qbuf := buf, qrd := 0, qwr := 0, diagbuf := diag, diagLen := 0#16 })
    ∧ (State.resetOf c).qmask = c.qcap - 1

/-- The invariant holds after reset, for every legal choice of the parameters; every idle bus engine has its first tag and every busy
engine its block (10_state.md R38, 70_reset_and_hazards.md R159). -/
def Obligations.ResetHasTheInvariant : Prop :=
  ∀ c : Params, c.legal = true →
    (State.resetOf c).Inv ∧ (∀ p, (State.resetOf c).IdleBusAtInit p) ∧ (State.resetOf c).BlocksHeld

/-- Every step keeps the invariant, from any state that has it: counters at most the bound, indices and masks in range, the serial engine's tags,
index and enables coherent, checked records, the hold's conditions, the memory's canonical form (10_state.md R38 items 1, 3, 4 and 5, which
the spec derives). An idle bus engine keeps its first tag unless the step services an ACK of it (item 2). Every busy engine's block stays
counted unless the step is a caller's ARB.OPEN, or ARB.UNBLOCK of one of the two dedicated depths (item 6), or the MSTOP of an idle bus
engine that stray events walked to STOP_END, which item 6 does not name (log entry 25). -/
def Obligations.StepKeepsTheInvariant : Prop :=
  ∀ s t : State, s.Inv → step s = .next t →
    t.Inv
    ∧ (∀ p, s.IdleBusAtInit p → t.IdleBusAtInit p ∨ s.AckWhileIdle p)
    ∧ (s.BlocksHeld → t.BlocksHeld ∨ s.CallerReleases ∨ s.StopWhileIdle)

/-! The launch of a run -/

/-- For every legal choice of the parameters there is a clean entry (60_exceptions.md R157, 70_reset_and_hazards.md R160, log entry 24). It is
a state right after reset but for the action trace, which holds the actions of the boot, and the enables the resets saved
(70_reset_and_hazards.md R161, which the spec derives); besides, host memory is the host's, and the model's list of responses holds those
of the boot (log entry 7). Every state a run reaches from a clean entry has the invariant; and if no step of the run was a caller's
ARB.OPEN, or ARB.UNBLOCK of a dedicated depth, or serviced an ACK of an idle bus engine, every idle bus engine there has its first tag and
a busy engine's dedicated depth is blocked (10_state.md R38 items 2 and 6, which the spec derives; for item 6 the condition on the ACK is
the model's, log entry 25). -/
def Obligations.CleanEntryIsTheResetStateBooted : Prop :=
  (∀ c : Params, c.legal = true → ∃ s : State, s.cfg = c ∧ s.CleanEntry)
    ∧ ∀ s : State, s.CleanEntry →
      (∃ r : State, r.AfterReset ∧ s = { r with
          act := bootActions r.cfg
          resp := List.replicate (2 + r.cfg.nSer + r.cfg.nBus) ⟨.fg, 0#32⟩
          bus := r.bus.map fun u => { u with bienSave := 0b1011#4 } })
      ∧ ∀ (n : Nat) (t : State), Sys2Proof.core.run n s = .next t →
        t.Inv
        ∧ ((∀ (k : Nat) (u : State), k < n → Sys2Proof.core.run k s = .next u → ¬u.CallerReleases ∧ ∀ p, ¬u.AckWhileIdle p) →
          (∀ p, t.IdleBusAtInit p)
          ∧ (∀ p, (t.serAt p).serBusy = true → 1 ≤ (t.cntAt t.cfg.serDepth).toNat)
          ∧ (∀ p, (t.busAt p).busBusy = true → 1 ≤ (t.cntAt t.cfg.busDepth).toNat))
end

