-- ==== Sys2Proof/Laws/State.lean ====
section
/-! SUPPORT. One lemma per field per update of State, so that no proof unfolds a record update. -/

namespace Sys2Proof.Machine

variable (s : State)

section Emit
@[simp] theorem State.emit_cfg (a : Action) : (s.emit a).cfg = s.cfg := rfl
@[simp] theorem State.emit_faultCode (a : Action) : (s.emit a).faultCode = s.faultCode := rfl
@[simp] theorem State.emit_faultUnit (a : Action) : (s.emit a).faultUnit = s.faultUnit := rfl
@[simp] theorem State.emit_faultInst (a : Action) : (s.emit a).faultInst = s.faultInst := rfl
@[simp] theorem State.emit_faultInfo (a : Action) : (s.emit a).faultInfo = s.faultInfo := rfl
@[simp] theorem State.emit_fgAsleep (a : Action) : (s.emit a).fgAsleep = s.fgAsleep := rfl
@[simp] theorem State.emit_fgDepth (a : Action) : (s.emit a).fgDepth = s.fgDepth := rfl
@[simp] theorem State.emit_fgHeld (a : Action) : (s.emit a).fgHeld = s.fgHeld := rfl
@[simp] theorem State.emit_act (a : Action) : (s.emit a).act = s.act ++ [a] := rfl
@[simp] theorem State.emit_pending (a : Action) : (s.emit a).pending = s.pending := rfl
@[simp] theorem State.emit_cnt (a : Action) : (s.emit a).cnt = s.cnt := rfl
@[simp] theorem State.emit_bus (a : Action) : (s.emit a).bus = s.bus := rfl
@[simp] theorem State.emit_ser (a : Action) : (s.emit a).ser = s.ser := rfl
@[simp] theorem State.emit_queue (a : Action) : (s.emit a).queue = s.queue := rfl
@[simp] theorem State.emit_dmem (a : Action) : (s.emit a).dmem = s.dmem := rfl
@[simp] theorem State.emit_ctx (a : Action) : (s.emit a).ctx = s.ctx := rfl
@[simp] theorem State.emit_resp (a : Action) : (s.emit a).resp = s.resp := rfl
@[simp] theorem State.emit_fgPort (a : Action) : (s.emit a).fgPort = s.fgPort := rfl
@[simp] theorem State.emit_irqPort (a : Action) : (s.emit a).irqPort = s.irqPort := rfl
@[simp] theorem State.emit_evtPort (a : Action) : (s.emit a).evtPort = s.evtPort := rfl
@[simp] theorem State.emit_hostStores (a : Action) : (s.emit a).hostStores = s.hostStores := rfl
@[simp] theorem State.emit_moves (a : Action) : (s.emit a).moves = s.moves := rfl
end Emit

section RespondTo
@[simp] theorem State.respondTo_cfg (c : Ctx) (v : Word) : (s.respondTo c v).cfg = s.cfg := rfl
@[simp] theorem State.respondTo_faultCode (c : Ctx) (v : Word) : (s.respondTo c v).faultCode = s.faultCode := rfl
@[simp] theorem State.respondTo_faultUnit (c : Ctx) (v : Word) : (s.respondTo c v).faultUnit = s.faultUnit := rfl
@[simp] theorem State.respondTo_faultInst (c : Ctx) (v : Word) : (s.respondTo c v).faultInst = s.faultInst := rfl
@[simp] theorem State.respondTo_faultInfo (c : Ctx) (v : Word) : (s.respondTo c v).faultInfo = s.faultInfo := rfl
@[simp] theorem State.respondTo_fgAsleep (c : Ctx) (v : Word) : (s.respondTo c v).fgAsleep = s.fgAsleep := rfl
@[simp] theorem State.respondTo_fgDepth (c : Ctx) (v : Word) : (s.respondTo c v).fgDepth = s.fgDepth := rfl
@[simp] theorem State.respondTo_fgHeld (c : Ctx) (v : Word) : (s.respondTo c v).fgHeld = s.fgHeld := rfl
@[simp] theorem State.respondTo_act (c : Ctx) (v : Word) : (s.respondTo c v).act = s.act := rfl
@[simp] theorem State.respondTo_pending (c : Ctx) (v : Word) : (s.respondTo c v).pending = s.pending := rfl
@[simp] theorem State.respondTo_cnt (c : Ctx) (v : Word) : (s.respondTo c v).cnt = s.cnt := rfl
@[simp] theorem State.respondTo_bus (c : Ctx) (v : Word) : (s.respondTo c v).bus = s.bus := rfl
@[simp] theorem State.respondTo_ser (c : Ctx) (v : Word) : (s.respondTo c v).ser = s.ser := rfl
@[simp] theorem State.respondTo_queue (c : Ctx) (v : Word) : (s.respondTo c v).queue = s.queue := rfl
@[simp] theorem State.respondTo_dmem (c : Ctx) (v : Word) : (s.respondTo c v).dmem = s.dmem := rfl
@[simp] theorem State.respondTo_ctx (c : Ctx) (v : Word) : (s.respondTo c v).ctx = s.ctx := rfl
@[simp] theorem State.respondTo_resp (c : Ctx) (v : Word) : (s.respondTo c v).resp = s.resp ++ [⟨c, v⟩] := rfl
@[simp] theorem State.respondTo_fgPort (c : Ctx) (v : Word) : (s.respondTo c v).fgPort = s.fgPort := rfl
@[simp] theorem State.respondTo_irqPort (c : Ctx) (v : Word) : (s.respondTo c v).irqPort = s.irqPort := rfl
@[simp] theorem State.respondTo_evtPort (c : Ctx) (v : Word) : (s.respondTo c v).evtPort = s.evtPort := rfl
@[simp] theorem State.respondTo_hostStores (c : Ctx) (v : Word) : (s.respondTo c v).hostStores = s.hostStores := rfl
@[simp] theorem State.respondTo_moves (c : Ctx) (v : Word) : (s.respondTo c v).moves = s.moves := rfl
end RespondTo

section Respond
@[simp] theorem State.respond_cfg (v : Word) : (s.respond v).cfg = s.cfg := rfl
@[simp] theorem State.respond_faultCode (v : Word) : (s.respond v).faultCode = s.faultCode := rfl
@[simp] theorem State.respond_faultUnit (v : Word) : (s.respond v).faultUnit = s.faultUnit := rfl
@[simp] theorem State.respond_faultInst (v : Word) : (s.respond v).faultInst = s.faultInst := rfl
@[simp] theorem State.respond_faultInfo (v : Word) : (s.respond v).faultInfo = s.faultInfo := rfl
@[simp] theorem State.respond_fgAsleep (v : Word) : (s.respond v).fgAsleep = s.fgAsleep := rfl
@[simp] theorem State.respond_fgDepth (v : Word) : (s.respond v).fgDepth = s.fgDepth := rfl
@[simp] theorem State.respond_fgHeld (v : Word) : (s.respond v).fgHeld = s.fgHeld := rfl
@[simp] theorem State.respond_act (v : Word) : (s.respond v).act = s.act := rfl
@[simp] theorem State.respond_pending (v : Word) : (s.respond v).pending = s.pending := rfl
@[simp] theorem State.respond_cnt (v : Word) : (s.respond v).cnt = s.cnt := rfl
@[simp] theorem State.respond_bus (v : Word) : (s.respond v).bus = s.bus := rfl
@[simp] theorem State.respond_ser (v : Word) : (s.respond v).ser = s.ser := rfl
@[simp] theorem State.respond_queue (v : Word) : (s.respond v).queue = s.queue := rfl
@[simp] theorem State.respond_dmem (v : Word) : (s.respond v).dmem = s.dmem := rfl
@[simp] theorem State.respond_ctx (v : Word) : (s.respond v).ctx = s.ctx := rfl
@[simp] theorem State.respond_resp (v : Word) : (s.respond v).resp = s.resp ++ [⟨s.ctx, v⟩] := rfl
@[simp] theorem State.respond_fgPort (v : Word) : (s.respond v).fgPort = s.fgPort := rfl
@[simp] theorem State.respond_irqPort (v : Word) : (s.respond v).irqPort = s.irqPort := rfl
@[simp] theorem State.respond_evtPort (v : Word) : (s.respond v).evtPort = s.evtPort := rfl
@[simp] theorem State.respond_hostStores (v : Word) : (s.respond v).hostStores = s.hostStores := rfl
@[simp] theorem State.respond_moves (v : Word) : (s.respond v).moves = s.moves := rfl
end Respond

section Post
@[simp] theorem State.post_cfg (m : Word) : (s.post m).cfg = s.cfg := rfl
@[simp] theorem State.post_faultCode (m : Word) : (s.post m).faultCode = s.faultCode := rfl
@[simp] theorem State.post_faultUnit (m : Word) : (s.post m).faultUnit = s.faultUnit := rfl
@[simp] theorem State.post_faultInst (m : Word) : (s.post m).faultInst = s.faultInst := rfl
@[simp] theorem State.post_faultInfo (m : Word) : (s.post m).faultInfo = s.faultInfo := rfl
@[simp] theorem State.post_fgAsleep (m : Word) : (s.post m).fgAsleep = s.fgAsleep := rfl
@[simp] theorem State.post_fgDepth (m : Word) : (s.post m).fgDepth = s.fgDepth := rfl
@[simp] theorem State.post_fgHeld (m : Word) : (s.post m).fgHeld = s.fgHeld := rfl
@[simp] theorem State.post_act (m : Word) : (s.post m).act = s.act := rfl
@[simp] theorem State.post_pending (m : Word) : (s.post m).pending = s.pending ||| m := rfl
@[simp] theorem State.post_cnt (m : Word) : (s.post m).cnt = s.cnt := rfl
@[simp] theorem State.post_bus (m : Word) : (s.post m).bus = s.bus := rfl
@[simp] theorem State.post_ser (m : Word) : (s.post m).ser = s.ser := rfl
@[simp] theorem State.post_queue (m : Word) : (s.post m).queue = s.queue := rfl
@[simp] theorem State.post_dmem (m : Word) : (s.post m).dmem = s.dmem := rfl
@[simp] theorem State.post_ctx (m : Word) : (s.post m).ctx = s.ctx := rfl
@[simp] theorem State.post_resp (m : Word) : (s.post m).resp = s.resp := rfl
@[simp] theorem State.post_fgPort (m : Word) : (s.post m).fgPort = s.fgPort := rfl
@[simp] theorem State.post_irqPort (m : Word) : (s.post m).irqPort = s.irqPort := rfl
@[simp] theorem State.post_evtPort (m : Word) : (s.post m).evtPort = s.evtPort := rfl
@[simp] theorem State.post_hostStores (m : Word) : (s.post m).hostStores = s.hostStores := rfl
@[simp] theorem State.post_moves (m : Word) : (s.post m).moves = s.moves := rfl
end Post

section SetBus
@[simp] theorem State.setBus_cfg (p : Nat) (u : BusUnit) : (s.setBus p u).cfg = s.cfg := rfl
@[simp] theorem State.setBus_faultCode (p : Nat) (u : BusUnit) : (s.setBus p u).faultCode = s.faultCode := rfl
@[simp] theorem State.setBus_faultUnit (p : Nat) (u : BusUnit) : (s.setBus p u).faultUnit = s.faultUnit := rfl
@[simp] theorem State.setBus_faultInst (p : Nat) (u : BusUnit) : (s.setBus p u).faultInst = s.faultInst := rfl
@[simp] theorem State.setBus_faultInfo (p : Nat) (u : BusUnit) : (s.setBus p u).faultInfo = s.faultInfo := rfl
@[simp] theorem State.setBus_fgAsleep (p : Nat) (u : BusUnit) : (s.setBus p u).fgAsleep = s.fgAsleep := rfl
@[simp] theorem State.setBus_fgDepth (p : Nat) (u : BusUnit) : (s.setBus p u).fgDepth = s.fgDepth := rfl
@[simp] theorem State.setBus_fgHeld (p : Nat) (u : BusUnit) : (s.setBus p u).fgHeld = s.fgHeld := rfl
@[simp] theorem State.setBus_act (p : Nat) (u : BusUnit) : (s.setBus p u).act = s.act := rfl
@[simp] theorem State.setBus_pending (p : Nat) (u : BusUnit) : (s.setBus p u).pending = s.pending := rfl
@[simp] theorem State.setBus_cnt (p : Nat) (u : BusUnit) : (s.setBus p u).cnt = s.cnt := rfl
@[simp] theorem State.setBus_bus (p : Nat) (u : BusUnit) : (s.setBus p u).bus = s.bus.set p u := rfl
@[simp] theorem State.setBus_ser (p : Nat) (u : BusUnit) : (s.setBus p u).ser = s.ser := rfl
@[simp] theorem State.setBus_queue (p : Nat) (u : BusUnit) : (s.setBus p u).queue = s.queue := rfl
@[simp] theorem State.setBus_dmem (p : Nat) (u : BusUnit) : (s.setBus p u).dmem = s.dmem := rfl
@[simp] theorem State.setBus_ctx (p : Nat) (u : BusUnit) : (s.setBus p u).ctx = s.ctx := rfl
@[simp] theorem State.setBus_resp (p : Nat) (u : BusUnit) : (s.setBus p u).resp = s.resp := rfl
@[simp] theorem State.setBus_fgPort (p : Nat) (u : BusUnit) : (s.setBus p u).fgPort = s.fgPort := rfl
@[simp] theorem State.setBus_irqPort (p : Nat) (u : BusUnit) : (s.setBus p u).irqPort = s.irqPort := rfl
@[simp] theorem State.setBus_evtPort (p : Nat) (u : BusUnit) : (s.setBus p u).evtPort = s.evtPort := rfl
@[simp] theorem State.setBus_hostStores (p : Nat) (u : BusUnit) : (s.setBus p u).hostStores = s.hostStores := rfl
@[simp] theorem State.setBus_moves (p : Nat) (u : BusUnit) : (s.setBus p u).moves = s.moves := rfl
end SetBus

section SetSer
@[simp] theorem State.setSer_cfg (p : Nat) (u : SerUnit) : (s.setSer p u).cfg = s.cfg := rfl
@[simp] theorem State.setSer_faultCode (p : Nat) (u : SerUnit) : (s.setSer p u).faultCode = s.faultCode := rfl
@[simp] theorem State.setSer_faultUnit (p : Nat) (u : SerUnit) : (s.setSer p u).faultUnit = s.faultUnit := rfl
@[simp] theorem State.setSer_faultInst (p : Nat) (u : SerUnit) : (s.setSer p u).faultInst = s.faultInst := rfl
@[simp] theorem State.setSer_faultInfo (p : Nat) (u : SerUnit) : (s.setSer p u).faultInfo = s.faultInfo := rfl
@[simp] theorem State.setSer_fgAsleep (p : Nat) (u : SerUnit) : (s.setSer p u).fgAsleep = s.fgAsleep := rfl
@[simp] theorem State.setSer_fgDepth (p : Nat) (u : SerUnit) : (s.setSer p u).fgDepth = s.fgDepth := rfl
@[simp] theorem State.setSer_fgHeld (p : Nat) (u : SerUnit) : (s.setSer p u).fgHeld = s.fgHeld := rfl
@[simp] theorem State.setSer_act (p : Nat) (u : SerUnit) : (s.setSer p u).act = s.act := rfl
@[simp] theorem State.setSer_pending (p : Nat) (u : SerUnit) : (s.setSer p u).pending = s.pending := rfl
@[simp] theorem State.setSer_cnt (p : Nat) (u : SerUnit) : (s.setSer p u).cnt = s.cnt := rfl
@[simp] theorem State.setSer_bus (p : Nat) (u : SerUnit) : (s.setSer p u).bus = s.bus := rfl
@[simp] theorem State.setSer_ser (p : Nat) (u : SerUnit) : (s.setSer p u).ser = s.ser.set p u := rfl
@[simp] theorem State.setSer_queue (p : Nat) (u : SerUnit) : (s.setSer p u).queue = s.queue := rfl
@[simp] theorem State.setSer_dmem (p : Nat) (u : SerUnit) : (s.setSer p u).dmem = s.dmem := rfl
@[simp] theorem State.setSer_ctx (p : Nat) (u : SerUnit) : (s.setSer p u).ctx = s.ctx := rfl
@[simp] theorem State.setSer_resp (p : Nat) (u : SerUnit) : (s.setSer p u).resp = s.resp := rfl
@[simp] theorem State.setSer_fgPort (p : Nat) (u : SerUnit) : (s.setSer p u).fgPort = s.fgPort := rfl
@[simp] theorem State.setSer_irqPort (p : Nat) (u : SerUnit) : (s.setSer p u).irqPort = s.irqPort := rfl
@[simp] theorem State.setSer_evtPort (p : Nat) (u : SerUnit) : (s.setSer p u).evtPort = s.evtPort := rfl
@[simp] theorem State.setSer_hostStores (p : Nat) (u : SerUnit) : (s.setSer p u).hostStores = s.hostStores := rfl
@[simp] theorem State.setSer_moves (p : Nat) (u : SerUnit) : (s.setSer p u).moves = s.moves := rfl
end SetSer

section SetQueue
@[simp] theorem State.setQueue_cfg (q : Nat) (u : QueueUnit) : (s.setQueue q u).cfg = s.cfg := rfl
@[simp] theorem State.setQueue_faultCode (q : Nat) (u : QueueUnit) : (s.setQueue q u).faultCode = s.faultCode := rfl
@[simp] theorem State.setQueue_faultUnit (q : Nat) (u : QueueUnit) : (s.setQueue q u).faultUnit = s.faultUnit := rfl
@[simp] theorem State.setQueue_faultInst (q : Nat) (u : QueueUnit) : (s.setQueue q u).faultInst = s.faultInst := rfl
@[simp] theorem State.setQueue_faultInfo (q : Nat) (u : QueueUnit) : (s.setQueue q u).faultInfo = s.faultInfo := rfl
@[simp] theorem State.setQueue_fgAsleep (q : Nat) (u : QueueUnit) : (s.setQueue q u).fgAsleep = s.fgAsleep := rfl
@[simp] theorem State.setQueue_fgDepth (q : Nat) (u : QueueUnit) : (s.setQueue q u).fgDepth = s.fgDepth := rfl
@[simp] theorem State.setQueue_fgHeld (q : Nat) (u : QueueUnit) : (s.setQueue q u).fgHeld = s.fgHeld := rfl
@[simp] theorem State.setQueue_act (q : Nat) (u : QueueUnit) : (s.setQueue q u).act = s.act := rfl
@[simp] theorem State.setQueue_pending (q : Nat) (u : QueueUnit) : (s.setQueue q u).pending = s.pending := rfl
@[simp] theorem State.setQueue_cnt (q : Nat) (u : QueueUnit) : (s.setQueue q u).cnt = s.cnt := rfl
@[simp] theorem State.setQueue_bus (q : Nat) (u : QueueUnit) : (s.setQueue q u).bus = s.bus := rfl
@[simp] theorem State.setQueue_ser (q : Nat) (u : QueueUnit) : (s.setQueue q u).ser = s.ser := rfl
@[simp] theorem State.setQueue_queue (q : Nat) (u : QueueUnit) : (s.setQueue q u).queue = s.queue.set q u := rfl
@[simp] theorem State.setQueue_dmem (q : Nat) (u : QueueUnit) : (s.setQueue q u).dmem = s.dmem := rfl
@[simp] theorem State.setQueue_ctx (q : Nat) (u : QueueUnit) : (s.setQueue q u).ctx = s.ctx := rfl
@[simp] theorem State.setQueue_resp (q : Nat) (u : QueueUnit) : (s.setQueue q u).resp = s.resp := rfl
@[simp] theorem State.setQueue_fgPort (q : Nat) (u : QueueUnit) : (s.setQueue q u).fgPort = s.fgPort := rfl
@[simp] theorem State.setQueue_irqPort (q : Nat) (u : QueueUnit) : (s.setQueue q u).irqPort = s.irqPort := rfl
@[simp] theorem State.setQueue_evtPort (q : Nat) (u : QueueUnit) : (s.setQueue q u).evtPort = s.evtPort := rfl
@[simp] theorem State.setQueue_hostStores (q : Nat) (u : QueueUnit) : (s.setQueue q u).hostStores = s.hostStores := rfl
@[simp] theorem State.setQueue_moves (q : Nat) (u : QueueUnit) : (s.setQueue q u).moves = s.moves := rfl
end SetQueue

section Block
@[simp] theorem State.block_cfg (d : Nat) : (s.block d).cfg = s.cfg := rfl
@[simp] theorem State.block_faultCode (d : Nat) : (s.block d).faultCode = s.faultCode := rfl
@[simp] theorem State.block_faultUnit (d : Nat) : (s.block d).faultUnit = s.faultUnit := rfl
@[simp] theorem State.block_faultInst (d : Nat) : (s.block d).faultInst = s.faultInst := rfl
@[simp] theorem State.block_faultInfo (d : Nat) : (s.block d).faultInfo = s.faultInfo := rfl
@[simp] theorem State.block_fgAsleep (d : Nat) : (s.block d).fgAsleep = s.fgAsleep := rfl
@[simp] theorem State.block_fgDepth (d : Nat) : (s.block d).fgDepth = s.fgDepth := rfl
@[simp] theorem State.block_fgHeld (d : Nat) : (s.block d).fgHeld = s.fgHeld := rfl
@[simp] theorem State.block_act (d : Nat) : (s.block d).act = s.act := rfl
@[simp] theorem State.block_pending (d : Nat) : (s.block d).pending = s.pending := rfl
@[simp] theorem State.block_cnt (d : Nat) : (s.block d).cnt = s.cnt.set d (s.cntAt d + 1#8) := rfl
@[simp] theorem State.block_bus (d : Nat) : (s.block d).bus = s.bus := rfl
@[simp] theorem State.block_ser (d : Nat) : (s.block d).ser = s.ser := rfl
@[simp] theorem State.block_queue (d : Nat) : (s.block d).queue = s.queue := rfl
@[simp] theorem State.block_dmem (d : Nat) : (s.block d).dmem = s.dmem := rfl
@[simp] theorem State.block_ctx (d : Nat) : (s.block d).ctx = s.ctx := rfl
@[simp] theorem State.block_resp (d : Nat) : (s.block d).resp = s.resp := rfl
@[simp] theorem State.block_fgPort (d : Nat) : (s.block d).fgPort = s.fgPort := rfl
@[simp] theorem State.block_irqPort (d : Nat) : (s.block d).irqPort = s.irqPort := rfl
@[simp] theorem State.block_evtPort (d : Nat) : (s.block d).evtPort = s.evtPort := rfl
@[simp] theorem State.block_hostStores (d : Nat) : (s.block d).hostStores = s.hostStores := rfl
@[simp] theorem State.block_moves (d : Nat) : (s.block d).moves = s.moves := rfl
end Block

section RaiseFault
@[simp] theorem State.raiseFault_cfg (f : FaultReport) : (s.raiseFault f).cfg = s.cfg := rfl
@[simp] theorem State.raiseFault_faultCode (f : FaultReport) : (s.raiseFault f).faultCode = f.code := rfl
@[simp] theorem State.raiseFault_faultUnit (f : FaultReport) : (s.raiseFault f).faultUnit = f.unit := rfl
@[simp] theorem State.raiseFault_faultInst (f : FaultReport) : (s.raiseFault f).faultInst = f.inst := rfl
@[simp] theorem State.raiseFault_faultInfo (f : FaultReport) : (s.raiseFault f).faultInfo = f.info := rfl
@[simp] theorem State.raiseFault_fgAsleep (f : FaultReport) : (s.raiseFault f).fgAsleep = s.fgAsleep := rfl
@[simp] theorem State.raiseFault_fgDepth (f : FaultReport) : (s.raiseFault f).fgDepth = s.fgDepth := rfl
@[simp] theorem State.raiseFault_fgHeld (f : FaultReport) : (s.raiseFault f).fgHeld = s.fgHeld := rfl
@[simp] theorem State.raiseFault_act (f : FaultReport) : (s.raiseFault f).act = s.act := rfl
@[simp] theorem State.raiseFault_pending (f : FaultReport) : (s.raiseFault f).pending = s.pending := rfl
@[simp] theorem State.raiseFault_cnt (f : FaultReport) : (s.raiseFault f).cnt = s.cnt := rfl
@[simp] theorem State.raiseFault_bus (f : FaultReport) : (s.raiseFault f).bus = s.bus := rfl
@[simp] theorem State.raiseFault_ser (f : FaultReport) : (s.raiseFault f).ser = s.ser := rfl
@[simp] theorem State.raiseFault_queue (f : FaultReport) : (s.raiseFault f).queue = s.queue := rfl
@[simp] theorem State.raiseFault_dmem (f : FaultReport) : (s.raiseFault f).dmem = s.dmem := rfl
@[simp] theorem State.raiseFault_ctx (f : FaultReport) : (s.raiseFault f).ctx = s.ctx := rfl
@[simp] theorem State.raiseFault_resp (f : FaultReport) : (s.raiseFault f).resp = s.resp := rfl
@[simp] theorem State.raiseFault_fgPort (f : FaultReport) : (s.raiseFault f).fgPort = s.fgPort := rfl
@[simp] theorem State.raiseFault_irqPort (f : FaultReport) : (s.raiseFault f).irqPort = s.irqPort := rfl
@[simp] theorem State.raiseFault_evtPort (f : FaultReport) : (s.raiseFault f).evtPort = s.evtPort := rfl
@[simp] theorem State.raiseFault_hostStores (f : FaultReport) : (s.raiseFault f).hostStores = s.hostStores := rfl
@[simp] theorem State.raiseFault_moves (f : FaultReport) : (s.raiseFault f).moves = s.moves := rfl
end RaiseFault

section EmitRepeatedStart
@[simp] theorem State.emitRepeatedStart_cfg (p : Nat) (addr : BitVec 7) : (s.emitRepeatedStart p addr).cfg = s.cfg := rfl
@[simp] theorem State.emitRepeatedStart_faultCode (p : Nat) (addr : BitVec 7) : (s.emitRepeatedStart p addr).faultCode = s.faultCode := rfl
@[simp] theorem State.emitRepeatedStart_faultUnit (p : Nat) (addr : BitVec 7) : (s.emitRepeatedStart p addr).faultUnit = s.faultUnit := rfl
@[simp] theorem State.emitRepeatedStart_faultInst (p : Nat) (addr : BitVec 7) : (s.emitRepeatedStart p addr).faultInst = s.faultInst := rfl
@[simp] theorem State.emitRepeatedStart_faultInfo (p : Nat) (addr : BitVec 7) : (s.emitRepeatedStart p addr).faultInfo = s.faultInfo := rfl
@[simp] theorem State.emitRepeatedStart_fgAsleep (p : Nat) (addr : BitVec 7) : (s.emitRepeatedStart p addr).fgAsleep = s.fgAsleep := rfl
@[simp] theorem State.emitRepeatedStart_fgDepth (p : Nat) (addr : BitVec 7) : (s.emitRepeatedStart p addr).fgDepth = s.fgDepth := rfl
@[simp] theorem State.emitRepeatedStart_fgHeld (p : Nat) (addr : BitVec 7) : (s.emitRepeatedStart p addr).fgHeld = s.fgHeld := rfl
@[simp] theorem State.emitRepeatedStart_act (p : Nat) (addr : BitVec 7) : (s.emitRepeatedStart p addr).act = s.act ++ [.busStart p] ++ [.busTxdata p (addressByte addr 1#1)] := rfl
@[simp] theorem State.emitRepeatedStart_pending (p : Nat) (addr : BitVec 7) : (s.emitRepeatedStart p addr).pending = s.pending := rfl
@[simp] theorem State.emitRepeatedStart_cnt (p : Nat) (addr : BitVec 7) : (s.emitRepeatedStart p addr).cnt = s.cnt := rfl
@[simp] theorem State.emitRepeatedStart_bus (p : Nat) (addr : BitVec 7) : (s.emitRepeatedStart p addr).bus = s.bus := rfl
@[simp] theorem State.emitRepeatedStart_ser (p : Nat) (addr : BitVec 7) : (s.emitRepeatedStart p addr).ser = s.ser := rfl
@[simp] theorem State.emitRepeatedStart_queue (p : Nat) (addr : BitVec 7) : (s.emitRepeatedStart p addr).queue = s.queue := rfl
@[simp] theorem State.emitRepeatedStart_dmem (p : Nat) (addr : BitVec 7) : (s.emitRepeatedStart p addr).dmem = s.dmem := rfl
@[simp] theorem State.emitRepeatedStart_ctx (p : Nat) (addr : BitVec 7) : (s.emitRepeatedStart p addr).ctx = s.ctx := rfl
@[simp] theorem State.emitRepeatedStart_resp (p : Nat) (addr : BitVec 7) : (s.emitRepeatedStart p addr).resp = s.resp := rfl
@[simp] theorem State.emitRepeatedStart_fgPort (p : Nat) (addr : BitVec 7) : (s.emitRepeatedStart p addr).fgPort = s.fgPort := rfl
@[simp] theorem State.emitRepeatedStart_irqPort (p : Nat) (addr : BitVec 7) : (s.emitRepeatedStart p addr).irqPort = s.irqPort := rfl
@[simp] theorem State.emitRepeatedStart_evtPort (p : Nat) (addr : BitVec 7) : (s.emitRepeatedStart p addr).evtPort = s.evtPort := rfl
@[simp] theorem State.emitRepeatedStart_hostStores (p : Nat) (addr : BitVec 7) : (s.emitRepeatedStart p addr).hostStores = s.hostStores := rfl
@[simp] theorem State.emitRepeatedStart_moves (p : Nat) (addr : BitVec 7) : (s.emitRepeatedStart p addr).moves = s.moves := rfl
end EmitRepeatedStart

section Unblock
@[simp] theorem State.unblock_cfg (d : Nat) : (s.unblock d).cfg = s.cfg := by
  unfold State.unblock; split <;> rfl
@[simp] theorem State.unblock_faultCode (d : Nat) : (s.unblock d).faultCode = s.faultCode := by
  unfold State.unblock; split <;> rfl
@[simp] theorem State.unblock_faultUnit (d : Nat) : (s.unblock d).faultUnit = s.faultUnit := by
  unfold State.unblock; split <;> rfl
@[simp] theorem State.unblock_faultInst (d : Nat) : (s.unblock d).faultInst = s.faultInst := by
  unfold State.unblock; split <;> rfl
@[simp] theorem State.unblock_faultInfo (d : Nat) : (s.unblock d).faultInfo = s.faultInfo := by
  unfold State.unblock; split <;> rfl
@[simp] theorem State.unblock_fgAsleep (d : Nat) : (s.unblock d).fgAsleep = s.fgAsleep := by
  unfold State.unblock; split <;> rfl
@[simp] theorem State.unblock_fgDepth (d : Nat) : (s.unblock d).fgDepth = s.fgDepth := by
  unfold State.unblock; split <;> rfl
@[simp] theorem State.unblock_fgHeld (d : Nat) : (s.unblock d).fgHeld = s.fgHeld := by
  unfold State.unblock; split <;> rfl
@[simp] theorem State.unblock_act (d : Nat) : (s.unblock d).act = s.act := by
  unfold State.unblock; split <;> rfl
@[simp] theorem State.unblock_pending (d : Nat) : (s.unblock d).pending = s.pending := by
  unfold State.unblock; split <;> rfl
theorem State.unblock_cnt (d : Nat) :
    (s.unblock d).cnt = if s.cntAt d ≠ 0#8 then s.cnt.set d (s.cntAt d - 1#8) else s.cnt := by
  unfold State.unblock; split <;> rfl
@[simp] theorem State.unblock_bus (d : Nat) : (s.unblock d).bus = s.bus := by
  unfold State.unblock; split <;> rfl
@[simp] theorem State.unblock_ser (d : Nat) : (s.unblock d).ser = s.ser := by
  unfold State.unblock; split <;> rfl
@[simp] theorem State.unblock_queue (d : Nat) : (s.unblock d).queue = s.queue := by
  unfold State.unblock; split <;> rfl
@[simp] theorem State.unblock_dmem (d : Nat) : (s.unblock d).dmem = s.dmem := by
  unfold State.unblock; split <;> rfl
@[simp] theorem State.unblock_ctx (d : Nat) : (s.unblock d).ctx = s.ctx := by
  unfold State.unblock; split <;> rfl
@[simp] theorem State.unblock_resp (d : Nat) : (s.unblock d).resp = s.resp := by
  unfold State.unblock; split <;> rfl
@[simp] theorem State.unblock_fgPort (d : Nat) : (s.unblock d).fgPort = s.fgPort := by
  unfold State.unblock; split <;> rfl
@[simp] theorem State.unblock_irqPort (d : Nat) : (s.unblock d).irqPort = s.irqPort := by
  unfold State.unblock; split <;> rfl
@[simp] theorem State.unblock_evtPort (d : Nat) : (s.unblock d).evtPort = s.evtPort := by
  unfold State.unblock; split <;> rfl
@[simp] theorem State.unblock_hostStores (d : Nat) : (s.unblock d).hostStores = s.hostStores := by
  unfold State.unblock; split <;> rfl
@[simp] theorem State.unblock_moves (d : Nat) : (s.unblock d).moves = s.moves := by
  unfold State.unblock; split <;> rfl
end Unblock

section EndCommand
@[simp] theorem State.endCommand_cfg : s.endCommand.cfg = s.cfg := by
  unfold State.endCommand; split <;> rfl
@[simp] theorem State.endCommand_faultCode : s.endCommand.faultCode = s.faultCode := by
  unfold State.endCommand; split <;> rfl
@[simp] theorem State.endCommand_faultUnit : s.endCommand.faultUnit = s.faultUnit := by
  unfold State.endCommand; split <;> rfl
@[simp] theorem State.endCommand_faultInst : s.endCommand.faultInst = s.faultInst := by
  unfold State.endCommand; split <;> rfl
@[simp] theorem State.endCommand_faultInfo : s.endCommand.faultInfo = s.faultInfo := by
  unfold State.endCommand; split <;> rfl
theorem State.endCommand_fgAsleep : s.endCommand.fgAsleep = (s.fgAsleep && decide (s.ctx = .fg)) := by
  unfold State.endCommand; split <;> simp_all
@[simp] theorem State.endCommand_fgDepth : s.endCommand.fgDepth = s.fgDepth := by
  unfold State.endCommand; split <;> rfl
@[simp] theorem State.endCommand_fgHeld : s.endCommand.fgHeld = s.fgHeld := by
  unfold State.endCommand; split <;> rfl
@[simp] theorem State.endCommand_act : s.endCommand.act = s.act := by
  unfold State.endCommand; split <;> rfl
@[simp] theorem State.endCommand_pending : s.endCommand.pending = s.pending := by
  unfold State.endCommand; split <;> rfl
@[simp] theorem State.endCommand_cnt : s.endCommand.cnt = s.cnt := by
  unfold State.endCommand; split <;> rfl
@[simp] theorem State.endCommand_bus : s.endCommand.bus = s.bus := by
  unfold State.endCommand; split <;> rfl
@[simp] theorem State.endCommand_ser : s.endCommand.ser = s.ser := by
  unfold State.endCommand; split <;> rfl
@[simp] theorem State.endCommand_queue : s.endCommand.queue = s.queue := by
  unfold State.endCommand; split <;> rfl
@[simp] theorem State.endCommand_dmem : s.endCommand.dmem = s.dmem := by
  unfold State.endCommand; split <;> rfl
@[simp] theorem State.endCommand_ctx : s.endCommand.ctx = s.ctx := by
  unfold State.endCommand; split <;> rfl
@[simp] theorem State.endCommand_resp : s.endCommand.resp = s.resp := by
  unfold State.endCommand; split <;> rfl
@[simp] theorem State.endCommand_fgPort : s.endCommand.fgPort = s.fgPort := by
  unfold State.endCommand; split <;> rfl
@[simp] theorem State.endCommand_irqPort : s.endCommand.irqPort = s.irqPort := by
  unfold State.endCommand; split <;> rfl
@[simp] theorem State.endCommand_evtPort : s.endCommand.evtPort = s.evtPort := by
  unfold State.endCommand; split <;> rfl
@[simp] theorem State.endCommand_hostStores : s.endCommand.hostStores = s.hostStores := by
  unfold State.endCommand; split <;> rfl
@[simp] theorem State.endCommand_moves : s.endCommand.moves = s.moves := by
  unfold State.endCommand; split <;> rfl
end EndCommand

section TakeFrom
@[simp] theorem State.takeFrom_cfg (c : Ctx) (rest : List Word) : (s.takeFrom c rest).cfg = s.cfg := by
  cases c <;> rfl
@[simp] theorem State.takeFrom_faultCode (c : Ctx) (rest : List Word) : (s.takeFrom c rest).faultCode = s.faultCode := by
  cases c <;> rfl
@[simp] theorem State.takeFrom_faultUnit (c : Ctx) (rest : List Word) : (s.takeFrom c rest).faultUnit = s.faultUnit := by
  cases c <;> rfl
@[simp] theorem State.takeFrom_faultInst (c : Ctx) (rest : List Word) : (s.takeFrom c rest).faultInst = s.faultInst := by
  cases c <;> rfl
@[simp] theorem State.takeFrom_faultInfo (c : Ctx) (rest : List Word) : (s.takeFrom c rest).faultInfo = s.faultInfo := by
  cases c <;> rfl
@[simp] theorem State.takeFrom_fgAsleep (c : Ctx) (rest : List Word) : (s.takeFrom c rest).fgAsleep = s.fgAsleep := by
  cases c <;> rfl
@[simp] theorem State.takeFrom_fgDepth (c : Ctx) (rest : List Word) : (s.takeFrom c rest).fgDepth = s.fgDepth := by
  cases c <;> rfl
@[simp] theorem State.takeFrom_fgHeld (c : Ctx) (rest : List Word) : (s.takeFrom c rest).fgHeld = s.fgHeld := by
  cases c <;> rfl
@[simp] theorem State.takeFrom_act (c : Ctx) (rest : List Word) : (s.takeFrom c rest).act = s.act := by
  cases c <;> rfl
@[simp] theorem State.takeFrom_pending (c : Ctx) (rest : List Word) : (s.takeFrom c rest).pending = s.pending := by
  cases c <;> rfl
@[simp] theorem State.takeFrom_cnt (c : Ctx) (rest : List Word) : (s.takeFrom c rest).cnt = s.cnt := by
  cases c <;> rfl
@[simp] theorem State.takeFrom_bus (c : Ctx) (rest : List Word) : (s.takeFrom c rest).bus = s.bus := by
  cases c <;> rfl
@[simp] theorem State.takeFrom_ser (c : Ctx) (rest : List Word) : (s.takeFrom c rest).ser = s.ser := by
  cases c <;> rfl
@[simp] theorem State.takeFrom_queue (c : Ctx) (rest : List Word) : (s.takeFrom c rest).queue = s.queue := by
  cases c <;> rfl
@[simp] theorem State.takeFrom_dmem (c : Ctx) (rest : List Word) : (s.takeFrom c rest).dmem = s.dmem := by
  cases c <;> rfl
@[simp] theorem State.takeFrom_ctx (c : Ctx) (rest : List Word) : (s.takeFrom c rest).ctx = c := by
  cases c <;> rfl
@[simp] theorem State.takeFrom_resp (c : Ctx) (rest : List Word) : (s.takeFrom c rest).resp = s.resp := by
  cases c <;> rfl
@[simp] theorem State.takeFrom_fg_fgPort (rest : List Word) : (s.takeFrom .fg rest).fgPort = rest := rfl
@[simp] theorem State.takeFrom_irq_fgPort (rest : List Word) : (s.takeFrom .irq rest).fgPort = s.fgPort := rfl
@[simp] theorem State.takeFrom_irq_irqPort (rest : List Word) : (s.takeFrom .irq rest).irqPort = rest := rfl
@[simp] theorem State.takeFrom_fg_irqPort (rest : List Word) : (s.takeFrom .fg rest).irqPort = s.irqPort := rfl
@[simp] theorem State.takeFrom_evtPort (c : Ctx) (rest : List Word) : (s.takeFrom c rest).evtPort = s.evtPort := by
  cases c <;> rfl
@[simp] theorem State.takeFrom_hostStores (c : Ctx) (rest : List Word) : (s.takeFrom c rest).hostStores = s.hostStores := by
  cases c <;> rfl
@[simp] theorem State.takeFrom_moves (c : Ctx) (rest : List Word) : (s.takeFrom c rest).moves = s.moves := by
  cases c <;> rfl
end TakeFrom

section SleepAt
/-- The fields a power-mode transition leaves alone, in one statement: it writes the action trace, the depth and the sleep bit. -/
theorem State.sleepAt_eq (t : Nat) :
    s.sleepAt t = { s with
      act := if t > s.cfg.shallowDepth then s.act ++ [.cpuSleep t] else s.act
      fgDepth := if t > s.cfg.shallowDepth then BitVec.ofNat 8 t else s.fgDepth
      fgAsleep := if t > s.cfg.shallowDepth then true else s.fgAsleep } := by
  unfold State.sleepAt; split <;> rfl
end SleepAt

end Sys2Proof.Machine
end

