-- ==== Sys2Proof/Laws/Memory.lean ====
section
/-! SUPPORT. Host data memory: reads after writes, and the canonical form. -/

namespace Sys2Proof.Machine

/-- A byte below every listed address reads as unlisted. -/
theorem Memory.read_below {lo : Nat} {m : List Host.Cell} {a : Nat} (h : Memory.wfFrom lo m = true) (ha : a < lo) :
    Memory.read m a = Memory.unlisted := by
  induction m generalizing lo with
  | nil => rfl
  | cons c m ih =>
    obtain ⟨k, b⟩ := c
    simp only [Memory.wfFrom, Bool.and_eq_true, decide_eq_true_eq] at h
    have hk : k ≠ a := by omega
    simp only [Memory.read, if_neg hk]
    exact ih h.2 (by omega)

/-- Putting a byte in front decides what its own address reads as, given that the rest does not list it. -/
theorem Memory.read_cons_same {m : List Host.Cell} {a : Nat} {v : Byte} (h : Memory.read m a = Memory.unlisted) :
    Memory.read (Memory.cons a v m) a = v := by
  unfold Memory.cons
  split
  · simp_all
  · simp [Memory.read]

theorem Memory.read_cons_other {m : List Host.Cell} {a a' : Nat} {v : Byte} (h : a' ≠ a) :
    Memory.read (Memory.cons a v m) a' = Memory.read m a' := by
  unfold Memory.cons
  split
  · rfl
  · simp [Memory.read, Ne.symm h]

/-- A write leaves every other address alone, in any memory. -/
theorem Memory.read_write_other {m : List Host.Cell} {a a' : Nat} {v : Byte} (h : a' ≠ a) :
    Memory.read (Memory.write m a v) a' = Memory.read m a' := by
  induction m with
  | nil => exact Memory.read_cons_other h
  | cons c m ih =>
    obtain ⟨k, b⟩ := c
    simp only [Memory.write]
    split
    · exact Memory.read_cons_other h
    · split
      · next hk => subst hk; rw [Memory.read_cons_other h]; simp [Memory.read, Ne.symm h]
      · simp only [Memory.read, ih]

/-- A read after a write to the same address gives the value written, in a memory in canonical form. -/
theorem Memory.read_write_same {lo : Nat} {m : List Host.Cell} {a : Nat} {v : Byte} (h : Memory.wfFrom lo m = true) :
    Memory.read (Memory.write m a v) a = v := by
  induction m generalizing lo with
  | nil => exact Memory.read_cons_same rfl
  | cons c m ih =>
    obtain ⟨k, b⟩ := c
    have hm := h
    simp only [Memory.wfFrom, Bool.and_eq_true, decide_eq_true_eq] at h
    simp only [Memory.write]
    split
    · next hlt =>
      refine Memory.read_cons_same ?_
      have hk : k ≠ a := by omega
      simp only [Memory.read, if_neg hk]
      exact Memory.read_below h.2 (by omega)
    · split
      · next hk => subst hk; exact Memory.read_cons_same (Memory.read_below h.2 (by omega))
      · next hk =>
        have hk' : k ≠ a := fun e => hk e.symm
        simp only [Memory.read, if_neg hk']
        exact ih h.2

/-- The canonical form from a bound is the canonical form from a lower one. -/
theorem Memory.wfFrom_mono {lo lo' : Nat} {m : List Host.Cell} (h : Memory.wfFrom lo m = true) (hl : lo' ≤ lo) :
    Memory.wfFrom lo' m = true := by
  cases m with
  | nil => rfl
  | cons c m =>
    obtain ⟨k, b⟩ := c
    simp only [Memory.wfFrom, Bool.and_eq_true, decide_eq_true_eq] at h ⊢
    exact ⟨⟨⟨by omega, h.1.1.2⟩, h.1.2⟩, h.2⟩

theorem Memory.wfFrom_cons {lo a : Nat} {v : Byte} {m : List Host.Cell} (h : Memory.wfFrom (a + 1) m = true) (hl : lo ≤ a)
    (ha : a < 2 ^ 32) : Memory.wfFrom lo (Memory.cons a v m) = true := by
  unfold Memory.cons
  split
  · exact Memory.wfFrom_mono h (by omega)
  · next hv => simp only [Memory.wfFrom, Bool.and_eq_true, decide_eq_true_eq]; exact ⟨⟨⟨hl, ha⟩, hv⟩, h⟩

/-- A write keeps the canonical form. -/
theorem Memory.wfFrom_write {lo a : Nat} {v : Byte} {m : List Host.Cell} (h : Memory.wfFrom lo m = true) (hl : lo ≤ a)
    (ha : a < 2 ^ 32) : Memory.wfFrom lo (Memory.write m a v) = true := by
  induction m generalizing lo with
  | nil => exact Memory.wfFrom_cons rfl hl ha
  | cons c m ih =>
    obtain ⟨k, b⟩ := c
    have hm := h
    simp only [Memory.wfFrom, Bool.and_eq_true, decide_eq_true_eq] at h
    simp only [Memory.write]
    split
    · next hlt =>
      refine Memory.wfFrom_cons ?_ hl ha
      simp only [Memory.wfFrom, Bool.and_eq_true, decide_eq_true_eq]
      exact ⟨⟨⟨by omega, h.1.1.2⟩, h.1.2⟩, h.2⟩
    · split
      · next hk => subst hk; exact Memory.wfFrom_cons h.2 hl ha
      · next hlt hk =>
        simp only [Memory.wfFrom, Bool.and_eq_true, decide_eq_true_eq]
        exact ⟨h.1, ih h.2 (by omega)⟩

/-- A write keeps the canonical form of a memory. -/
theorem Memory.wf_write {m : List Host.Cell} {a : Nat} {v : Byte} (h : Memory.wf m = true) (ha : a < 2 ^ 32) :
    Memory.wf (Memory.write m a v) = true :=
  Memory.wfFrom_write h (Nat.zero_le a) ha

/-- A read after a write to the same address, in a memory in canonical form. -/
theorem Memory.read_write {m : List Host.Cell} {a : Nat} {v : Byte} (h : Memory.wf m = true) :
    Memory.read (Memory.write m a v) a = v :=
  Memory.read_write_same h

/-- Memory after reset has the canonical form. -/
theorem Memory.wf_resetOf (c : Params) : Memory.wf (State.resetOf c).dmem = true := rfl

/-- An admitted two-byte access lies in the 2^32 bytes of `DMEM`, on a machine with legal parameters. -/
theorem Params.admits_lt {c : Params} {a : Word} {n : Nat} (hc : c.dmemMap.all Region.inSpace = true)
    (h : c.admits a n = true) : a.toNat + n ≤ 2 ^ 32 := by
  simp only [Params.admits, Bool.and_eq_true, List.any_eq_true, Region.holds, decide_eq_true_eq] at h
  obtain ⟨-, r, hr, -, hin⟩ := h
  have := List.all_eq_true.mp hc r hr
  simp only [Region.inSpace, decide_eq_true_eq] at this
  omega

/-- What `memWrite` can do: the address is admitted and the two bytes are stored, low-order byte first. -/
theorem State.memWrite_eq_some {s t : State} {addr : Word} {v : BitVec 16} (h : s.memWrite addr v = some t) :
    s.cfg.admits addr 2 = true ∧
      t = { s with
        dmem := Memory.write (Memory.write s.dmem addr.toNat (v.extractLsb' 0 8)) (addr.toNat + 1) (v.extractLsb' 8 8) } := by
  unfold State.memWrite at h
  split at h
  · next ha => exact ⟨ha, (Option.some.inj h).symm⟩
  · cases h

/-- What `memRead` can do: the address is admitted and the byte at the lower address is the low-order byte. -/
theorem State.memRead_eq_some {s : State} {addr : Word} {v : BitVec 16} (h : s.memRead addr = some v) :
    s.cfg.admits addr 2 = true ∧ v = Memory.read s.dmem (addr.toNat + 1) ++ Memory.read s.dmem addr.toNat := by
  unfold State.memRead at h
  split at h
  · next ha => exact ⟨ha, (Option.some.inj h).symm⟩
  · cases h

/-- `memWrite` keeps the canonical form, on a machine with legal parameters. -/
theorem State.memWrite_wf {s t : State} {addr : Word} {v : BitVec 16} (hc : s.cfg.dmemMap.all Region.inSpace = true)
    (hm : Memory.wf s.dmem = true) (h : s.memWrite addr v = some t) : Memory.wf t.dmem = true := by
  obtain ⟨ha, rfl⟩ := State.memWrite_eq_some h
  have := Params.admits_lt hc ha
  exact Memory.wf_write (Memory.wf_write hm (by omega)) (by omega)

end Sys2Proof.Machine
end

