-- ==== Sys2Proof/Laws/Ops.lean ====
section
/-! SUPPORT. What each shared operation can do, said once. -/

namespace Sys2Proof.Machine

/-- A command step always answers a next state, and one of three: a check of rule R65 fails and its fault is raised; the command's own
rule raises a fault; the rule's effects are applied and an `IRQ` command wakes the foreground. -/
theorem runCommand_cases (i : Instr) (s : State) (body : Except FaultReport State) :
    (∃ f, s.admission i = some f ∧ runCommand i s body = .next (s.raiseFault f)) ∨
    (∃ f, s.admission i = none ∧ body = .error f ∧ runCommand i s body = .next (s.raiseFault f)) ∨
    (∃ t, s.admission i = none ∧ body = .ok t ∧ runCommand i s body = .next t.endCommand) := by
  unfold runCommand
  split
  · next f h => exact .inl ⟨f, h, rfl⟩
  · next h =>
    split
    · next f => exact .inr (.inl ⟨f, h, rfl, rfl⟩)
    · next t => exact .inr (.inr ⟨t, h, rfl, rfl⟩)

/-- A command step that passes the checks of rule R65 and whose rule applies. -/
theorem runCommand_ok {i : Instr} {s t : State} (h : s.admission i = none) : runCommand i s (.ok t) = .next t.endCommand := by
  simp [runCommand, h]

/-- A command step whose own rule raises a fault. -/
theorem runCommand_error {i : Instr} {s : State} {f : FaultReport} (h : s.admission i = none) :
    runCommand i s (.error f) = .next (s.raiseFault f) := by
  simp [runCommand, h]

/-- A command passes the checks of rule R65 (2) and (3) exactly when its context and instance allow it. -/
theorem State.admission_eq_none {s : State} {i : Instr} :
    s.admission i = none ↔ (s.ctx = .irq → allowedFromIrq i = true) ∧ s.instanceInRange i = true := by
  unfold State.admission
  cases h : s.ctx <;> cases h1 : allowedFromIrq i <;> cases h2 : s.instanceInRange i <;> simp

/-- A response to the caller, then the end of the command, is what `State.completed` says. -/
theorem State.respond_endCommand (s : State) (v : Word) : (s.respond v).endCommand = s.completed v := by
  cases h : s.ctx <;> simp [State.endCommand, State.respond, State.respondTo, State.completed, h]

/-- A handler step answers a next state or stops; a next state is a fault of the state before, or the result, awake. -/
theorem finishHandler_next {s t : State} {r : Result} (h : finishHandler s r = .next t) :
    (∃ u, r = .ok u ∧ t = { u with fgAsleep := false }) ∨ (∃ f, r = .raised f ∧ t = s.raiseFault f) := by
  cases r with
  | ok u => exact .inl ⟨u, rfl, by simpa [finishHandler] using h.symm⟩
  | raised f => exact .inr ⟨f, rfl, by simpa [finishHandler] using h.symm⟩
  | stopped r => simp [finishHandler] at h

theorem State.raiseFault_eq (s : State) (f : FaultReport) : s.raiseFault f = s.withFault f.code f.unit f.inst f.info := rfl

/-- Reading back the bus engine just written. -/
theorem State.busAt_setBus_same {s : State} {p : Nat} {u : BusUnit} (h : p < s.bus.length) : (s.setBus p u).busAt p = u := by
  simp [State.busAt, List.getD, h]

/-- Every other bus engine is as it was. -/
theorem State.busAt_setBus_other {s : State} {p p' : Nat} {u : BusUnit} (h : p' ≠ p) : (s.setBus p u).busAt p' = s.busAt p' := by
  simp [State.busAt, List.getD, List.getElem?_set_ne (Ne.symm h)]

/-- Reading back the serial engine just written. -/
theorem State.serAt_setSer_same {s : State} {p : Nat} {u : SerUnit} (h : p < s.ser.length) : (s.setSer p u).serAt p = u := by
  simp [State.serAt, List.getD, h]

/-- Every other serial engine is as it was. -/
theorem State.serAt_setSer_other {s : State} {p p' : Nat} {u : SerUnit} (h : p' ≠ p) : (s.setSer p u).serAt p' = s.serAt p' := by
  simp [State.serAt, List.getD, List.getElem?_set_ne (Ne.symm h)]

/-- Reading back the queue just written. -/
theorem State.queueAt_setQueue_same {s : State} {q : Nat} {u : QueueUnit} (h : q < s.queue.length) :
    (s.setQueue q u).queueAt q = u := by
  simp [State.queueAt, List.getD, h]

/-- Every other queue is as it was. -/
theorem State.queueAt_setQueue_other {s : State} {q q' : Nat} {u : QueueUnit} (h : q' ≠ q) :
    (s.setQueue q u).queueAt q' = s.queueAt q' := by
  simp [State.queueAt, List.getD, List.getElem?_set_ne (Ne.symm h)]

/-- An engine the machine has is one of the list. -/
theorem State.busAt_mem {s : State} {p : Nat} (h : p < s.bus.length) : s.busAt p ∈ s.bus := by
  simp [State.busAt, List.getD, h]

theorem State.serAt_mem {s : State} {p : Nat} (h : p < s.ser.length) : s.serAt p ∈ s.ser := by
  simp [State.serAt, List.getD, h]

theorem State.queueAt_mem {s : State} {q : Nat} (h : q < s.queue.length) : s.queueAt q ∈ s.queue := by
  simp [State.queueAt, List.getD, h]

/-- A raised and enabled flag belongs to an engine the machine has. -/
theorem State.enabled_bus_lt {s : State} {p : Nat} {k : BusFlag} (h : (s.busAt p).enabled k = true) : p < s.bus.length := by
  by_cases hp : p < s.bus.length
  · exact hp
  · have : s.busAt p = BusUnit.reset := by simp [State.busAt, List.getD, hp]
    rw [this] at h
    cases k <;> simp [BusUnit.enabled, BusUnit.reset, BusFlag.bit] at h

/-- A raised and enabled flag belongs to an engine the machine has. -/
theorem State.enabled_ser_lt {s : State} {p : Nat} {k : SerFlag} (h : (s.serAt p).enabled k = true) : p < s.ser.length := by
  by_cases hp : p < s.ser.length
  · exact hp
  · have : s.serAt p = SerUnit.reset s.cfg := by simp [State.serAt, List.getD, hp]
    rw [this] at h
    cases k <;> simp [SerUnit.enabled, SerUnit.reset, SerFlag.bit] at h

/-- What a fetch can hand over: a command is the decoder's, from the port of its tag, which takes it now. -/
theorem fetchCommand_command {s t : State} {c : Ctx} {i : Instr} (h : fetchCommand s c = .command i t) :
    s.accepts c = true ∧ ∃ rest, decode s.cfg.evtW (s.portWords c) = .ok (i, rest) ∧ t = s.takeFrom c rest := by
  unfold fetchCommand at h
  split at h
  · next ha =>
    split at h <;> simp_all
  · cases h

/-- A beginning of a transmission raises the sleep overflow or applies rule R112. -/
theorem serBegin_cases (p : Nat) (bytes : List Byte) (s : State) :
    (s.blockFull s.cfg.serDepth = true ∧ serBegin p bytes s = .error (faultSleepOverflow s.cfg.serDepth)) ∨
    (s.blockFull s.cfg.serDepth = false ∧ serBegin p bytes s = .ok (serEffects p bytes s)) := by
  unfold serBegin
  cases h : s.blockFull s.cfg.serDepth <;> simp

/-- A step is the step its first move names, of a CORE that is not halted. -/
theorem step_move {s : State} {m : Move} {rest : List Move} (hh : s.faultCode = .noFault) (hm : s.moves = m :: rest) :
    step s = moveStep m { s with moves := rest } := by
  simp [step, State.halted, hh, hm]

/-- A step that answers a next state is of a CORE that is not halted: at rest, or the step its first move names. -/
theorem step_next {s t : State} (h : step s = .next t) :
    s.faultCode = .noFault ∧ ((s.moves = [] ∧ t = s) ∨ ∃ m rest, s.moves = m :: rest ∧ moveStep m { s with moves := rest } = .next t) := by
  unfold step at h
  split at h
  · cases h
  · next hh =>
    refine ⟨by simpa [State.halted] using hh, ?_⟩
    split at h
    · next hm => exact .inl ⟨hm, by simpa using h.symm⟩
    · next m rest hm => exact .inr ⟨m, rest, hm, h⟩

end Sys2Proof.Machine
end

