-- ==== Sys2Proof/Laws/Boot.lean ====
section
/-! SUPPORT. The boot run: its first step, its last step, and what it is of the machine's own run. -/

namespace Sys2Proof.Machine

@[simp] theorem State.bootRun_zero (s : State) : s.bootRun 0 = some s := rfl

/-- A boot run that goes on takes a step the boot admits, to a next state, and goes on from there. -/
theorem State.bootRun_succ {n : Nat} {s t : State} :
    s.bootRun (n + 1) = some t ↔ s.bootAdmits = true ∧ ∃ u, step s = .next u ∧ u.bootRun n = some t := by
  rw [State.bootRun]
  cases hb : s.bootAdmits <;> cases hs : step s <;> simp

/-- Two boot runs, one after the other, are one. -/
theorem State.bootRun_add {m n : Nat} {s t u : State} (h1 : s.bootRun m = some t) (h2 : t.bootRun n = some u) :
    s.bootRun (m + n) = some u := by
  induction m generalizing s with
  | zero =>
    obtain rfl : s = t := by simpa using h1
    simpa using h2
  | succ m ih =>
    obtain ⟨hb, v, hv, hr⟩ := State.bootRun_succ.1 h1
    rw [Nat.add_right_comm]
    exact State.bootRun_succ.2 ⟨hb, v, hv, ih hr⟩

/-- What every admitted step keeps, a boot run keeps. -/
theorem State.bootRun_keeps {P : State → Prop} (hP : ∀ s t, s.bootAdmits = true → step s = .next t → P s → P t) {n : Nat} {s t : State}
    (h : s.bootRun n = some t) (hs : P s) : P t := by
  induction n generalizing s with
  | zero =>
    obtain rfl : s = t := by simpa using h
    exact hs
  | succ n ih =>
    obtain ⟨hb, u, hu, hr⟩ := State.bootRun_succ.1 h
    exact ih hr (hP s u hb hu hs)

/-- A boot run is a run of the machine. -/
theorem State.run_of_bootRun {n : Nat} {s t : State} (h : s.bootRun n = some t) : Sys2Proof.core.run n s = .next t := by
  induction n generalizing s with
  | zero =>
    obtain rfl : s = t := by simpa using h
    rfl
  | succ n ih =>
    obtain ⟨-, u, hu, hr⟩ := State.bootRun_succ.1 h
    have hc : Sys2Proof.core.step s = .next u := hu
    simp only [Host.Core.run, hc]
    exact ih hr

end Sys2Proof.Machine
end

