-- ==== Sys2Proof/Laws/Counters.lean ====
section
/-! SUPPORT. What the block counters, the event masks, the floor and the start of a transmission can do, said once. -/

namespace Sys2Proof.Machine

/-- The bounds of the parameters that the rules rely on (00_scope.md rule R9). -/
theorem Params.legal_bounds {c : Params} (h : c.legal = true) :
    c.evtW ≤ 32 ∧ 2 ≤ c.nDepth ∧ c.nDepth ≤ 255 ∧ c.blockMax ≤ 255 ∧ c.busDepth < c.nDepth ∧ c.serDepth < c.nDepth
      ∧ c.txCap ≤ 65535 ∧ c.diagCap ≤ 65535 := by
  simp [Params.legal] at h
  omega

/-- Legal regions lie in the 2^32 bytes of `DMEM`. -/
theorem Params.legal_map {c : Params} (h : c.legal = true) : c.dmemMap.all Region.inSpace = true := by
  simp only [Params.legal, Bool.and_eq_true] at h
  exact h.1.1.2

/-- A counter below the bound takes one more block. -/
theorem State.blockFull_eq_false {s : State} {d : Nat} (h : (s.cntAt d).toNat < s.cfg.blockMax) : s.blockFull d = false := by
  simp [State.blockFull]
  omega

/-- A counter at the bound takes none. -/
theorem State.blockFull_eq_true {s : State} {d : Nat} (h : s.cfg.blockMax ≤ (s.cntAt d).toNat) : s.blockFull d = true := by
  simp [State.blockFull]
  omega

/-- Writing counter `d` writes no other. -/
theorem State.cntAt_set {s t : State} {d : Nat} {v : BitVec 8} (hd : d < s.cnt.length) (ht : t.cnt = s.cnt.set d v) :
    t.cntAt d = v ∧ ∀ d', d' ≠ d → t.cntAt d' = s.cntAt d' := by
  constructor
  · simp [State.cntAt, ht, hd]
  · intro d' h
    simp [State.cntAt, ht, List.getElem?_set_ne (Ne.symm h)]

/-- A block below the bound counts one more, whatever else the step does to the other elements. -/
theorem State.block_counts {s t : State} {d : Nat} (hl : s.cfg.legal = true) (hd : d < s.cnt.length)
    (h : (s.cntAt d).toNat < s.cfg.blockMax) (ht : t.cnt = (s.block d).cnt) : s.CountsOneMore t d := by
  have := (Params.legal_bounds hl).2.2.2.1
  obtain ⟨h1, h2⟩ := State.cntAt_set hd (show t.cnt = s.cnt.set d (s.cntAt d + 1#8) from ht)
  refine ⟨?_, h2⟩
  rw [h1]
  bv_omega

/-- An unblock counts one less, nothing at 0, whatever else the step does to the other elements. -/
theorem State.unblock_counts {s t : State} {d : Nat} (hd : d < s.cnt.length) (ht : t.cnt = (s.unblock d).cnt) :
    s.CountsOneLess t d := by
  unfold State.unblock at ht
  split at ht
  · obtain ⟨h1, h2⟩ := State.cntAt_set hd (show t.cnt = s.cnt.set d (s.cntAt d - 1#8) from ht)
    refine ⟨?_, h2⟩
    rw [h1]
    bv_omega
  · next hz =>
    have hz : s.cntAt d = 0#8 := by simpa using hz
    have hx : ∀ x, t.cntAt x = s.cntAt x := fun x => by simp [State.cntAt, ht]
    exact ⟨by rw [hx, hz]; rfl, fun x _ => hx x⟩

/-- An unblock writes the counters only. -/
theorem State.unblock_eq (s : State) (d : Nat) : s.unblock d = { s with cnt := (s.unblock d).cnt } := by
  unfold State.unblock
  split <;> rfl

/-- The mask an operand word carries is the word, where it has no bit at or above `EVT_W`. -/
theorem State.eventMask_eq {s : State} {m : Word} (hw : s.cfg.evtW ≤ 32) (h : fitsIn s.cfg.evtW m = true) : s.eventMask m = m := by
  simp only [fitsIn, decide_eq_true_eq] at h
  unfold State.eventMask
  apply BitVec.eq_of_toNat_eq
  have : 2 ^ s.cfg.evtW ≤ 2 ^ 32 := Nat.pow_le_pow_right (by omega) hw
  rw [BitVec.toNat_and, BitVec.toNat_ofNat, Nat.mod_eq_of_lt (by omega), Nat.and_two_pow_sub_one_eq_mod, Nat.mod_eq_of_lt h]

/-- Either every counter is 0, or the shallowest one that is not is found. -/
theorem State.shallowestBlocked_cases {s : State} (hs : s.cnt.length = s.cfg.nDepth) :
    ((∀ d, d < s.cfg.nDepth → s.cntAt d = 0#8) ∧ shallowestBlocked s.cnt = none) ∨
    (∃ d, d < s.cfg.nDepth ∧ s.cntAt d ≠ 0#8 ∧ (∀ d', d' < d → s.cntAt d' = 0#8) ∧ shallowestBlocked s.cnt = some d) := by
  cases h : shallowestBlocked s.cnt with
  | none =>
    simp [shallowestBlocked] at h
    refine .inl ⟨fun d hd => ?_, rfl⟩
    have := h (s.cnt[d]'(by omega)) (by simp)
    simp [State.cntAt, List.getElem?_eq_getElem (show d < s.cnt.length by omega), this]
  | some d =>
    simp [shallowestBlocked, List.findIdx?_eq_some_iff_getElem] at h
    obtain ⟨h1, h2, h3⟩ := h
    refine .inr ⟨d, by omega, ?_, fun d' hd' => ?_, rfl⟩
    · simpa [State.cntAt, h1] using h2
    · simpa [State.cntAt, List.getElem?_eq_getElem (show d' < s.cnt.length by omega)] using h3 d' hd'

/-- The record a start leaves (43_serial_tx.md rule R112). -/
theorem SerUnit.start_eq (u : SerUnit) (bytes : List Byte) : u.start bytes = { u with
    txbuf := bytes ++ u.txbuf.drop bytes.length, txLen := BitVec.ofNat 16 bytes.length, txIdx := 0#16
    serState := .init, serBusy := true, stxen := true, sien := u.sien ||| 0b01#2 } := by
  simp [SerUnit.start, SerUnit.enableFlag, setBit, SerFlag.bit]

/-- What the effects of a start do to the counters, the engine and the others (rule R112). -/
theorem serEffects_effects {s : State} {p : Nat} {bytes : List Byte} (hl : s.cfg.legal = true) (hs : s.ShapeOk) (hp : p < s.cfg.nSer)
    (hc : (s.cntAt s.cfg.serDepth).toNat < s.cfg.blockMax) :
    serEffects p bytes s = { s with
        ser := (serEffects p bytes s).ser, cnt := (serEffects p bytes s).cnt, act := s.act ++ [.serTxen p], fgHeld := .none }
      ∧ (serEffects p bytes s).serAt p = (s.serAt p).start bytes ∧ s.OtherSersKept (serEffects p bytes s) p
      ∧ s.CountsOneMore (serEffects p bytes s) s.cfg.serDepth := by
  have hser : (serEffects p bytes s).ser = s.ser.set p ((s.serAt p).start bytes) := rfl
  have hcfg : (serEffects p bytes s).cfg = s.cfg := rfl
  have hlt : p < s.ser.length := by rw [hs.2.2.1]; exact hp
  refine ⟨rfl, ?_, ⟨by simp [hser], fun q h => ?_⟩, ?_⟩
  · unfold State.serAt at hser ⊢
    rw [hser]
    simp [hlt]
  · unfold State.serAt at hser ⊢
    rw [hser, hcfg]
    simp [List.getElem?_set_ne (Ne.symm h)]
  · exact State.block_counts hl (by rw [hs.1]; exact (Params.legal_bounds hl).2.2.2.2.2.1) hc rfl

/-- A list one of whose read entries has a property, which the value read past its end has not, counts at least one such entry. -/
theorem one_le_countP_of_getD {α : Type} {l : List α} {q : α → Bool} {n : Nat} {d : α} (hd : q d = false)
    (h : q (l.getD n d) = true) : 1 ≤ l.countP q := by
  rw [List.getD_eq_getElem?_getD] at h
  rcases hn : l[n]? with _ | a
  · simp [hn, hd] at h
  · exact List.countP_pos_iff.2 ⟨a, List.mem_of_getElem? hn, by simpa [hn] using h⟩

/-- Where every busy engine's block is counted, a busy bus engine has its depth blocked (10_state.md rule R38 item 6). -/
theorem State.BlocksHeld.bus {s : State} (hl : s.cfg.legal = true) (hs : s.BlocksHeld) {p : Nat}
    (h : (s.busAt p).busBusy = true) : 1 ≤ (s.cntAt s.cfg.busDepth).toNat := by
  have h1 := hs _ (Params.legal_bounds hl).2.2.2.2.1
  have h2 : 1 ≤ s.bus.countP (fun u => u.busBusy) := one_le_countP_of_getD (n := p) (d := BusUnit.reset) rfl h
  simp only [State.blocksOwed, if_true] at h1
  omega

/-- The same of a busy serial engine. -/
theorem State.BlocksHeld.ser {s : State} (hl : s.cfg.legal = true) (hs : s.BlocksHeld) {p : Nat}
    (h : (s.serAt p).serBusy = true) : 1 ≤ (s.cntAt s.cfg.serDepth).toNat := by
  have h1 := hs _ (Params.legal_bounds hl).2.2.2.2.2.1
  have h2 : 1 ≤ s.ser.countP (fun u => u.serBusy) := one_le_countP_of_getD (n := p) (d := SerUnit.reset s.cfg) rfl h
  simp only [State.blocksOwed, if_true] at h1
  omega

end Sys2Proof.Machine
end

