-- ==== Sys2Proof/Laws/PerInstr.lean ====
section
/-! SUPPORT. A fact for every command, proved constructor by constructor: its header lies in its own row of the opcode map
(30_encoding.md rule R63); and the number of words a payload is packed in (rule R60). -/

namespace Sys2Proof

/-- `ceil((n + 4)/4)` is one more than `ceil(n/4)`. -/
theorem payloadWords_add_four (n : Nat) : payloadWords (n + 4) = payloadWords n + 1 := by
  unfold payloadWords; omega

/-- A payload of n bytes is packed in ceil(n/4) words (rule R60). -/
theorem packBytes_length (bytes : List Byte) : (packBytes bytes).length = payloadWords bytes.length := by
  match bytes with
  | [] => rfl
  | [_] => simp [packBytes, payloadWords]
  | [_, _] => simp [packBytes, payloadWords]
  | [_, _, _] => simp [packBytes, payloadWords]
  | _ :: _ :: _ :: _ :: rest => simp [packBytes, packBytes_length rest, payloadWords_add_four]

namespace Laws.HeaderRow

/-- The header of `i` selects the row of `i`: `h & mask = match` (rule R63). -/
def Statement (i : Instr) : Prop := i.header &&& i.opcode.maskWord = i.opcode.matchWord

/-- A header whose mask covers every bit. -/
theorem fixed {i : Instr} (h : i.header = i.opcode.matchWord) (hm : i.opcode.maskWord = BitVec.allOnes 32) : Statement i := by
  unfold Statement; rw [h, hm, BitVec.and_allOnes]

theorem schedOpen : Statement .schedOpen := fixed (by decide) (by decide)

theorem schedPost (m : Word) : Statement (.schedPost m) := fixed rfl rfl

theorem schedClear (m : Word) : Statement (.schedClear m) := fixed rfl rfl

theorem schedPoll : Statement .schedPoll := fixed (by decide) (by decide)

theorem arbOpen : Statement .arbOpen := fixed (by decide) (by decide)

theorem arbBlock (d : Byte) : Statement (.arbBlock d) := by
  revert d
  unfold Statement
  decide

theorem arbUnblock (d : Byte) : Statement (.arbUnblock d) := by
  revert d
  unfold Statement
  decide

theorem arbFloor : Statement .arbFloor := fixed (by decide) (by decide)

theorem arbEnter : Statement .arbEnter := fixed (by decide) (by decide)

theorem busStart (p : BitVec 4) (addr : BitVec 7) (cmd : Byte) (dir : Dir) (count : BitVec 4) (dest ev : Word) :
    Statement (.busStart p addr cmd dir count dest ev) := by
  show headerWord 2#4 0#4 p (busArg count dir addr cmd) &&& 0xFF000000#32 = 0x20000000#32
  unfold headerWord busArg
  ext i hi
  simp only [BitVec.getElem_and, BitVec.getElem_append]
  interval_cases i <;> simp

theorem busBusy (p : BitVec 4) : Statement (.busBusy p) := by
  revert p
  unfold Statement
  decide

theorem busReset (p : BitVec 4) : Statement (.busReset p) := by
  revert p
  unfold Statement
  decide

theorem serStart (p : BitVec 4) (bytes : List Byte) : Statement (.serStart p bytes) := by
  show headerWord 3#4 0#4 p (lenArg bytes.length) &&& 0xFF0F0000#32 = 0x30000000#32
  unfold headerWord lenArg
  ext i hi
  simp only [BitVec.getElem_and, BitVec.getElem_append]
  interval_cases i <;> simp

theorem serBusy (p : BitVec 4) : Statement (.serBusy p) := by
  revert p
  unfold Statement
  decide

theorem qOpen (q : BitVec 4) : Statement (.qOpen q) := by
  revert q
  unfold Statement
  decide

theorem qPush (q : BitVec 4) (bytes : List Byte) : Statement (.qPush q bytes) := by
  show headerWord 4#4 1#4 q (lenArg bytes.length) &&& 0xFF0F0000#32 = 0x41000000#32
  unfold headerWord lenArg
  ext i hi
  simp only [BitVec.getElem_and, BitVec.getElem_append]
  interval_cases i <;> simp

theorem qPop (q : BitVec 4) (diag : Bool) : Statement (.qPop q diag) := by
  revert q diag
  unfold Statement
  decide

theorem qFree (q : BitVec 4) : Statement (.qFree q) := by
  revert q
  unfold Statement
  decide

end Laws.HeaderRow

end Sys2Proof
end

