-- ==== Sys2Proof/Tests/Slice0.lean ====
section
/-! SUPPORT. Tests: what the well-formedness checks refuse, decoding from words written out by hand (30_encoding.md rules R59, R63, R67
and R72), one step of each command from the worked examples of spec/, and a witness of the hypotheses of every statement. -/

open Sys2Proof Sys2Proof.Machine

namespace Sys2Proof.Tests

/-- The state a command or step leaves. -/
def after : Out → Option State
  | .next s => some s
  | .fault _ => none
  | .refused _ => none

/-- A small machine at every small limit: two engines of each kind, rings of 8, buffers of 4, two retries. -/
def small : Params where
  evtW := 8
  nDepth := 5
  blockMax := 2
  shallowDepth := 1
  busDepth := 2
  serDepth := 3
  nBus := 2
  nSer := 2
  qcap := 8
  txCap := 4
  diagCap := 4
  rptNackLimit := some 2
  dmemMap := [{ base := 0, size := 2 ^ 32 }]
  evtTxDone := [0x04#32, 0x08#32]

/-- The small machine after reset. -/
def s0 : State := State.resetOf small

/-- Engine 1 of the small machine in a read transaction of the last word of memory. -/
def reading (st : BusState) (flags : BitVec 4) : BusUnit :=
  { BusUnit.reset with
    recAddr := 0x40#7, recDir := .read, recCmd := 0xE3#8, recDest := 0xFFFFFFFE#32, recCount := 2#4, recEvt := 0x10#32
    busState := st, busBusy := true, bien := 0b1111#4, bifReg := flags, brxdata := 0xAB#8 }

/-- The small machine with this bus engine 1. -/
def withBus (u : BusUnit) : State := { s0 with bus := [BusUnit.reset, u], cnt := [0#8, 0#8, 1#8, 0#8, 0#8] }

/-- Engine 1 of the small machine sending "hi". -/
def sending (st : SerState) (idx : BitVec 16) (enables flags : BitVec 2) : SerUnit :=
  { SerUnit.reset small with
    txbuf := [0x68#8, 0x69#8, 0#8, 0#8], txLen := 2#16, txIdx := idx, serState := st, serBusy := true, sien := enables, sifReg := flags
    stxen := true }

/-- The small machine with this serial engine 1. -/
def withSer (u : SerUnit) : State := { s0 with ser := [SerUnit.reset small, u], cnt := [0#8, 0#8, 0#8, 1#8, 0#8] }

/-- Queue 1 of the small machine with these bytes and indices. -/
def withQueue (bytes : List Byte) (rd wr : Nat) : State :=
  { s0 with queue := [QueueUnit.reset small, { QueueUnit.reset small with qbuf := bytes, qrd := rd, qwr := wr }] }

/-- A queue that holds the payloads "hi" and "x", around the end of the ring. -/
def twoFrames : State := withQueue [0x69#8, 2#8, 0x78#8, 0#8, 0#8, 0#8, 3#8, 0x68#8] 6 3

/-! Well-formedness refuses -/

theorem test_wf_post_mask : (Instr.schedPost 0x100#32).wellFormed 8 = false := by decide
theorem test_wf_clear_mask : (Instr.schedClear 0x80000000#32).wellFormed 31 = false := by decide
theorem test_wf_start_mask : (Instr.busStart 0#4 0#7 0#8 .read 2#4 0#32 0x100#32).wellFormed 8 = false := by decide
theorem test_wf_ser_payload (bytes : List Byte) (h : bytes.length = 65536) : (Instr.serStart 0#4 bytes).wellFormed 32 = false := by
  simp [Instr.wellFormed, Instr.payloadFits, h]
theorem test_wf_push_payload (bytes : List Byte) (h : bytes.length = 65536) : (Instr.qPush 0#4 bytes).wellFormed 32 = false := by
  simp [Instr.wellFormed, Instr.payloadFits, h]

/-! Decoding, from words written out by rules R59 to R63 -/

theorem test_decode_schedOpen : decode 32 [0x00000000#32] = .ok (.schedOpen, []) := rfl
theorem test_decode_schedPost : decode 32 [0x01000000#32, 0x00000005#32] = .ok (.schedPost 0x5#32, []) := rfl
theorem test_decode_schedClear : decode 32 [0x02000000#32, 0x80000000#32] = .ok (.schedClear 0x80000000#32, []) := rfl
theorem test_decode_schedPoll : decode 32 [0x03000000#32, 0x1#32] = .ok (.schedPoll, [0x1#32]) := rfl
theorem test_decode_arbOpen : decode 32 [0x10000000#32] = .ok (.arbOpen, []) := rfl
theorem test_decode_arbBlock : decode 32 [0x110000FF#32] = .ok (.arbBlock 0xFF#8, []) := rfl
theorem test_decode_arbUnblock : decode 32 [0x12000003#32] = .ok (.arbUnblock 3#8, []) := rfl
theorem test_decode_arbFloor : decode 32 [0x13000000#32] = .ok (.arbFloor, []) := rfl
theorem test_decode_arbEnter : decode 32 [0x14000000#32] = .ok (.arbEnter, []) := rfl
/-- The fields of format B at bits 23:20, 19:16, 15, 14:8 and 7:0: instance 1, count 2, read, address 0x40, command 0xE3. -/
theorem test_decode_busStart : decode 32 [0b00100000000100101100000011100011#32, 0x20000100#32, 0x1#32]
    = .ok (.busStart 1#4 0x40#7 0xE3#8 .read 2#4 0x20000100#32 0x1#32, []) := rfl
theorem test_decode_busStart_write : decode 32 [0x200100FF#32, 0x0#32, 0x0#32]
    = .ok (.busStart 0#4 0x00#7 0xFF#8 .write 1#4 0x0#32 0x0#32, []) := rfl
theorem test_decode_busBusy : decode 32 [0x21300000#32] = .ok (.busBusy 3#4, []) := rfl
theorem test_decode_busReset : decode 32 [0x22F00000#32] = .ok (.busReset 15#4, []) := rfl
theorem test_decode_serStart : decode 32 [0x30000002#32, 0x00006968#32] = .ok (.serStart 0#4 [0x68#8, 0x69#8], []) := rfl
theorem test_decode_serBusy : decode 32 [0x31100000#32] = .ok (.serBusy 1#4, []) := rfl
theorem test_decode_qOpen : decode 32 [0x40200000#32] = .ok (.qOpen 2#4, []) := rfl
theorem test_decode_qPush : decode 32 [0x41000005#32, 0x6C6C6568#32, 0x0000006F#32]
    = .ok (.qPush 0#4 [0x68#8, 0x65#8, 0x6C#8, 0x6C#8, 0x6F#8], []) := rfl
theorem test_decode_qPush_empty : decode 32 [0x41100000#32, 0x1#32] = .ok (.qPush 1#4 [], [0x1#32]) := rfl
theorem test_decode_qPop : decode 32 [0x42000000#32] = .ok (.qPop 0#4 false, []) := rfl
theorem test_decode_qPop_diag : decode 32 [0x42000001#32] = .ok (.qPop 0#4 true, []) := rfl
theorem test_decode_qFree : decode 32 [0x43100000#32] = .ok (.qFree 1#4, []) := rfl

theorem test_refuse_unit : decode 32 [0x50000000#32] = .error (.reservedUnit 0x50000000#32) := rfl
theorem test_refuse_op : decode 32 [0x15000000#32] = .error (.unlistedOp 0x15000000#32) := rfl
theorem test_refuse_inst : decode 32 [0x11100003#32] = .error (.reservedBit 0x11100003#32) := rfl
theorem test_refuse_reserved : decode 32 [0x42000002#32] = .error (.reservedBit 0x42000002#32) := rfl
theorem test_refuse_mask : decode 8 [0x01000000#32, 0x100#32] = .error (.maskAboveEvtW 0x01000000#32) := rfl
theorem test_refuse_padding : decode 32 [0x30000001#32, 0x6968#32] = .error (.paddingNonzero 0x30000001#32) := rfl
theorem test_incomplete : decode 32 [0x41000005#32, 0x6C6C6568#32] = .error .incomplete := rfl

theorem test_tableWord_post : decodeTableWord 32 0x01000000 = some (.schedPost 0#32) := by decide
theorem test_tableWord_push : decodeTableWord 64 0x0000696841000002 = some (.qPush 0#4 [0x68#8, 0x69#8]) := by decide
theorem test_fetchWord : (after (step (State.reset.withFetchWord 32 0x11000003))).map (·.cnt) = some [0#8, 0#8, 0#8, 1#8, 0#8] := by decide

/-- The event words of rule R67. -/
theorem test_events :
    decodeEvent small 0x20100000#32 = some (.busAck 1#4) ∧ decodeEvent small 0x21000000#32 = some (.busNack 0#4)
    ∧ decodeEvent small 0x221000AB#32 = some (.busRx 1#4 0xAB#8) ∧ decodeEvent small 0x23000000#32 = some (.busMstop 0#4)
    ∧ decodeEvent small 0x24000001#32 = some (.busIdle 0#4 true) ∧ decodeEvent small 0x24000002#32 = none
    ∧ decodeEvent small 0x30100000#32 = some (.serTxbl 1#4) ∧ decodeEvent small 0x31000000#32 = some (.serTxc 0#4)
    ∧ decodeEvent small 0x20200000#32 = none ∧ decodeEvent small 0x20000100#32 = none := by decide

/-! One step of each command: the worked examples of the rules -/

/-- Example of R74. -/
theorem test_schedOpen : (after (exec .schedOpen { s0 with pending := 0x13#32 })).map (·.pending) = some 0#32 := by decide
/-- Example of R75. -/
theorem test_schedPost : (after (exec (.schedPost 0x4#32) { s0 with pending := 0x1#32 })).map (·.pending) = some 0x5#32 := by decide
/-- Example of R76. -/
theorem test_schedClear : (after (exec (.schedClear 0x1#32) { s0 with pending := 0x5#32 })).map (·.pending) = some 0x4#32 := by decide
/-- R137: not from interrupt context. -/
theorem test_schedClear_irq : (after (exec (.schedClear 0x1#32) { s0 with ctx := .irq })).map (fun t => (t.faultCode, t.faultInfo))
    = some (.context, 0x02000000#32) := by decide
/-- Example of R77. -/
theorem test_schedPoll : (after (exec .schedPoll { s0 with pending := 0x4#32 })).map (·.resp) = some [⟨.fg, 0x4#32⟩] := by decide
/-- Example of R81. -/
theorem test_arbOpen : (after (exec .arbOpen { s0 with cnt := [0#8, 0#8, 1#8, 2#8, 0#8] })).map (·.cnt)
    = some [0#8, 0#8, 0#8, 0#8, 0#8] := by decide
/-- Example of R82, with the vector default bound 4. -/
theorem test_arbBlock : (after (exec (.arbBlock 2#8) { State.reset with cnt := [0#8, 0#8, 3#8, 0#8, 0#8] })).map (·.cnt)
    = some [0#8, 0#8, 4#8, 0#8, 0#8] := by decide
theorem test_arbBlock_full : (after (exec (.arbBlock 2#8) { State.reset with cnt := [0#8, 0#8, 4#8, 0#8, 0#8] })).map
    (fun t => (t.faultCode, t.faultUnit, t.faultInfo, t.cnt)) = some (.sleepOverflow, 1#4, 2#32, [0#8, 0#8, 4#8, 0#8, 0#8]) := by decide
/-- Example of R83. -/
theorem test_arbUnblock : (after (exec (.arbUnblock 3#8) { s0 with cnt := [0#8, 0#8, 0#8, 1#8, 0#8] })).map (·.cnt)
    = some [0#8, 0#8, 0#8, 0#8, 0#8] := by decide
theorem test_arbUnblock_zero : (after (exec (.arbUnblock 3#8) s0)).map (fun t => (t.cnt, t.faultCode))
    = some ([0#8, 0#8, 0#8, 0#8, 0#8], .noFault) := by decide
/-- Examples of R85. -/
theorem test_arbFloor : (after (exec .arbFloor { s0 with cnt := [0#8, 0#8, 1#8, 2#8, 0#8] })).map (·.resp) = some [⟨.fg, 2#32⟩] := by decide
theorem test_arbFloor_none : (after (exec .arbFloor s0)).map (·.resp) = some [⟨.fg, 4#32⟩] := by decide
/-- R87: the depth just above the floor. -/
theorem test_arbEnter : (after (exec .arbEnter { s0 with cnt := [0#8, 0#8, 0#8, 2#8, 0#8] })).map (fun t => (t.act, t.fgDepth, t.fgAsleep))
    = some ([.cpuSleep 2], 2#8, true) := by decide
theorem test_arbEnter_shallow : (after (exec .arbEnter { s0 with cnt := [0#8, 0#8, 1#8, 0#8, 0#8] })).map (fun t => (t.act, t.resp, t.fgAsleep))
    = some ([], [⟨.fg, 1#32⟩], false) := by decide
/-- R94: the actions and the block. -/
theorem test_busStart : (after (exec (.busStart 0#4 0x40#7 0xE3#8 .read 2#4 0x20000100#32 0x1#32) s0)).map (fun t => (t.act, t.cnt))
    = some ([.busAutoackOff 0, .busTxdata 0 0x80#8, .busStart 0], [0#8, 0#8, 1#8, 0#8, 0#8]) := by decide
/-- R95: the write direction. -/
theorem test_busStart_write : (after (exec (.busStart 0#4 0x40#7 0xE3#8 .write 2#4 0x20000100#32 0x1#32) s0)).map (·.faultCode)
    = some .unsupported := by decide
/-- Example of R96. -/
theorem test_busBusy : (after (exec (.busBusy 1#4) (withBus (reading .sendCommand 0#4)))).map (·.resp) = some [⟨.fg, 1#32⟩] := by decide
/-- Example of R97. -/
theorem test_busReset : (after (exec (.busReset 0#4) s0)).map (fun t => (t.act, t.fgHeld, t.resp))
    = some ([.busAbort 0, .busCleartx 0, .busStart 0, .busStop 0], .busReset 0, []) := by decide
/-- Example of R112. -/
theorem test_serStart : (after (exec (.serStart 0#4 [0x68#8, 0x69#8]) s0)).map (fun t => (t.act, t.cnt, (t.serAt 0).sien))
    = some ([.serTxen 0], [0#8, 0#8, 0#8, 1#8, 0#8], 0b01#2) := by decide
/-- R111: held while busy. -/
theorem test_serStart_held : (after (exec (.serStart 1#4 [0x78#8]) (withSer (sending .init 0#16 0b01#2 0#2)))).map
    (fun t => (t.fgHeld, t.resp)) = some (.serStart 1 [0x78#8], []) := by decide
/-- Example of R113. -/
theorem test_serBusy : (after (exec (.serBusy 1#4) (withSer (sending .init 0#16 0b01#2 0#2)))).map (·.resp) = some [⟨.fg, 1#32⟩] := by decide
/-- R123. -/
theorem test_qOpen : (after (exec (.qOpen 1#4) twoFrames)).map (fun t => ((t.queueAt 1).qrd, (t.queueAt 1).qwr)) = some (0, 0) := by decide
/-- R124: the frame "xy" around the end of the ring. -/
theorem test_qPush : (after (exec (.qPush 1#4 [0x78#8, 0x79#8]) (withQueue (List.replicate 8 0#8) 6 6))).map
    (fun t => ((t.queueAt 1).qbuf, (t.queueAt 1).qwr)) = some ([0x79#8, 0#8, 0#8, 0#8, 0#8, 0#8, 3#8, 0x78#8], 1) := by decide
theorem test_qPush_overflow : (after (exec (.qPush 1#4 [1#8, 2#8, 3#8]) twoFrames)).map (fun t => (t.faultCode, t.faultUnit, t.faultInst, t.faultInfo))
    = some (.queueOverflow, 4#4, 1#4, 3#32) := by decide
/-- R125, both modes. -/
theorem test_qPop : (after (exec (.qPop 1#4 false) twoFrames)).map (fun t => ((t.serAt 1).txbuf, (t.serAt 1).txLen, (t.queueAt 1).qrd, t.act))
    = some ([0x68#8, 0x69#8, 0#8, 0#8], 2#16, 1, [.serTxen 1]) := by decide
theorem test_qPop_diag : (after (exec (.qPop 1#4 true) twoFrames)).map (fun t => ((t.queueAt 1).diagbuf, (t.queueAt 1).diagLen, t.act))
    = some ([0x68#8, 0x69#8, 0#8, 0#8], 2#16, []) := by decide
/-- R126. -/
theorem test_qFree : (after (exec (.qFree 1#4) twoFrames)).map (·.resp) = some [⟨.fg, 3#32⟩] := by decide
/-- Examples of R104 and R105: the word `0xABCD`. -/
theorem test_busStoreHigh : (after (busHandler 1 .rxdatav (withBus (reading .readMsByte 0b0100#4)))).map (·.dmem)
    = some [(0xFFFFFFFF, 0xAB#8)] := by decide
theorem test_busMergeLow : (after (busHandler 1 .rxdatav
    { withBus { reading .readLs 0b0100#4 with brxdata := 0xCD#8 } with dmem := [(0xFFFFFFFF, 0xAB#8)] })).map (·.dmem)
    = some [(0xFFFFFFFE, 0xCD#8), (0xFFFFFFFF, 0xAB#8)] := by decide
/-- R107: NACK in `INIT_SEND_ADDR`. -/
theorem test_busProtocol : (after (busHandler 1 .nack (withBus (reading .initSendAddr 0b0010#4)))).map
    (fun t => (t.faultCode, t.faultUnit, t.faultInst, t.faultInfo)) = some (.busProtocol, 2#4, 1#4, 0x100#32) := by decide

/-! Witnesses: a state and operands that meet the hypotheses of each statement, a clause at a time -/

/-- The small machine with one block of every depth at its bound. -/
def full : State := { s0 with cnt := [2#8, 2#8, 2#8, 2#8, 2#8] }

theorem witness_DecodeReadsBackEncode : (Instr.schedPost 0xFF#32).wellFormed 8 = true ∧ (Instr.serStart 15#4 [0xFF#8]).wellFormed 1 = true := by
  decide
theorem witness_EncodeReadsBackDecode : decode 8 [0x01000000#32, 0xFF#32, 0x7#32] = .ok (.schedPost 0xFF#32, [0x7#32]) := rfl
theorem witness_HeaderGivesRowAndLength : decode 8 [0x410000FF#32] = .error .incomplete ∧ decode 8 [0x42000001#32] = .ok (.qPop 0#4 true, [])
    ∧ ∀ o : Opcode, 0x42000002#32 &&& o.maskWord ≠ o.matchWord := ⟨rfl, rfl, by intro o; cases o <;> decide⟩
theorem witness_IllegalWordsRaiseIllegalCommand_fg :
    let s : State := { s0 with fgPort := [0x01000000#32, 0x100#32], moves := [.command .fg] }
    s.faultCode = .noFault ∧ s.moves = [.command .fg] ∧ s.accepts .fg = true ∧ s.portWords .fg = [0x01000000#32, 0x100#32]
      ∧ decode s.cfg.evtW [0x01000000#32, 0x100#32] = .error (.maskAboveEvtW 0x01000000#32) := ⟨rfl, rfl, rfl, rfl, rfl⟩
theorem witness_IllegalWordsRaiseIllegalCommand_irq :
    let s : State := { s0 with irqPort := [0x50000000#32], moves := [.command .irq], fgAsleep := true }
    s.accepts .irq = true ∧ decode s.cfg.evtW (s.portWords .irq) = .error (.reservedUnit 0x50000000#32) := ⟨rfl, rfl⟩
theorem witness_StepRunsTheDecodedCommand :
    let s : State := { s0 with fgPort := [0x03000000#32], irqPort := [0x43000000#32, 0x1#32], moves := [.command .fg] }
    s.faultCode = .noFault ∧ s.moves = [.command .fg] ∧ s.fgHeld = .none ∧ s.fgAsleep = false
      ∧ decode s.cfg.evtW (s.portWords .fg) = .ok (.schedPoll, []) ∧ decode s.cfg.evtW (s.portWords .irq) = .ok (.qFree 0#4, [0x1#32]) :=
  ⟨rfl, rfl, rfl, rfl, rfl, rfl⟩
theorem witness_StepTakesTheNamedMove : s0.faultCode = .noFault ∧ s0.moves = []
    ∧ ({ s0 with moves := [.event] } : State).moves = [.event] ∧ ({ s0 with moves := [.busHandler 1 .ack] } : State).moves = [.busHandler 1 .ack]
    ∧ ({ s0 with moves := [.serHandler 1 .txc] } : State).moves = [.serHandler 1 .txc]
    ∧ ({ s0 with moves := [.completion] } : State).moves = [.completion]
    ∧ ({ s0 with moves := [.command .fg], fgHeld := .busReset 0 } : State).fgHeld ≠ .none
    ∧ ({ s0 with moves := [.command .fg], fgAsleep := true } : State).fgAsleep = true := by decide
theorem witness_HaltedCoreTakesNoStep : ({ s0 with faultCode := .context } : State).faultCode ≠ .noFault := by decide
theorem witness_ContextThenInstanceFaults_context : ({ s0 with ctx := .irq } : State).ctx = .irq ∧ (Instr.qPop 0#4 true).opcode ∈ foregroundOnly := by
  decide
theorem witness_ContextThenInstanceFaults_instance : unitOf (Instr.busBusy 2#4).header = 2#4 ∧ s0.cfg.nBus ≤ (instOf (Instr.busBusy 2#4).header).toNat
    ∧ unitOf (Instr.serBusy 2#4).header = 3#4 ∧ s0.cfg.nSer ≤ (instOf (Instr.serBusy 2#4).header).toNat
    ∧ unitOf (Instr.qFree 15#4).header = 4#4 ∧ s0.cfg.nSer ≤ (instOf (Instr.qFree 15#4).header).toNat
    ∧ (s0.ctx = .irq → (Instr.busReset 2#4).opcode ∉ foregroundOnly) ∧ (Instr.busBusy 2#4).opcode ∉ foregroundOnly := by decide
theorem witness_RaisedFaultIsPrecise : ∃ t, step { s0 with fgPort := [0x50000000#32], moves := [.command .fg] } = .next t ∧ t.faultCode ≠ .noFault :=
  ⟨_, rfl, by decide⟩
theorem witness_OpenCommandsEmptyTheirUnit : s0.ctx = .fg ∧ s0.ShapeOk ∧ (1#4).toNat < s0.cfg.nSer := by decide
theorem witness_QueriesRespondAndChangeNothing : (1#4).toNat < s0.cfg.nBus ∧ (1#4).toNat < s0.cfg.nSer := by decide
theorem witness_SchedClearClearsItsBits : s0.ctx = .fg ∧ fitsIn s0.cfg.evtW 0xFF#32 = true := by decide
theorem witness_PostsCoalesceAndCommute : fitsIn s0.cfg.evtW 0x0F#32 = true ∧ fitsIn s0.cfg.evtW 0x18#32 = true ∧ s0.ctx = .fg := by decide
theorem witness_ArbEnterSleepsAtTheTarget : s0.ctx = .fg ∧ s0.cfg.shallowDepth < s0.target ∧ full.ctx = .fg ∧ full.target = 0 := by decide
theorem witness_BusResetHolds : s0.ctx = .fg ∧ s0.ShapeOk ∧ (1#4).toNat < s0.cfg.nBus := by decide
theorem witness_NormalPopTransmitsTheOldestFrame : twoFrames.ctx = .fg ∧ twoFrames.Inv ∧ (1#4).toNat < twoFrames.cfg.nSer
    ∧ (twoFrames.serAt 1).serBusy = false ∧ (twoFrames.queueAt 1).Holds twoFrames.cfg.qcap [[0x68#8, 0x69#8], [0x78#8]]
    ∧ 1 ≤ [0x68#8, 0x69#8].length ∧ [0x68#8, 0x69#8].length ≤ twoFrames.cfg.txCap
    ∧ (twoFrames.cntAt twoFrames.cfg.serDepth).toNat < twoFrames.cfg.blockMax :=
  ⟨by decide, ⟨by decide, by decide, by decide, by decide, by decide, by decide, by decide, trivial, by decide⟩, by decide⟩
theorem witness_QFreeRespondsTheFreeSpace : twoFrames.cfg.legal = true ∧ twoFrames.ShapeOk ∧ twoFrames.IndicesInRange
    ∧ (1#4).toNat < twoFrames.cfg.nSer := by decide
theorem witness_SchedPostSetsItsBits : fitsIn s0.cfg.evtW 0xFF#32 = true ∧ fitsIn s0.cfg.evtW 0#32 = true ∧ s0.ctx = .fg := by decide
theorem witness_ArbBlockCountsOneMore :
    let s : State := { s0 with cnt := [0#8, 0#8, 0#8, 0#8, 1#8] }
    s.cfg.legal = true ∧ s.ShapeOk ∧ (4#8).toNat < s.cfg.nDepth ∧ (s.cntAt 4).toNat < s.cfg.blockMax := by decide
theorem witness_ArbUnblockCountsOneLess : s0.ShapeOk ∧ full.ShapeOk ∧ (4#8).toNat < s0.cfg.nDepth ∧ (0#8).toNat < s0.cfg.nDepth := by decide
theorem witness_ArbRangeAndOverflowFaults : s0.cfg.nDepth ≤ (5#8).toNat ∧ (4#8).toNat < full.cfg.nDepth
    ∧ full.cfg.blockMax ≤ (full.cntAt 4).toNat := by decide
theorem witness_FloorIsTheShallowestBlockedDepth : (withBus (reading .initSendAddr 0#4)).ShapeOk
    ∧ (withBus (reading .initSendAddr 0#4)).cntAt 2 ≠ 0#8 ∧ s0.ShapeOk ∧ ∀ d, d < s0.cfg.nDepth → s0.cntAt d = 0#8 := by decide
theorem witness_TargetIsJustAboveTheFloor : (withBus (reading .initSendAddr 0#4)).ShapeOk ∧ 0 < (withBus (reading .initSendAddr 0#4)).target
    ∧ full.ShapeOk ∧ full.cntAt 0 ≠ 0#8 ∧ s0.ShapeOk ∧ ∀ d, d < s0.cfg.nDepth → s0.cntAt d = 0#8 := by decide
theorem witness_BalancedBlocksLeaveNothingBlocked : (∀ c ∈ s0.cnt, c = 0#8)
    ∧ (∀ i ∈ [Instr.arbBlock 2#8, .arbUnblock 2#8], ∃ d, i = .arbBlock d ∨ i = .arbUnblock d)
    ∧ (∀ d, [Instr.arbBlock 2#8, .arbUnblock 2#8].count (.arbBlock d) = [Instr.arbBlock 2#8, .arbUnblock 2#8].count (.arbUnblock d))
    ∧ (∀ d n, ([Instr.arbBlock 2#8, .arbUnblock 2#8].take n).count (.arbUnblock d) ≤ ([Instr.arbBlock 2#8, .arbUnblock 2#8].take n).count (.arbBlock d))
    ∧ ∃ t, runCommands [.arbBlock 2#8, .arbUnblock 2#8] s0 = .next t ∧ t.faultCode = .noFault := by
  have hc : ∀ d, [Instr.arbBlock 2#8, .arbUnblock 2#8].count (.arbBlock d) = [Instr.arbBlock 2#8, .arbUnblock 2#8].count (.arbUnblock d) := by
    intro d
    simp [List.count_cons]
  refine ⟨by decide, ?_, hc, ?_, ⟨_, rfl, by decide⟩⟩
  · intro i hi
    simp only [List.mem_cons, List.not_mem_nil, or_false] at hi
    rcases hi with rfl | rfl
    · exact ⟨2#8, .inl rfl⟩
    · exact ⟨2#8, .inr rfl⟩
  · intro d n
    match n with
    | 0 => simp
    | 1 => simp [List.count_cons]
    | n + 2 => simpa using Nat.le_of_eq (hc d).symm
theorem witness_BusStartBeginsATransaction : s0.ctx = .fg ∧ s0.cfg.legal = true ∧ s0.ShapeOk ∧ (1#4).toNat < s0.cfg.nBus
    ∧ (s0.busAt 1).busBusy = false ∧ (s0.busAt 1).bpidle = true ∧ (0xFFFFFFFE#32).getLsbD 0 = false
    ∧ s0.cfg.admits 0xFFFFFFFE#32 2 = true ∧ fitsIn s0.cfg.evtW 0x80#32 = true ∧ (s0.cntAt s0.cfg.busDepth).toNat < s0.cfg.blockMax := by decide
theorem witness_BusStartFaultsInOrder : ((withBus (reading .initSendAddr 0#4)).busAt 1).busBusy = true
    ∧ ((withBus { BusUnit.reset with bpidle := false }).busAt 1).bpidle = false
    ∧ (0x1#32).getLsbD 0 = true ∧ s0.cfg.admits 0x1#32 2 = false
    ∧ full.cfg.blockMax ≤ (full.cntAt full.cfg.busDepth).toNat ∧ (full.busAt 1).busBusy = false ∧ full.cfg.admits 0#32 2 = true := by decide
theorem witness_BusResetCompletes :
    let s : State := { withBus { reading .initSendAddr 0b1000#4 with bien := 0#4 } with moves := [.completion], fgHeld := .busReset 1 }
    s.faultCode = .noFault ∧ s.fgHeld = .busReset 1 ∧ 1 < s.bus.length ∧ (s.busAt 1).bifReg.getLsbD 3 = true ∧ (s.busAt 0).bifReg.getLsbD 3 = false := by
  decide
theorem witness_BusAckTransitions : ∀ st ∈ [BusState.initSendAddr, .sendCommand, .sendRptStartAddr],
    let s := withBus (reading st 0b0001#4)
    1 < s.bus.length ∧ (s.busAt 1).bifReg.getLsbD 0 = true ∧ (s.busAt 1).bien.getLsbD 0 = true ∧ (s.busAt 1).busState = st := by decide
theorem witness_BusNackRetriesTheRepeatedStart_retry :
    let s := withBus { reading .sendRptStartAddr 0b0010#4 with nackCnt := 1#32 }
    1 < s.bus.length ∧ (s.busAt 1).bifReg.getLsbD 1 = true ∧ (s.busAt 1).bien.getLsbD 1 = true ∧ (s.busAt 1).busState = .sendRptStartAddr
      ∧ s.cfg.rptNackLimit = some 2 ∧ (s.busAt 1).nackCnt.toNat < 2 := by decide
theorem witness_BusNackRetriesTheRepeatedStart_exhausted :
    let s := withBus { reading .sendRptStartAddr 0b0010#4 with nackCnt := 2#32 }
    1 < s.bus.length ∧ (s.busAt 1).bifReg.getLsbD 1 = true ∧ (s.busAt 1).bien.getLsbD 1 = true ∧ (s.busAt 1).busState = .sendRptStartAddr
      ∧ s.cfg.rptNackLimit = some 2 ∧ 2 ≤ (s.busAt 1).nackCnt.toNat := by decide
theorem witness_BusDataBytesReachTheWord : ∀ st ∈ [BusState.readMsByte, .readLs],
    let s := withBus (reading st 0b0100#4)
    s.cfg.legal = true ∧ Memory.wf s.dmem = true ∧ 1 < s.bus.length ∧ (s.busAt 1).bifReg.getLsbD 2 = true ∧ (s.busAt 1).bien.getLsbD 2 = true
      ∧ s.cfg.admits (s.busAt 1).recDest 2 = true ∧ (s.busAt 1).busState = st := by decide
theorem witness_BusStopFinishesTheTransaction :
    let s := withBus (reading .stopEnd 0b1000#4)
    s.cfg.legal = true ∧ s.ShapeOk ∧ 1 < s.bus.length ∧ (s.busAt 1).bifReg.getLsbD 3 = true ∧ (s.busAt 1).bien.getLsbD 3 = true
      ∧ (s.busAt 1).busState = .stopEnd := by decide
theorem witness_BusProtocolFaults :
    let s := withBus (reading .readMsByte 0b0001#4)
    (s.busAt 1).bifReg.getLsbD BusFlag.ack.bit = true ∧ (s.busAt 1).bien.getLsbD BusFlag.ack.bit = true
      ∧ ((s.busAt 1).busState, BusFlag.ack) ∉ busExpected := by decide
theorem witness_BusReadDeliversTheWord :
    let s : State := { withBus (reading .initSendAddr 0#4) with
      evtPort := (readEvents 1#4 2 0xAB#8 0xCD#8).map (fun e => encodeEvent e.1), moves := busServiceMoves 1 (readEvents 1#4 2 0xAB#8 0xCD#8) }
    s.Inv ∧ s.faultCode = .noFault ∧ (1#4).toNat < s.cfg.nBus ∧ (s.busAt 1).busBusy = true ∧ (s.busAt 1).busState = .initSendAddr
      ∧ (s.busAt 1).bifReg = 0#4 ∧ (s.busAt 1).bien &&& 0b1011#4 = 0b1011#4 ∧ (s.busAt 1).nackCnt = 0#32 ∧ s.cfg.rptNackLimit = some 2 :=
  ⟨⟨by decide, by decide, by decide, by decide, by decide, by decide, by decide, trivial, by decide⟩, by decide⟩
theorem witness_OnlyStopOrResetEndsATransaction_stop :
    let s : State := { withBus (reading .stopEnd 0b1000#4) with moves := [.busHandler 1 .mstop] }
    ∃ t, step s = .next t ∧ (s.busAt 1).busBusy = true ∧ (t.busAt 1).busBusy = false := ⟨_, rfl, by decide, by decide⟩
theorem witness_OnlyStopOrResetEndsATransaction_reset :
    let s : State := { withBus (reading .readLs 0b1000#4) with moves := [.completion], fgHeld := .busReset 1 }
    ∃ t, step s = .next t ∧ (s.busAt 1).busBusy = true ∧ (t.busAt 1).busBusy = false := ⟨_, rfl, by decide, by decide⟩
theorem witness_CommandsLeaveHostMemory : ∃ t, exec .schedPoll { s0 with dmem := [(4, 1#8)] } = .next t := ⟨_, rfl⟩
theorem witness_MemoryChangesOnlyAtTheDestination_bus :
    let s : State := { withBus (reading .readMsByte 0b0100#4) with moves := [.busHandler 1 .rxdatav] }
    Memory.wf s.dmem = true ∧ ∃ t, step s = .next t ∧ Memory.read t.dmem 0xFFFFFFFF ≠ Memory.read s.dmem 0xFFFFFFFF :=
  ⟨by decide, _, rfl, by decide⟩
theorem witness_MemoryChangesOnlyAtTheDestination_host :
    let s : State := { withBus (reading .readMsByte 0#4) with moves := [.hostStore], hostStores := [(0xFFFFFFFD, 7#8)] }
    ∃ t, step s = .next t ∧ Memory.read t.dmem 0xFFFFFFFD ≠ Memory.read s.dmem 0xFFFFFFFD := ⟨_, rfl, by decide⟩
theorem witness_BusyEngineNeverStopsOnMemory : (withBus (reading .readLs 0b0100#4)).Inv ∧ ((withBus (reading .readLs 0b0100#4)).busAt 1).busBusy = true :=
  ⟨⟨by decide, by decide, by decide, by decide, by decide, by decide, by decide, trivial, by decide⟩, by decide⟩
theorem witness_SerStartBeginsATransmission : s0.ctx = .fg ∧ s0.cfg.legal = true ∧ s0.ShapeOk ∧ (1#4).toNat < s0.cfg.nSer
    ∧ (s0.serAt 1).serBusy = false ∧ 1 ≤ [1#8, 2#8, 3#8, 4#8].length
    ∧ [1#8, 2#8, 3#8, 4#8].length ≤ s0.cfg.txCap ∧ (s0.cntAt s0.cfg.serDepth).toNat < s0.cfg.blockMax := by decide
theorem witness_SerStartWaitsOrFaults : s0.cfg.txCap < [1#8, 2#8, 3#8, 4#8, 5#8].length
    ∧ ((withSer (sending .init 0#16 0b01#2 0#2)).serAt 1).serBusy = true ∧ (full.serAt 1).serBusy = false
    ∧ full.cfg.blockMax ≤ (full.cntAt full.cfg.serDepth).toNat ∧ (withSer (sending .init 0#16 0b01#2 0#2)).ctx = .fg := by decide
theorem witness_HeldSerStartTakesEffect :
    let hold (s : State) : State := { s with moves := [.completion], fgHeld := .serStart 1 [7#8] }
    s0.cfg.legal = true ∧ (hold s0).ShapeOk ∧ ((hold s0).serAt 1).serBusy = false ∧ (hold full).ShapeOk
      ∧ full.cfg.blockMax ≤ ((hold full).cntAt full.cfg.serDepth).toNat ∧ ((hold full).serAt 1).serBusy = false
      ∧ ((hold (withSer (sending .init 0#16 0b01#2 0#2))).serAt 1).serBusy = true ∧ (hold (withSer (sending .init 0#16 0b01#2 0#2))).ShapeOk := by
  decide
theorem witness_SerHandlerTransitions_txbl :
    ∀ u ∈ [sending .init 0#16 0b01#2 0b01#2, sending .sendData 0#16 0b01#2 0b01#2, sending .sendData 1#16 0b01#2 0b01#2],
    (withSer u).cfg.legal = true ∧ (withSer u).ShapeOk ∧ 1 < (withSer u).ser.length ∧ ((withSer u).serAt 1).sifReg.getLsbD 0 = true
      ∧ ((withSer u).serAt 1).sien.getLsbD 0 = true := by decide
theorem witness_SerHandlerTransitions_txc :
    let s := withSer (sending .stopClose 2#16 0b10#2 0b10#2)
    s.ShapeOk ∧ (s.serAt 1).sifReg.getLsbD 1 = true ∧ (s.serAt 1).sien.getLsbD 1 = true ∧ (s.serAt 1).serState = .stopClose := by decide
theorem witness_SerProtocolFaults :
    let s := withSer (sending .sendData 0#16 0b11#2 0b10#2)
    (s.serAt 1).sifReg.getLsbD SerFlag.txc.bit = true ∧ (s.serAt 1).sien.getLsbD SerFlag.txc.bit = true
      ∧ ((s.serAt 1).serState, SerFlag.txc) ∉ serExpected := by decide
theorem witness_TransmissionSendsItsBytes :
    let s : State := { withSer (sending .init 0#16 0b01#2 0#2) with
      evtPort := (transmitEvents 1#4 2).map (fun e => encodeEvent e.1), moves := serServiceMoves 1 (transmitEvents 1#4 2) }
    s.Inv ∧ s.faultCode = .noFault ∧ (1#4).toNat < s.cfg.nSer ∧ (s.serAt 1).serBusy = true ∧ (s.serAt 1).serState = .init
      ∧ (s.serAt 1).sifReg = 0#2 ∧ (s.serAt 1).sien.getLsbD 0 = true ∧ (s.serAt 1).txLen.toNat = [0x68#8, 0x69#8].length
      ∧ (s.serAt 1).txbuf.take [0x68#8, 0x69#8].length = [0x68#8, 0x69#8] :=
  ⟨⟨by decide, by decide, by decide, by decide, by decide, by decide, by decide, trivial, by decide⟩, by decide⟩
theorem witness_OnlyTransmitCompleteEndsATransmission :
    let s : State := { withSer (sending .stopClose 2#16 0b10#2 0b10#2) with moves := [.serHandler 1 .txc] }
    ∃ t, step s = .next t ∧ (s.serAt 1).serBusy = true ∧ (t.serAt 1).serBusy = false := ⟨_, rfl, by decide, by decide⟩
theorem witness_Inv_twoFrames : twoFrames.Inv :=
  ⟨by decide, by decide, by decide, by decide, by decide, by decide, by decide, trivial, by decide⟩
theorem witness_QPushWritesTheFrame : twoFrames.ctx = .fg ∧ twoFrames.ShapeOk ∧ twoFrames.IndicesInRange ∧ (1#4).toNat < twoFrames.cfg.nSer
    ∧ [1#8, 2#8].length + 1 ≤ twoFrames.free 1 ∧ ([] : List Byte).length + 1 ≤ twoFrames.free 1 := by decide
theorem witness_ExactFillReadsAsEmpty : twoFrames.ctx = .fg ∧ twoFrames.Inv ∧ [1#8, 2#8].length + 1 = twoFrames.free 1 :=
  ⟨by decide, witness_Inv_twoFrames, by decide⟩
theorem witness_QPopOfNothingChangesNothing : ((withSer (sending .init 0#16 0b01#2 0#2)).serAt 1).serBusy = true ∧ s0.free 1 = s0.cfg.qcap := by decide
theorem witness_DiagnosticPopCapturesTheOldestFrame : twoFrames.Inv ∧ (twoFrames.serAt 1).serBusy = false
    ∧ (twoFrames.queueAt 1).Holds twoFrames.cfg.qcap [[0x68#8, 0x69#8], [0x78#8]] ∧ [0x68#8, 0x69#8].length ≤ twoFrames.cfg.diagCap
    ∧ [0x68#8, 0x69#8].length ≤ twoFrames.cfg.txCap ∧ (twoFrames.cntAt twoFrames.cfg.serDepth).toNat < twoFrames.cfg.blockMax :=
  ⟨witness_Inv_twoFrames, by decide⟩
theorem witness_QueueFaults_push : (∀ bytes : List Byte, bytes.length = 255 → 254 < bytes.length)
    ∧ twoFrames.free 1 < [1#8, 2#8, 3#8].length + 1 := ⟨by intro bytes h; omega, by decide⟩
theorem witness_QueueFaults_corrupt :
    (let s := withQueue [0#8, 1#8, 0#8, 0#8, 0#8, 0#8, 0#8, 0#8] 0 2;
      (s.serAt 1).serBusy = false ∧ s.free 1 ≠ s.cfg.qcap ∧ (s.queueAt 1).qbuf.getD (s.queueAt 1).qrd 0#8 = 0#8)
    ∧ (let s := withQueue [3#8, 1#8, 0#8, 0#8, 0#8, 0#8, 0#8, 0#8] 0 2;
      (s.serAt 1).serBusy = false ∧ s.free 1 ≠ s.cfg.qcap
        ∧ s.cfg.qcap < s.free 1 + ((s.queueAt 1).qbuf.getD (s.queueAt 1).qrd 0#8).toNat) := by decide
/-- A queue whose one frame has five payload bytes, past both buffers of 4; a queue whose one frame is empty; a full serial depth. -/
theorem witness_QueueFaults_pop :
    (let s := withQueue [6#8, 1#8, 2#8, 3#8, 4#8, 5#8, 0#8, 0#8] 0 6;
      s.Inv ∧ (s.serAt 1).serBusy = false ∧ (s.queueAt 1).Holds s.cfg.qcap [[1#8, 2#8, 3#8, 4#8, 5#8]]
        ∧ s.cfg.diagCap < [1#8, 2#8, 3#8, 4#8, 5#8].length ∧ s.cfg.txCap < [1#8, 2#8, 3#8, 4#8, 5#8].length)
    ∧ (let s := withQueue [1#8, 0#8, 0#8, 0#8, 0#8, 0#8, 0#8, 0#8] 0 1;
      s.Inv ∧ (s.serAt 1).serBusy = false ∧ (s.queueAt 1).Holds s.cfg.qcap [[]])
    ∧ (let s : State := { twoFrames with cnt := [0#8, 0#8, 0#8, 2#8, 0#8] };
      s.Inv ∧ (s.queueAt 1).Holds s.cfg.qcap [[0x68#8, 0x69#8], [0x78#8]] ∧ s.cfg.blockMax ≤ (s.cntAt s.cfg.serDepth).toNat) :=
  ⟨⟨⟨by decide, by decide, by decide, by decide, by decide, by decide, by decide, trivial, by decide⟩, by decide⟩,
    ⟨⟨by decide, by decide, by decide, by decide, by decide, by decide, by decide, trivial, by decide⟩, by decide⟩,
    ⟨⟨by decide, by decide, by decide, by decide, by decide, by decide, by decide, trivial, by decide⟩, by decide⟩⟩
theorem witness_PushAppendsToTheHeldPayloads : [7#8].length + 1 < twoFrames.free 1 ∧ ∃ t, exec (.qPush 1#4 [7#8]) twoFrames = .next t :=
  ⟨by decide, _, rfl⟩
theorem witness_EventStepAppliesItsEvent :
    let s : State := { s0 with moves := [.event], evtPort := [0x221000AB#32] }
    s.faultCode = .noFault ∧ s.moves = [.event] ∧ decodeEvent s.cfg 0x221000AB#32 = some (.busRx 1#4 0xAB#8) := by decide
theorem witness_InterruptsWakeTheForeground :
    let s : State := { withBus (reading .initSendAddr 0b0001#4) with fgAsleep := true, ctx := .irq, ser := [sending .init 0#16 0b01#2 0b01#2] }
    (∃ t, busHandler 1 .ack s = .next t ∧ t.faultCode = .noFault ∧ (s.busAt 1).enabled .ack = true)
      ∧ (∃ t, busHandler 1 .nack s = .next t ∧ t.faultCode = .noFault ∧ (s.busAt 1).enabled .nack = false)
      ∧ (∃ t, serHandler 0 .txbl s = .next t ∧ t.faultCode = .noFault ∧ (s.serAt 0).enabled .txbl = true)
      ∧ ∃ t, exec (.schedPost 1#32) s = .next t ∧ t.faultCode = .noFault :=
  ⟨⟨_, rfl, by decide, by decide⟩, ⟨_, rfl, by decide, by decide⟩, ⟨_, rfl, by decide, by decide⟩, ⟨_, rfl, by decide⟩⟩
theorem witness_OnlyEnterSleeps :
    let s : State := { s0 with fgPort := [0x14000000#32], moves := [.command .fg] }
    ∃ t, step s = .next t ∧ s.fgAsleep = false ∧ t.fgAsleep = true := ⟨_, rfl, by decide, by decide⟩
theorem witness_TracesOnlyGrow : ∃ t, step { s0 with fgPort := [0x14000000#32], moves := [.command .fg], act := [.busStart 0] } = .next t
    ∧ t.act = [.busStart 0, .cpuSleep 4] := ⟨_, rfl, by decide⟩
theorem witness_ResetValues : 1 < small.nBus ∧ 1 < small.nSer := by decide
theorem witness_ResetHasTheInvariant : Params.vectorDefault.legal = true ∧ small.legal = true := by decide
theorem witness_StepKeepsTheInvariant : s0.Inv ∧ (∃ t, step s0 = .next t) ∧ s0.IdleBusAtInit 1 ∧ s0.BlocksHeld :=
  ⟨⟨by decide, by decide, by decide, by decide, by decide, by decide, by decide, trivial, by decide⟩, ⟨_, rfl⟩, by decide, by decide⟩
/-- The small machine with engine 1 in a transaction, and engine 0 idle with this tag and these flags. -/
def strayed (st : BusState) (flags : BitVec 4) : State :=
  { withBus (reading .sendCommand 0#4) with bus := [{ BusUnit.reset with busState := st, bifReg := flags }, reading .sendCommand 0#4] }
/-- A busy engine of each kind, each with its block, before a step that keeps both. -/
theorem witness_StepKeepsTheInvariant_busy :
    let s : State := { withBus (reading .sendCommand 0b0001#4) with
      ser := [SerUnit.reset small, sending .init 0#16 0b01#2 0#2], cnt := [0#8, 0#8, 1#8, 1#8, 0#8], moves := [.busHandler 1 .ack] }
    s.Inv ∧ (∃ t, step s = .next t) ∧ s.BlocksHeld ∧ s.blocksOwed 2 = 1 ∧ s.blocksOwed 3 = 1 :=
  ⟨⟨by decide, by decide, by decide, by decide, by decide, by decide, by decide, trivial, by decide⟩, ⟨_, rfl⟩, by decide, by decide, by decide⟩
/-- Log entry 25: the MSTOP of an idle engine walked to `STOP_END` releases the block of the busy one (R99, R106). -/
theorem test_stopWhileIdle : (strayed .stopEnd 0b1000#4).BlocksHeld ∧ (after (busHandler 0 .mstop (strayed .stopEnd 0b1000#4))).map
    (fun t => (t.cnt, (t.busAt 1).busBusy, t.faultCode)) = some ([0#8, 0#8, 0#8, 0#8, 0#8], true, .noFault) := by decide
/-- R100: an ACK of an idle engine moves its tag, the exception of R38 item 2. -/
theorem test_ackWhileIdle : (strayed .initSendAddr 0b0001#4).IdleBusAtInit 0 ∧ (after (busHandler 0 .ack (strayed .initSendAddr 0b0001#4))).map
    (fun t => ((t.busAt 0).busState, (t.busAt 0).busBusy)) = some (.sendCommand, false) := by decide

/-- The small machine with one engine of each kind, right after reset: the boot sequence and one more command at its port, written by hand
from R63 and R160, and the stop-complete of the reset. -/
def booting : State :=
  { State.resetOf { small with nBus := 1, nSer := 1, evtTxDone := [0x04#32] } with
    fgPort := [0x00000000#32, 0x10000000#32, 0x40000000#32, 0x22000000#32, 0x03000000#32], evtPort := [0x23000000#32]
    moves := [.command .fg, .command .fg, .command .fg, .command .fg, .event, .completion] }

theorem test_bootWords : booting.fgPort = bootWords booting.cfg ++ [0x03000000#32] := rfl
/-- R161: the actions and enables the boot leaves. -/
theorem test_boot : (booting.bootRun 6).map (fun t => (t.act, (t.busAt 0).bienSave, (t.busAt 0).bien, (t.busAt 0).bifReg)) = some
    ([.busAbort 0, .busCleartx 0, .busStart 0, .busStop 0], 0b1011#4, 0b1011#4, 0#4) := by decide
/-- R157: no event but the one waited for. -/
theorem test_boot_event : ({ booting with moves := [.event] } : State).bootRun 1 = none := by decide
theorem witness_CleanEntryIsTheResetStateBooted : booting.cfg.legal = true ∧ ∃ s : State, s.cfg = booting.cfg ∧ s.CleanEntry :=
  ⟨by decide, (booting.bootRun 6).getD s0, rfl, booting, 6, by decide, ⟨rfl, by decide, by decide, by decide, by decide, by decide⟩, rfl, rfl,
    rfl, rfl⟩
/-- The premises on the steps of a run from a clean entry, over one step: a `SCHED.POLL`. -/
theorem witness_CleanEntryIsTheResetStateBooted_run :
    let s : State := { (booting.bootRun 6).getD s0 with moves := [.command .fg] }
    (∃ t, Sys2Proof.core.run 1 s = .next t) ∧ ¬s.CallerReleases ∧ ∀ p, ¬s.AckWhileIdle p := by
  refine ⟨⟨_, rfl⟩, ?_, ?_⟩
  · rintro ⟨c, i, rest, hm, hd, hi⟩
    obtain rfl : c = .fg := by simpa using hm.symm
    obtain rfl : i = .schedPoll := (congrArg Prod.fst (Except.ok.inj hd)).symm
    exact absurd hi (by decide)
  · rintro p ⟨hm, -, -⟩
    simp at hm

end Sys2Proof.Tests
end

section
/-! What a step can do, said once: it raises a fault on an otherwise unchanged CORE, or it applies effects that keep the parameters and the
fault code and only append to the traces. The statements of 00_scope.md follow from it. -/

namespace Sys2Proof.Machine

/-! The step, the port and the fetch -/

/-- 00_scope.md R15. -/
theorem step_of_halted {s : State} (h : s.faultCode ≠ .noFault) : step s = .fault .halted := by
  simp [step, State.halted, h]

theorem quiescent_of_halted {s : State} (h : s.faultCode ≠ .noFault) : s.quiescent = false := by
  simp [State.quiescent, State.halted, h]

theorem step_of_no_moves {s : State} (hh : s.faultCode = .noFault) (hm : s.moves = []) : step s = .next s := by
  simp [step, State.halted, hh, hm]

/-- 00_scope.md R13 and R14, 41_arbiter.md R88. -/
theorem State.accepts_fg {s : State} : s.accepts .fg = true ↔ s.fgHeld = .none ∧ s.fgAsleep = false := by
  simp [State.accepts]

theorem State.accepts_irq (s : State) : s.accepts .irq = true := rfl

theorem commandStep_of_not_accepts {s : State} {c : Ctx} (h : s.accepts c = false) : commandStep c s = .next s := by
  simp [commandStep, fetchCommand, h]

theorem commandStep_of_decode {s : State} {c : Ctx} {i : Instr} {rest : List Word} (ha : s.accepts c = true)
    (hd : decode s.cfg.evtW (s.portWords c) = .ok (i, rest)) : commandStep c s = exec i (s.takeFrom c rest) := by
  simp [commandStep, fetchCommand, ha, hd]

/-! The two kinds of effect -/

/-- The state after effects without a fault: the parameters and the fault code are kept, the action trace and the responses only appended
to. -/
def State.Extends (s t : State) : Prop :=
  t.cfg = s.cfg ∧ t.faultCode = s.faultCode ∧ s.act <+: t.act ∧ s.resp <+: t.resp

theorem State.Extends.refl (s : State) : s.Extends s := by
  simp [State.Extends]

theorem State.Extends.trans {s t u : State} (h : s.Extends t) (h' : t.Extends u) : s.Extends u := by
  obtain ⟨hcfg, hcode, hact, hresp⟩ := h
  obtain ⟨hcfg', hcode', hact', hresp'⟩ := h'
  exact ⟨hcfg'.trans hcfg, hcode'.trans hcode, hact.trans hact', hresp.trans hresp'⟩

/-- The state after a precise fault: the fault register is written, the port words and the context tag may be taken, all else stands
(00_scope.md R19). -/
def State.FaultsTo (s t : State) : Prop :=
  ∃ f, t = { s with fgPort := t.fgPort, irqPort := t.irqPort, ctx := t.ctx }.raiseFault f

theorem State.faultsTo_raiseFault (s : State) (f : FaultReport) : s.FaultsTo (s.raiseFault f) := ⟨f, rfl⟩

theorem State.extends_setBus (s : State) (p : Nat) (u : BusUnit) : s.Extends (s.setBus p u) := .refl s

theorem State.extends_setSer (s : State) (p : Nat) (u : SerUnit) : s.Extends (s.setSer p u) := .refl s

theorem State.extends_takeFrom (s : State) (c : Ctx) (rest : List Word) : s.Extends (s.takeFrom c rest) := by
  simp [State.Extends]

theorem State.extends_endCommand (s : State) : s.Extends s.endCommand := by
  simp [State.Extends]

theorem State.extends_sleepAt (s : State) (d : Nat) : s.Extends (s.sleepAt d) := by
  unfold State.sleepAt
  split
  · simp [State.Extends]
  · exact .refl s

theorem State.extends_memWrite {s t : State} {addr : Word} {v : BitVec 16} (h : s.memWrite addr v = some t) : s.Extends t := by
  obtain ⟨-, rfl⟩ := State.memWrite_eq_some h
  exact .refl s

/-! Commands -/

/-- The rule of each command, applied after the checks of 30_encoding.md R65. -/
def commandBody (s : State) : Instr → Except FaultReport State
  | .schedOpen => .ok ({ s with pending := 0#32 }.respond 0#32)
  | .schedPost m => .ok ((s.post (s.eventMask m)).respond 0#32)
  | .schedClear m => .ok ({ s with pending := s.pending &&& ~~~(s.eventMask m) }.respond 0#32)
  | .schedPoll => .ok (s.respond s.pending)
  | .arbOpen => .ok ({ s with cnt := s.cnt.map fun _ => 0#8 }.respond 0#32)
  | .arbBlock d => arbBlockBody (Instr.arbBlock d).header d.toNat s
  | .arbUnblock d => arbUnblockBody (Instr.arbUnblock d).header d.toNat s
  | .arbFloor => .ok (s.respond (BitVec.ofNat 32 s.floor))
  | .arbEnter => .ok ((s.respond (BitVec.ofNat 32 s.target)).sleepAt s.target)
  | .busStart p addr cmd dir count dest ev =>
    busStartBody (Instr.busStart p addr cmd dir count dest ev).header p.toNat addr cmd dir count dest (s.eventMask ev) s
  | .busBusy p => .ok (s.respond ((BitVec.ofBool (s.busAt p.toNat).busBusy).setWidth 32))
  | .busReset p => .ok (busResetBody p.toNat s)
  | .serStart p bytes => serStartBody p.toNat bytes s
  | .serBusy p => .ok (s.respond ((BitVec.ofBool (s.serAt p.toNat).serBusy).setWidth 32))
  | .qOpen q => .ok ((s.setQueue q.toNat { s.queueAt q.toNat with qrd := 0, qwr := 0, diagLen := 0#16 }).respond 0#32)
  | .qPush q payload => qPushBody q.toNat payload s
  | .qPop q diag => qPopBody q.toNat diag s
  | .qFree q => .ok (s.respond (BitVec.ofNat 32 (s.free q.toNat)))

/-- Every command is its rule behind the checks of 30_encoding.md R65. -/
theorem exec_eq_runCommand (i : Instr) (s : State) : exec i s = runCommand i s (commandBody s i) := by
  cases i <;> rfl

theorem extends_serEffects (p : Nat) (bytes : List Byte) (s : State) : s.Extends (serEffects p bytes s) := by
  simp [State.Extends, serEffects]

theorem extends_arbBlockBody {h : Word} {d : Nat} {s t : State} (ht : arbBlockBody h d s = .ok t) : s.Extends t := by
  unfold arbBlockBody at ht
  split_ifs at ht
  cases ht
  simp [State.Extends]

theorem extends_arbUnblockBody {h : Word} {d : Nat} {s t : State} (ht : arbUnblockBody h d s = .ok t) : s.Extends t := by
  unfold arbUnblockBody at ht
  split_ifs at ht
  cases ht
  simp [State.Extends]

theorem extends_busStartBody {h : Word} {p : Nat} {addr : BitVec 7} {cmd : Byte} {dir : Dir} {count : BitVec 4} {dest ev : Word}
    {s t : State} (ht : busStartBody h p addr cmd dir count dest ev s = .ok t) : s.Extends t := by
  unfold busStartBody at ht
  simp only at ht
  split_ifs at ht
  cases ht
  simp [State.Extends]

theorem extends_busResetBody (p : Nat) (s : State) : s.Extends (busResetBody p s) := by
  simp [State.Extends, busResetBody]

theorem extends_serStartBody {p : Nat} {bytes : List Byte} {s t : State} (ht : serStartBody p bytes s = .ok t) : s.Extends t := by
  unfold serStartBody at ht
  split_ifs at ht
  · cases ht
    exact .refl s
  · obtain ⟨-, hb⟩ | ⟨-, hb⟩ := serBegin_cases p bytes s <;> rw [hb] at ht <;> cases ht
    exact (extends_serEffects p bytes s).trans (by simp [State.Extends])

theorem extends_qPushBody {q : Nat} {payload : List Byte} {s t : State} (ht : qPushBody q payload s = .ok t) : s.Extends t := by
  unfold qPushBody at ht
  split_ifs at ht
  cases ht
  simp [State.Extends]

theorem extends_qPopFrame {q : Nat} {diag : Bool} {lb : Nat} {s t : State} (ht : qPopFrame q diag lb s = .ok t) : s.Extends t := by
  unfold qPopFrame at ht
  cases diag with
  | false =>
    simp only at ht
    split_ifs at ht
    cases ht
    simp [State.Extends, serEffects]
  | true =>
    simp only at ht
    split_ifs at ht
    cases ht
    simp [State.Extends]

theorem extends_qPopBody {q : Nat} {diag : Bool} {s t : State} (ht : qPopBody q diag s = .ok t) : s.Extends t := by
  unfold qPopBody at ht
  simp only at ht
  split_ifs at ht
  · cases ht
    simp [State.Extends]
  · exact extends_qPopFrame ht

/-- The rule of every command, where it raises no fault, only appends to the traces. -/
theorem extends_commandBody {i : Instr} {s t : State} (h : commandBody s i = .ok t) : s.Extends t := by
  cases i with
  | arbBlock => exact extends_arbBlockBody h
  | arbUnblock => exact extends_arbUnblockBody h
  | busStart => exact extends_busStartBody h
  | serStart => exact extends_serStartBody h
  | qPush => exact extends_qPushBody h
  | qPop => exact extends_qPopBody h
  | arbEnter =>
    cases h
    exact State.Extends.trans (by simp [State.Extends]) (State.extends_sleepAt _ _)
  | busReset =>
    cases h
    exact extends_busResetBody _ s
  | schedOpen | schedPost | schedClear | schedPoll | arbOpen | arbFloor | busBusy | serBusy | qOpen | qFree =>
    cases h
    simp [State.Extends]

/-- A command raises a fault of the state it starts from, or applies its rule. -/
theorem exec_next {i : Instr} {s t : State} (h : exec i s = .next t) : (∃ f, t = s.raiseFault f) ∨ s.Extends t := by
  rw [exec_eq_runCommand] at h
  obtain ⟨f, -, hr⟩ | ⟨f, -, -, hr⟩ | ⟨u, -, hu, hr⟩ := runCommand_cases i s (commandBody s i) <;> rw [hr] at h <;> cases h
  · exact .inl ⟨f, rfl⟩
  · exact .inl ⟨f, rfl⟩
  · exact .inr ((extends_commandBody hu).trans u.extends_endCommand)

theorem commandStep_next {c : Ctx} {s t : State} (h : commandStep c s = .next t) : s.FaultsTo t ∨ s.Extends t := by
  unfold commandStep at h
  split at h
  · cases h
    exact .inr (.refl s)
  · cases h
    exact .inl (s.faultsTo_raiseFault _)
  · next i u hf =>
    obtain ⟨-, rest, -, rfl⟩ := fetchCommand_command hf
    obtain ⟨f, rfl⟩ | ht := exec_next h
    · exact .inl ⟨f, by cases c <;> rfl⟩
    · exact .inr ((s.extends_takeFrom c rest).trans ht)

/-! Handler steps -/

theorem extends_busRetry {p : Nat} {s t : State} (h : busRetry p s = .ok t) : s.Extends t := by
  unfold busRetry at h
  simp only at h
  split_ifs at h
  cases h
  simp [State.Extends]

theorem extends_busStoreHigh {p : Nat} {s t : State} (h : busStoreHigh p s = .ok t) : s.Extends t := by
  unfold busStoreHigh at h
  simp only at h
  split at h
  · cases h
  · next u hw =>
    cases h
    exact (State.extends_memWrite hw).trans (by simp [State.Extends])

theorem extends_busMergeLow {p : Nat} {s t : State} (h : busMergeLow p s = .ok t) : s.Extends t := by
  unfold busMergeLow at h
  simp only at h
  split at h
  · cases h
  · split at h
    · cases h
    · next u hw =>
      cases h
      exact (State.extends_memWrite hw).trans (by simp [State.Extends])

theorem extends_busTransition {p : Nat} {k : BusFlag} {s t : State} (h : busTransition p k s = .ok t) : s.Extends t := by
  unfold busTransition at h
  split at h
  · cases h
    simp [State.Extends]
  · cases h
    simp [State.Extends]
  · cases h
    simp [State.Extends]
  · exact extends_busRetry h
  · exact extends_busStoreHigh h
  · exact extends_busMergeLow h
  · cases h
    simp [State.Extends]
  · cases h

theorem extends_serTransition {p : Nat} {k : SerFlag} {s t : State} (h : serTransition p k s = .ok t) : s.Extends t := by
  unfold serTransition at h
  split at h <;> cases h <;> simp [State.Extends]

/-- A handler's end raises a fault of the state before the step, or keeps the transition's effects. -/
theorem finishHandler_extends {s t : State} {r : Result} (hr : ∀ u, r = .ok u → s.Extends u) (h : finishHandler s r = .next t) :
    s.FaultsTo t ∨ s.Extends t := by
  obtain ⟨u, hu, rfl⟩ | ⟨f, -, rfl⟩ := finishHandler_next h
  · exact .inr (hr u hu)
  · exact .inl (s.faultsTo_raiseFault f)

theorem busHandler_next {p : Nat} {k : BusFlag} {s t : State} (h : busHandler p k s = .next t) : s.FaultsTo t ∨ s.Extends t := by
  unfold busHandler at h
  split at h
  · exact finishHandler_extends (fun u hu => (s.extends_setBus p _).trans (extends_busTransition hu)) h
  · cases h
    exact .inr (.refl s)

theorem serHandler_next {p : Nat} {k : SerFlag} {s t : State} (h : serHandler p k s = .next t) : s.FaultsTo t ∨ s.Extends t := by
  unfold serHandler at h
  split at h
  · exact finishHandler_extends (fun u hu => (s.extends_setSer p _).trans (extends_serTransition hu)) h
  · cases h
    exact .inr (.refl s)

/-! The other steps -/

theorem extends_applyEvent (e : Event) (s : State) : s.Extends (applyEvent e s) := by
  cases e <;> exact .refl s

theorem eventStep_next {s t : State} (h : eventStep s = .next t) : s.Extends t := by
  unfold eventStep at h
  split at h
  · cases h
    exact .refl s
  · split at h <;> cases h
    exact extends_applyEvent _ _

theorem extends_busResetCompletion (p : Nat) (s : State) : s.Extends (busResetCompletion p s) := by
  simp [State.Extends, busResetCompletion]

theorem serStartCompletion_effect (p : Nat) (bytes : List Byte) (s : State) :
    s.FaultsTo (serStartCompletion p bytes s) ∨ s.Extends (serStartCompletion p bytes s) := by
  unfold serStartCompletion
  obtain ⟨-, hb⟩ | ⟨-, hb⟩ := serBegin_cases p bytes s <;> rw [hb]
  · exact .inl (s.faultsTo_raiseFault _)
  · exact .inr ((extends_serEffects p bytes s).trans (by simp [State.Extends]))

theorem completionStep_effect (s : State) : s.FaultsTo (completionStep s) ∨ s.Extends (completionStep s) := by
  unfold completionStep
  split
  · exact .inr (.refl s)
  · split
    · exact .inr (.refl s)
    · exact serStartCompletion_effect _ _ s
  · split
    · exact .inr (extends_busResetCompletion _ s)
    · exact .inr (.refl s)

theorem extends_hostStoreStep (s : State) : s.Extends (hostStoreStep s) := by
  unfold hostStoreStep
  split
  · exact .refl s
  · split <;> exact .refl s

/-- Whatever step a move names, it raises a precise fault or applies effects that only append to the traces. -/
theorem moveStep_next {m : Move} {s t : State} (h : moveStep m s = .next t) : s.FaultsTo t ∨ s.Extends t := by
  cases m with
  | command c => exact commandStep_next h
  | event => exact .inr (eventStep_next h)
  | busHandler p k => exact busHandler_next h
  | serHandler p k => exact serHandler_next h
  | completion =>
    cases h
    exact completionStep_effect s
  | hostStore =>
    cases h
    exact .inr (extends_hostStoreStep s)

/-- A step raises a precise fault of the state with its move taken, or applies effects that only append to the traces. -/
theorem step_effect {s t : State} (h : step s = .next t) :
    { s with moves := s.moves.tail }.FaultsTo t ∨ s.Extends t := by
  obtain ⟨-, ⟨-, rfl⟩ | ⟨m, rest, hm, hs⟩⟩ := step_next h
  · exact .inr (.refl t)
  · rw [hm]
    exact moveStep_next hs

/-! The statements of 00_scope.md -/

/-- Settles O11: effects that raise no fault keep the fault code, which is 0 before any step. -/
theorem raisedFaultIsPrecise : Obligations.RaisedFaultIsPrecise := by
  intro s t h ht
  obtain ⟨hs, -⟩ := step_next h
  obtain ⟨f, hf⟩ | ⟨-, hcode, -, -⟩ := step_effect h
  · rw [hf]
    rfl
  · exact absurd (hcode.trans hs) ht

/-- Settles O56: a fault leaves the traces and the parameters, every other effect only appends. -/
theorem tracesOnlyGrow : Obligations.TracesOnlyGrow := by
  intro s t h
  obtain ⟨f, hf⟩ | ⟨hcfg, -, ⟨acts, hact⟩, ⟨rs, hresp⟩⟩ := step_effect h
  · rw [hf]
    exact ⟨rfl, ⟨[], by simp⟩, ⟨[], by simp⟩⟩
  · exact ⟨hcfg, ⟨acts, hact.symm⟩, ⟨rs, hresp.symm⟩⟩

/-- Settles O7: the port is open, so the fetch hands over the decoded command. -/
theorem stepRunsTheDecodedCommand : Obligations.StepRunsTheDecodedCommand := by
  intro s c ms i rest hh hm hopen hd
  have ha : ({ s with moves := ms } : State).accepts c = true := by
    cases c with
    | fg => exact State.accepts_fg.2 (hopen rfl)
    | irq => exact State.accepts_irq _
  calc step s = commandStep c { s with moves := ms } := step_move hh hm
    _ = exec i (({ s with moves := ms } : State).takeFrom c rest) := commandStep_of_decode ha (by cases c <;> exact hd)
    _ = _ := by cases c <;> rfl

/-- Settles O8: `step_move` for each move; the closed `FG` port hands over nothing. -/
theorem stepTakesTheNamedMove : Obligations.StepTakesTheNamedMove := by
  intro s ms hh
  refine ⟨step_of_no_moves hh, step_move hh, fun p k => step_move hh, fun p k => step_move hh, step_move hh, fun hm hclosed => ?_⟩
  have ha : ({ s with moves := ms } : State).accepts .fg = false := by
    rw [← Bool.not_eq_true, State.accepts_fg]
    rintro ⟨hheld, hawake⟩
    obtain h | h := hclosed
    · exact h hheld
    · exact Bool.false_ne_true (hawake.symm.trans h)
  exact (step_move hh hm).trans (commandStep_of_not_accepts ha)

/-- Settles O9: a nonzero fault code closes both the step and quiescence. -/
theorem haltedCoreTakesNoStep : Obligations.HaltedCoreTakesNoStep :=
  fun _ h => ⟨step_of_halted h, quiescent_of_halted h⟩

end Sys2Proof.Machine
end

section
/-! The invariant of 10_state.md R38, a clause per element, and one rule per state operation that keeps it. -/

namespace Sys2Proof.Machine

/-! The invariant, a clause per element -/

/-- The clauses of the invariant on one bus engine. -/
def BusUnit.Checked (c : Params) (u : BusUnit) : Prop :=
  fitsIn c.evtW u.recEvt = true ∧
    (u.busBusy = true → u.recDir = .read ∧ u.recCount = 2#4 ∧ u.recDest.getLsbD 0 = false ∧ c.admits u.recDest 2 = true)

/-- The clauses of the invariant on one serial engine. -/
def SerUnit.Sound (c : Params) (u : SerUnit) : Prop := u.txbuf.length = c.txCap ∧ u.Coherent c.txCap

/-- The clauses of the invariant on one queue. -/
def QueueUnit.Sound (c : Params) (u : QueueUnit) : Prop :=
  (u.qbuf.length = c.qcap ∧ u.diagbuf.length = c.diagCap) ∧ u.qrd < c.qcap ∧ u.qwr < c.qcap ∧ u.diagLen.toNat ≤ c.diagCap

/-- `State.Inv` with its clauses named and sorted by the element they speak of, so that an operation renews only the clauses of the
elements it writes. -/
structure State.Sound (s : State) : Prop where
  legal : s.cfg.legal = true
  cntLength : s.cnt.length = s.cfg.nDepth
  busLength : s.bus.length = s.cfg.nBus
  serLength : s.ser.length = s.cfg.nSer
  queueLength : s.queue.length = s.cfg.nSer
  bounded : s.CountersBounded
  pending : fitsIn s.cfg.evtW s.pending = true
  bus : ∀ u ∈ s.bus, u.Checked s.cfg
  ser : ∀ u ∈ s.ser, u.Sound s.cfg
  queue : ∀ u ∈ s.queue, u.Sound s.cfg
  held : s.HeldOk
  memory : Memory.wf s.dmem = true

theorem State.inv_iff_sound (s : State) : s.Inv ↔ s.Sound := by
  constructor
  · rintro ⟨hlegal, ⟨hcnt, hbus, hser, hqueue, htx, hq⟩, hbound, ⟨hpend, hevt⟩, hidx, hcoh, hrec, hheld, hmem⟩
    exact ⟨hlegal, hcnt, hbus, hser, hqueue, hbound, hpend, fun u hu => ⟨hevt u hu, hrec u hu⟩, fun u hu => ⟨htx u hu, hcoh u hu⟩,
      fun u hu => ⟨hq u hu, hidx u hu⟩, hheld, hmem⟩
  · rintro ⟨hlegal, hcnt, hbus, hser, hqueue, hbound, hpend, hb, hs, hq, hheld, hmem⟩
    exact ⟨hlegal, ⟨hcnt, hbus, hser, hqueue, fun u hu => (hs u hu).1, fun u hu => (hq u hu).1⟩, hbound, ⟨hpend, fun u hu => (hb u hu).1⟩,
      fun u hu => (hq u hu).2, fun u hu => (hs u hu).2, fun u hu => (hb u hu).2, hheld, hmem⟩

/-! Parameters, masks and lists -/

theorem Params.qcap_pos {c : Params} (h : c.legal = true) : 0 < c.qcap := by
  simp only [Params.legal, Bool.and_eq_true, isQueueCapacity, List.any_eq_true, decide_eq_true_eq] at h
  obtain ⟨k, -, -, hk⟩ : ∃ k, k ∈ List.range 17 ∧ 1 ≤ k ∧ c.qcap = 2 ^ k := by tauto
  rw [hk]
  exact Nat.two_pow_pos k

theorem fitsIn_zero (n : Nat) : fitsIn n 0#32 = true := by
  simp [fitsIn]

theorem fitsIn_or {n : Nat} {a b : Word} (ha : fitsIn n a = true) (hb : fitsIn n b = true) : fitsIn n (a ||| b) = true := by
  simp only [fitsIn, decide_eq_true_eq, BitVec.toNat_or] at *
  exact Nat.or_lt_two_pow ha hb

theorem fitsIn_and {n : Nat} {a : Word} (ha : fitsIn n a = true) (b : Word) : fitsIn n (a &&& b) = true := by
  simp only [fitsIn, decide_eq_true_eq, BitVec.toNat_and] at *
  exact lt_of_le_of_lt Nat.and_le_left ha

/-- 30_encoding.md R61. -/
theorem State.eventMask_fits {s : State} (h : s.cfg.legal = true) (w : Word) : fitsIn s.cfg.evtW (s.eventMask w) = true := by
  have hw : 2 ^ s.cfg.evtW ≤ 2 ^ 32 := Nat.pow_le_pow_right (by omega) (Params.legal_bounds h).1
  have hpos := Nat.two_pow_pos s.cfg.evtW
  simp only [fitsIn, State.eventMask, decide_eq_true_eq, BitVec.toNat_and, BitVec.toNat_ofNat]
  rw [Nat.mod_eq_of_lt (by omega)]
  exact Nat.and_lt_two_pow _ (by omega)

theorem Params.evtTxDone_fits {c : Params} (h : c.legal = true) (p : Nat) : fitsIn c.evtW (c.evtTxDone.getD p 0#32) = true := by
  simp only [Params.legal, Bool.and_eq_true, List.all_eq_true] at h
  obtain ⟨-, hall⟩ := h
  rw [List.getD_eq_getElem?_getD]
  cases hp : c.evtTxDone[p]? with
  | none => exact fitsIn_zero _
  | some m => exact hall m (List.mem_of_getElem? hp)

/-- A payload that a serial engine takes (43_serial_tx.md R111). -/
theorem length_of_not_badTxLength {c : Params} {n : Nat} (h : ¬badTxLength c n = true) : 1 ≤ n ∧ n ≤ c.txCap := by
  simp only [badTxLength, Bool.or_eq_true, decide_eq_true_eq, not_or] at h
  omega

theorem forall_mem_set {α : Type} {P : α → Prop} {l : List α} {n : Nat} {a : α} (hl : ∀ x ∈ l, P x) (ha : P a) :
    ∀ x ∈ l.set n a, P x := by
  intro x hx
  obtain hx | rfl := List.mem_or_eq_of_mem_set hx
  · exact hl x hx
  · exact ha

theorem forall_getD {α : Type} {P : α → Prop} {l : List α} {d : α} (hl : ∀ x ∈ l, P x) (hd : P d) (n : Nat) : P (l.getD n d) := by
  rw [List.getD_eq_getElem?_getD]
  cases hn : l[n]? with
  | none => exact hd
  | some a => exact hl a (List.mem_of_getElem? hn)

/-! The units after reset -/

theorem BusUnit.checked_reset (c : Params) : BusUnit.reset.Checked c :=
  ⟨fitsIn_zero _, fun h => nomatch h⟩

theorem SerUnit.sound_reset (c : Params) : (SerUnit.reset c).Sound c := by
  simp [SerUnit.Sound, SerUnit.Coherent, SerUnit.reset]

theorem QueueUnit.sound_reset {c : Params} (h : c.legal = true) : (QueueUnit.reset c).Sound c := by
  simp [QueueUnit.Sound, QueueUnit.reset, Params.qcap_pos h]

theorem State.sound_resetOf {c : Params} (h : c.legal = true) : (State.resetOf c).Sound where
  legal := h
  cntLength := List.length_replicate
  busLength := List.length_replicate
  serLength := List.length_replicate
  queueLength := List.length_replicate
  bounded := fun x hx => by simp [List.eq_of_mem_replicate hx]
  pending := fitsIn_zero _
  bus := fun u hu => List.eq_of_mem_replicate hu ▸ BusUnit.checked_reset c
  ser := fun u hu => List.eq_of_mem_replicate hu ▸ SerUnit.sound_reset c
  queue := fun u hu => List.eq_of_mem_replicate hu ▸ QueueUnit.sound_reset h
  held := trivial
  memory := Memory.wf_resetOf c

/-! The hold -/

theorem State.heldOk_serStart {s : State} {p : Nat} {bytes : List Byte} (h : s.fgHeld = .serStart p bytes) :
    s.HeldOk ↔ s.fgAsleep = false ∧ p < s.cfg.nSer ∧ 1 ≤ bytes.length ∧ bytes.length ≤ s.cfg.txCap := by
  simp only [State.HeldOk, h]

theorem State.heldOk_busReset {s : State} {p : Nat} (h : s.fgHeld = .busReset p) :
    s.HeldOk ↔ s.fgAsleep = false ∧ p < s.cfg.nBus ∧ (s.busAt p).bien = 0#4 := by
  simp only [State.HeldOk, h]

/-! What a transmission does to its engine -/

section Serial

variable {c : Params} {u : SerUnit}

theorem SerUnit.Sound.start (h : u.Sound c) (hc : c.legal = true) {bytes : List Byte} (hpos : 1 ≤ bytes.length)
    (hcap : bytes.length ≤ c.txCap) : (u.start bytes).Sound c := by
  obtain ⟨hbuf, -⟩ := h
  have htx := Params.legal_bounds hc
  have hlen : (BitVec.ofNat 16 bytes.length).toNat = bytes.length := by
    rw [BitVec.toNat_ofNat, Nat.mod_eq_of_lt (by omega)]
  rw [SerUnit.start_eq]
  refine ⟨?_, ?_⟩
  · simp only [List.length_append, List.length_drop, hbuf]
    omega
  · simp [SerUnit.Coherent, hlen, hpos, hcap]

/-- An enabled TXBL says that the engine is busy (rule R38 item 4). -/
theorem SerUnit.Sound.busy_of_enabled (h : u.Sound c) (he : u.sien.getLsbD 0 = true) : u.serBusy = true := by
  obtain ⟨-, hidle, -⟩ := h
  rw [← Bool.not_eq_false]
  intro hb
  exact Bool.false_ne_true ((hidle hb).2.symm.trans he)

/-- An engine past its first tag is busy. -/
theorem SerUnit.Sound.busy_of_tag (h : u.Sound c) (hst : u.serState ≠ .init) : u.serBusy = true := by
  obtain ⟨-, hidle, -⟩ := h
  rw [← Bool.not_eq_false]
  exact fun hb => hst (hidle hb).1

/-- 43_serial_tx.md R115. -/
theorem SerUnit.Sound.arm (h : u.Sound c) (hst : u.serState = .init) (he : u.sien.getLsbD 0 = true) :
    { u with serState := .sendData }.Sound c := by
  have hbusy := h.busy_of_enabled he
  obtain ⟨hbuf, -, hlen, hinit, -, -⟩ := h
  have hidx := hinit hbusy hst
  have hpos := (hlen hbusy).1
  exact ⟨hbuf, by simpa [SerUnit.Coherent, hbusy, hidx] using ⟨hlen hbusy, hpos⟩⟩

/-- 43_serial_tx.md R116. -/
theorem SerUnit.Sound.advance (h : u.Sound c) (hst : u.serState = .sendData) : u.advance.Sound c ∧ u.advance.serBusy = u.serBusy := by
  have hbusy := h.busy_of_tag (by simp [hst])
  obtain ⟨hbuf, -, hlen, -, hsend, -⟩ := h
  have hlt := hsend hst
  unfold SerUnit.advance
  simp only
  split_ifs with hend
  · refine ⟨⟨hbuf, ?_⟩, rfl⟩
    simp [SerUnit.Coherent, SerUnit.disableFlag, SerUnit.enableFlag, SerFlag.bit, setBit, clearBit, hbusy, hlen hbusy, hend]
  · have hnext : (u.txIdx + 1#16).toNat < u.txLen.toNat := by bv_omega
    exact ⟨⟨hbuf, by simp only [SerUnit.Coherent, hbusy, hst]; simpa using ⟨hlen hbusy, hnext⟩⟩, rfl⟩

/-- 43_serial_tx.md R117. -/
theorem SerUnit.Sound.finish (h : u.Sound c) (hst : u.serState = .stopClose) :
    { u with stxen := false, serBusy := false, serState := .init }.Sound c := by
  obtain ⟨hbuf, -, -, -, -, hstop⟩ := h
  refine ⟨hbuf, ?_⟩
  simpa [SerUnit.Coherent] using (hstop hst).2

end Serial

/-! What a push and a pop do to their queue -/

section Queue

variable {c : Params} {u : QueueUnit}

theorem QueueUnit.Sound.and_mask_lt (h : u.Sound c) (n : Nat) : n &&& (c.qcap - 1) < c.qcap := by
  obtain ⟨-, hrd, -, -⟩ := h
  have : n &&& (c.qcap - 1) ≤ c.qcap - 1 := Nat.and_le_right
  omega

theorem QueueUnit.Sound.setRead (h : u.Sound c) (n : Nat) : { u with qrd := n &&& (c.qcap - 1) }.Sound c := by
  have hlt := h.and_mask_lt n
  obtain ⟨hlen, -, hwr, hdiag⟩ := h
  exact ⟨hlen, hlt, hwr, hdiag⟩

/-- 44_framed_queue.md R124. -/
theorem QueueUnit.Sound.put (h : u.Sound c) (b : Byte) : (u.put (c.qcap - 1) b).Sound c := by
  have hlt := h.and_mask_lt (u.qwr + 1)
  obtain ⟨⟨hq, hd⟩, hrd, -, hdiag⟩ := h
  exact ⟨⟨by simpa [QueueUnit.put] using hq, hd⟩, hrd, hlt, hdiag⟩

theorem QueueUnit.Sound.putFrame (h : u.Sound c) (payload : List Byte) : (u.putFrame (c.qcap - 1) payload).Sound c := by
  unfold QueueUnit.putFrame
  generalize frame payload = bytes
  induction bytes generalizing u with
  | nil => exact h
  | cons b bytes ih => exact ih (h.put b)

/-- 44_framed_queue.md R125. -/
theorem QueueUnit.Sound.capture (h : u.Sound c) {pay : List Byte} (hp : pay.length ≤ c.diagCap) : (u.capture pay).Sound c := by
  obtain ⟨⟨hq, hd⟩, hrd, hwr, -⟩ := h
  refine ⟨⟨hq, ?_⟩, hrd, hwr, ?_⟩
  · simp only [QueueUnit.capture, List.length_append, List.length_drop, hd]
    omega
  · exact (Nat.mod_le _ _).trans hp

/-- 44_framed_queue.md R123. -/
theorem QueueUnit.Sound.cleared (h : u.Sound c) : { u with qrd := 0, qwr := 0, diagLen := 0#16 }.Sound c := by
  obtain ⟨hlen, hrd, -, -⟩ := h
  exact ⟨hlen, Nat.zero_lt_of_lt hrd, Nat.zero_lt_of_lt hrd, Nat.zero_le _⟩

end Queue

namespace State.Sound

variable {s : State}

/-! What it says of one unit, the machine's own or the one read past the end of the list -/

theorem busAt (h : s.Sound) (p : Nat) : (s.busAt p).Checked s.cfg := forall_getD h.bus (BusUnit.checked_reset _) p

theorem serAt (h : s.Sound) (p : Nat) : (s.serAt p).Sound s.cfg := forall_getD h.ser (SerUnit.sound_reset _) p

theorem queueAt (h : s.Sound) (q : Nat) : (s.queueAt q).Sound s.cfg := forall_getD h.queue (QueueUnit.sound_reset h.legal) q

theorem busDepth_lt (h : s.Sound) : s.cfg.busDepth < s.cnt.length := by
  have := Params.legal_bounds h.legal
  have := h.cntLength
  omega

theorem serDepth_lt (h : s.Sound) : s.cfg.serDepth < s.cnt.length := by
  have := Params.legal_bounds h.legal
  have := h.cntLength
  omega

theorem cntAt_le (h : s.Sound) (d : Nat) : (s.cntAt d).toNat ≤ s.cfg.blockMax :=
  forall_getD (P := fun x : BitVec 8 => x.toNat ≤ s.cfg.blockMax) h.bounded (Nat.zero_le _) d

theorem bien_eq_zero (h : s.Sound) {p : Nat} (hp : s.fgHeld = .busReset p) : (s.busAt p).bien = 0#4 := by
  obtain ⟨-, -, hb⟩ := (State.heldOk_busReset hp).1 h.held
  exact hb

/-- 42_bus_master.md R97: a held `BUS.RESET` lets no handler step of its engine happen. -/
theorem not_held_of_enabled (h : s.Sound) {p : Nat} {k : BusFlag} (hk : (s.busAt p).enabled k = true) : s.fgHeld ≠ .busReset p := by
  intro hp
  simp [BusUnit.enabled, h.bien_eq_zero hp] at hk

/-! One rule per operation -/

theorem setBus (h : s.Sound) {p : Nat} {u : BusUnit} (hu : u.Checked s.cfg) (hb : s.fgHeld = .busReset p → u.bien = 0#4) :
    (s.setBus p u).Sound :=
  { h with
    busLength := by simpa using h.busLength
    bus := forall_mem_set h.bus hu
    held := by
      have hheld := h.held
      simp only [State.HeldOk, State.setBus_fgHeld, State.setBus_fgAsleep, State.setBus_cfg] at hheld ⊢
      split at hheld
      · trivial
      · exact hheld
      · next q hq =>
        obtain ⟨hawake, hlt, hbien⟩ := hheld
        refine ⟨hawake, hlt, ?_⟩
        by_cases hqp : q = p
        · subst hqp
          rw [State.busAt_setBus_same (h.busLength ▸ hlt)]
          exact hb hq
        · rw [State.busAt_setBus_other hqp]
          exact hbien }

theorem setSer (h : s.Sound) {p : Nat} {u : SerUnit} (hu : u.Sound s.cfg) : (s.setSer p u).Sound :=
  { h with
    serLength := by simpa using h.serLength
    ser := forall_mem_set h.ser hu }

theorem setQueue (h : s.Sound) {q : Nat} {u : QueueUnit} (hu : u.Sound s.cfg) : (s.setQueue q u).Sound :=
  { h with
    queueLength := by simpa using h.queueLength
    queue := forall_mem_set h.queue hu }

theorem setPending (h : s.Sound) {m : Word} (hm : fitsIn s.cfg.evtW m = true) : { s with pending := m }.Sound :=
  { h with pending := hm }

theorem setMemory (h : s.Sound) {m : List Host.Cell} (hm : Memory.wf m = true) : { s with dmem := m }.Sound :=
  { h with memory := hm }

theorem hold (h : s.Sound) {x : Held} (hx : { s with fgHeld := x }.HeldOk) : { s with fgHeld := x }.Sound :=
  { h with held := hx }

theorem awake (h : s.Sound) : { s with fgAsleep := false }.Sound :=
  { h with
    held := by
      have hheld := h.held
      simp only [State.HeldOk] at hheld ⊢
      split at hheld
      · trivial
      · exact ⟨trivial, hheld.2⟩
      · exact ⟨trivial, hheld.2⟩ }

theorem setCnt (h : s.Sound) {d : Nat} {v : BitVec 8} (hv : v.toNat ≤ s.cfg.blockMax) : { s with cnt := s.cnt.set d v }.Sound :=
  { h with
    cntLength := by simpa using h.cntLength
    bounded := forall_mem_set h.bounded hv }

/-- 41_arbiter.md R82. -/
theorem lt_blockMax {d : Nat} (hd : s.blockFull d = false) : (s.cntAt d).toNat < s.cfg.blockMax := by
  simp only [State.blockFull, decide_eq_false_iff_not] at hd
  omega

theorem block (h : s.Sound) {d : Nat} (hd : s.blockFull d = false) : (s.block d).Sound :=
  h.setCnt (by have := lt_blockMax hd; bv_omega)

theorem unblock (h : s.Sound) (d : Nat) : (s.unblock d).Sound := by
  unfold State.unblock
  split
  · exact h.setCnt (by have := h.cntAt_le d; bv_omega)
  · exact h

end State.Sound

end Sys2Proof.Machine
end

section
/-! What a step keeps of 10_state.md R38, but for named exceptions, and one rule per effect for it. -/

namespace Sys2Proof.Machine

/-! Counting the busy engines -/

/-- Writing an entry counts the new one for the old one; past the end of the list it counts nothing. -/
theorem countP_set_getD_le {α : Type} {q : α → Bool} (l : List α) (n : Nat) (a : α) {d : α} (hd : q d = false) :
    (l.set n a).countP q + (q (l.getD n d)).toNat ≤ l.countP q + (q a).toNat := by
  by_cases h : n < l.length
  · have hpos : q l[n] = true → 1 ≤ l.countP q := fun hq => List.countP_pos_iff.2 ⟨l[n], List.getElem_mem h, hq⟩
    rw [List.countP_set h, List.getD_eq_getElem l d h]
    cases hold : q l[n] <;> cases hnew : q a <;> simp_all
  · have hlen := Nat.le_of_not_lt h
    rw [List.set_eq_of_length_le hlen, List.getD_eq_default l d hlen, hd]
    exact Nat.le_add_right _ _

/-! Blocks owed and blocks counted -/

theorem State.BlocksHeld.of_le {s t : State} (h : s.BlocksHeld) (hcfg : t.cfg = s.cfg) (hcnt : t.cnt = s.cnt)
    (ho : ∀ d, t.blocksOwed d ≤ s.blocksOwed d) : t.BlocksHeld := by
  intro d hd
  have hcd : t.cntAt d = s.cntAt d := by simp only [State.cntAt, hcnt]
  rw [hcd]
  exact (ho d).trans (h d (hcfg ▸ hd))

/-- One more block of depth `d₀` lets one more engine of that depth be busy. -/
theorem State.BlocksHeld.oneMore {s t : State} {d₀ : Nat} (h : s.BlocksHeld) (hcfg : t.cfg = s.cfg) (hc : s.CountsOneMore t d₀)
    (ho : ∀ d, t.blocksOwed d ≤ s.blocksOwed d + if d = d₀ then 1 else 0) : t.BlocksHeld := by
  intro d hd
  have hs := h d (hcfg ▸ hd)
  have hd' := ho d
  obtain ⟨hsame, hother⟩ := hc
  split_ifs at hd' with hdd
  · subst hdd
    omega
  · rw [hother d hdd]
    omega

/-- One block of depth `d₀` less is none too few where one busy engine of that depth less is there, or none was. -/
theorem State.BlocksHeld.oneLess {s t : State} {d₀ : Nat} (h : s.BlocksHeld) (hcfg : t.cfg = s.cfg) (hc : s.CountsOneLess t d₀)
    (ho : ∀ d, t.blocksOwed d ≤ s.blocksOwed d - if d = d₀ then 1 else 0) : t.BlocksHeld := by
  intro d hd
  have hs := h d (hcfg ▸ hd)
  have hd' := ho d
  obtain ⟨hsame, hother⟩ := hc
  split_ifs at hd' with hdd
  · subst hdd
    omega
  · rw [hother d hdd]
    omega

/-- A write to a bus engine owes the new one's block for the old one's. -/
theorem State.blocksOwed_setBus_le (s : State) (p : Nat) (u : BusUnit) (d : Nat) :
    (s.setBus p u).blocksOwed d + (if d = s.cfg.busDepth then (s.busAt p).busBusy.toNat else 0)
      ≤ s.blocksOwed d + (if d = s.cfg.busDepth then u.busBusy.toNat else 0) := by
  have hcount : (s.setBus p u).bus.countP (fun u => u.busBusy) + (s.busAt p).busBusy.toNat
      ≤ s.bus.countP (fun u => u.busBusy) + u.busBusy.toNat := countP_set_getD_le s.bus p u rfl
  unfold State.blocksOwed
  rw [State.setBus_cfg, State.setBus_ser]
  split_ifs <;> omega

/-- A write to a serial engine owes the new one's block for the old one's. -/
theorem State.blocksOwed_setSer_le (s : State) (p : Nat) (u : SerUnit) (d : Nat) :
    (s.setSer p u).blocksOwed d + (if d = s.cfg.serDepth then (s.serAt p).serBusy.toNat else 0)
      ≤ s.blocksOwed d + (if d = s.cfg.serDepth then u.serBusy.toNat else 0) := by
  have hcount : (s.setSer p u).ser.countP (fun u => u.serBusy) + (s.serAt p).serBusy.toNat
      ≤ s.ser.countP (fun u => u.serBusy) + u.serBusy.toNat := countP_set_getD_le s.ser p u rfl
  unfold State.blocksOwed
  rw [State.setSer_cfg, State.setSer_bus]
  split_ifs <;> omega

theorem State.blocksOwed_unblock (s : State) (d' d : Nat) : (s.unblock d').blocksOwed d = s.blocksOwed d := by
  simp only [State.blocksOwed, State.unblock_cfg, State.unblock_bus, State.unblock_ser]

/-! The relation -/

/-- From `s` to `t` the invariant is kept; every idle bus engine `p` keeps its first tag but for the exception `A p`; every busy engine's
block stays counted but for the exception `R`. -/
structure State.Keeps (A : Nat → Prop) (R : Prop) (s t : State) : Prop where
  sound : t.Sound
  idle : ∀ p, s.IdleBusAtInit p → t.IdleBusAtInit p ∨ A p
  blocks : s.BlocksHeld → t.BlocksHeld ∨ R

/-- The two states differ at most in elements that no clause of R38 speaks of: the fault register, the traces, the ports and what waits
there, the context tag, the sleep depth. -/
def State.SameUnits (s t : State) : Prop :=
  t = { s with
    faultCode := t.faultCode, faultUnit := t.faultUnit, faultInst := t.faultInst, faultInfo := t.faultInfo, fgDepth := t.fgDepth
    act := t.act, ctx := t.ctx, resp := t.resp, fgPort := t.fgPort, irqPort := t.irqPort, evtPort := t.evtPort
    hostStores := t.hostStores, moves := t.moves }

/-- The record of engine `v` is that of `u`, and `v` is not newly busy. -/
structure BusUnit.Continues (u v : BusUnit) : Prop where
  record : v = { u with
    busState := v.busState, busBusy := v.busBusy, bien := v.bien, bifReg := v.bifReg, brxdata := v.brxdata, bpidle := v.bpidle
    bautoack := v.bautoack, bienSave := v.bienSave, nackCnt := v.nackCnt }
  busy : v.busBusy = true → u.busBusy = true

theorem BusUnit.Checked.continues {c : Params} {u v : BusUnit} (h : u.Checked c) (hv : u.Continues v) : v.Checked c := by
  obtain ⟨hevt, hrec⟩ := h
  rw [hv.record]
  exact ⟨hevt, fun hb => hrec (hv.busy hb)⟩

theorem State.SameUnits.sound {s t : State} (h : s.SameUnits t) (hs : s.Sound) : t.Sound := by
  rw [h]
  exact { hs with }

theorem State.idleBusAtInit_setBus {s : State} {p : Nat} {u : BusUnit} (hu : u.busBusy = false → u.busState = .initSendAddr) {q : Nat}
    (hq : q ≠ p → s.IdleBusAtInit q) : (s.setBus p u).IdleBusAtInit q := by
  by_cases hqp : q = p
  · subst hqp
    by_cases hlt : q < s.bus.length
    · rw [State.IdleBusAtInit, State.busAt_setBus_same hlt]
      exact hu
    · intro
      simp [State.busAt, List.getD, hlt, BusUnit.reset]
  · rw [State.IdleBusAtInit, State.busAt_setBus_other hqp]
    exact hq hqp

namespace State.Keeps

variable {A : Nat → Prop} {R : Prop} {s t u : State}

theorem refl (h : s.Sound) : s.Keeps A R s := ⟨h, fun _ => .inl, .inl⟩

theorem trans (h : s.Keeps A R t) (h' : t.Keeps A R u) : s.Keeps A R u where
  sound := h'.sound
  idle p hp := (h.idle p hp).elim (h'.idle p) .inr
  blocks hb := (h.blocks hb).elim h'.blocks .inr

theorem sameUnits (h : s.Keeps A R t) (hu : t.SameUnits u) : s.Keeps A R u := by
  refine ⟨hu.sound h.sound, ?_, ?_⟩ <;> rw [hu]
  · exact h.idle
  · exact h.blocks

/-! Effects on elements that items 2 and 6 do not speak of -/

theorem emit (h : s.Keeps A R t) (a : Action) : s.Keeps A R (t.emit a) := h.sameUnits rfl

theorem emitRepeatedStart (h : s.Keeps A R t) (p : Nat) (addr : BitVec 7) : s.Keeps A R (t.emitRepeatedStart p addr) := h.sameUnits rfl

theorem respondTo (h : s.Keeps A R t) (c : Ctx) (v : Word) : s.Keeps A R (t.respondTo c v) := h.sameUnits rfl

theorem raiseFault (h : s.Keeps A R t) (f : FaultReport) : s.Keeps A R (t.raiseFault f) := h.sameUnits rfl

theorem takeFrom (h : s.Keeps A R t) (c : Ctx) (rest : List Word) : s.Keeps A R (t.takeFrom c rest) :=
  h.sameUnits (by cases c <;> rfl)

theorem awake (h : s.Keeps A R t) : s.Keeps A R { t with fgAsleep := false } := ⟨h.sound.awake, h.idle, h.blocks⟩

theorem endCommand (h : s.Keeps A R t) : s.Keeps A R t.endCommand := by
  unfold State.endCommand
  split
  · exact h
  · exact h.awake

theorem hold (h : s.Keeps A R t) {x : Held} (hx : { t with fgHeld := x }.HeldOk) : s.Keeps A R { t with fgHeld := x } :=
  ⟨h.sound.hold hx, h.idle, h.blocks⟩

theorem setPending (h : s.Keeps A R t) {m : Word} (hm : fitsIn t.cfg.evtW m = true) : s.Keeps A R { t with pending := m } :=
  ⟨h.sound.setPending hm, h.idle, h.blocks⟩

theorem post (h : s.Keeps A R t) {m : Word} (hm : fitsIn t.cfg.evtW m = true) : s.Keeps A R (t.post m) :=
  h.setPending (fitsIn_or h.sound.pending hm)

theorem setMemory (h : s.Keeps A R t) {m : List Host.Cell} (hm : Memory.wf m = true) : s.Keeps A R { t with dmem := m } :=
  ⟨h.sound.setMemory hm, h.idle, h.blocks⟩

theorem setQueue (h : s.Keeps A R t) {q : Nat} {v : QueueUnit} (hv : v.Sound t.cfg) : s.Keeps A R (t.setQueue q v) :=
  ⟨h.sound.setQueue hv, h.idle, h.blocks⟩

/-! Effects on the engines -/

/-- An engine is written that is not newly busy, and keeps the first tag where it is idle. -/
theorem setBus (h : s.Keeps A R t) {p : Nat} {v : BusUnit} (hv : (t.busAt p).Continues v) (hb : t.fgHeld = .busReset p → v.bien = 0#4)
    (hi : t.IdleBusAtInit p → (v.busBusy = false → v.busState = .initSendAddr) ∨ A p) : s.Keeps A R (t.setBus p v) :=
  h.trans {
    sound := h.sound.setBus ((h.sound.busAt p).continues hv) hb
    idle := fun q hq => by
      by_cases hqp : q = p
      · subst hqp
        exact (hi hq).imp_left fun hinit => State.idleBusAtInit_setBus hinit (absurd rfl)
      · refine .inl ?_
        rw [State.IdleBusAtInit, State.busAt_setBus_other hqp]
        exact hq
    blocks := fun hs => .inl <| hs.of_le rfl rfl fun d => by
      have howed := t.blocksOwed_setBus_le p v d
      have hle := Bool.toNat_le_toNat (Bool.le_iff_imp.2 hv.busy)
      split_ifs at howed <;> omega }

/-- A sound serial engine is written that is not newly busy. -/
theorem setSer (h : s.Keeps A R t) {p : Nat} {v : SerUnit} (hv : v.Sound t.cfg) (hb : v.serBusy = true → (t.serAt p).serBusy = true) :
    s.Keeps A R (t.setSer p v) :=
  h.trans {
    sound := h.sound.setSer hv
    idle := fun _ => .inl
    blocks := fun hs => .inl <| hs.of_le rfl rfl fun d => by
      have howed := t.blocksOwed_setSer_le p v d
      have hle := Bool.toNat_le_toNat (Bool.le_iff_imp.2 hb)
      split_ifs at howed <;> omega }

/-! Effects on the counters, alone and with the engine whose block it is -/

theorem block (h : s.Keeps A R t) {d : Nat} (hd : d < t.cfg.nDepth) (hfull : t.blockFull d = false) : s.Keeps A R (t.block d) :=
  h.trans {
    sound := h.sound.block hfull
    idle := fun _ => .inl
    blocks := fun hs => .inl <| hs.oneMore rfl
      (State.block_counts h.sound.legal (h.sound.cntLength ▸ hd) (State.Sound.lt_blockMax hfull) rfl) fun _ => Nat.le_add_right _ _ }

/-- A release of a depth that is not one of the two dedicated ones leaves every busy engine its block. -/
theorem unblock (h : s.Keeps A R t) {d : Nat} (hd : d < t.cfg.nDepth) (hR : d = t.cfg.busDepth ∨ d = t.cfg.serDepth → R) :
    s.Keeps A R (t.unblock d) :=
  h.trans {
    sound := h.sound.unblock d
    idle := fun p hp => .inl (by simpa only [State.IdleBusAtInit, State.busAt, State.unblock_bus] using hp)
    blocks := fun hs => by
      by_cases hded : d = t.cfg.busDepth ∨ d = t.cfg.serDepth
      · exact .inr (hR hded)
      · refine .inl <| hs.oneLess (t.unblock_cfg d) (State.unblock_counts (h.sound.cntLength ▸ hd) rfl) fun e => ?_
        obtain ⟨hbus, hser⟩ := not_or.1 hded
        rw [State.blocksOwed_unblock]
        split_ifs with he
        · simp [State.blocksOwed, he, hbus, hser]
        · exact le_rfl }

/-- 42_bus_master.md R94: the engine that becomes busy has its block. -/
theorem blockSetBus (h : s.Keeps A R t) {p : Nat} {v : BusUnit} (hfull : t.blockFull t.cfg.busDepth = false) (hv : v.Checked t.cfg)
    (hbusy : v.busBusy = true) (hb : t.fgHeld = .busReset p → v.bien = 0#4) : s.Keeps A R ((t.block t.cfg.busDepth).setBus p v) :=
  h.trans {
    sound := (h.sound.block hfull).setBus hv hb
    idle := fun q hq => .inl (State.idleBusAtInit_setBus (by simp [hbusy]) fun _ => hq)
    blocks := fun hs => .inl <| hs.oneMore rfl
      (State.block_counts h.sound.legal h.sound.busDepth_lt
        (State.Sound.lt_blockMax hfull) rfl) fun d => by
        have howed := (t.block t.cfg.busDepth).blocksOwed_setBus_le p v d
        rw [hbusy] at howed
        exact (Nat.le_add_right _ _).trans howed }

/-- 43_serial_tx.md R112: the engine that becomes busy has its block. -/
theorem setSerBlock (h : s.Keeps A R t) {p : Nat} {v : SerUnit} (hfull : t.blockFull t.cfg.serDepth = false) (hv : v.Sound t.cfg)
    (hbusy : v.serBusy = true) : s.Keeps A R ((t.setSer p v).block t.cfg.serDepth) :=
  h.trans {
    sound := (h.sound.setSer hv).block hfull
    idle := fun _ => .inl
    blocks := fun hs => .inl <| hs.oneMore rfl
      (State.block_counts h.sound.legal h.sound.serDepth_lt
        (State.Sound.lt_blockMax hfull) rfl) fun d => by
        have howed := t.blocksOwed_setSer_le p v d
        rw [hbusy] at howed
        exact (Nat.le_add_right _ _).trans howed }

/-- 42_bus_master.md R106: the engine that becomes idle gives back its own block. -/
theorem unblockSetBus (h : s.Keeps A R t) {p : Nat} {v : BusUnit} (hv : (t.busAt p).Continues v)
    (hb : t.fgHeld = .busReset p → v.bien = 0#4) (hidle : v.busBusy = false) (hinit : v.busState = .initSendAddr)
    (hR : (t.busAt p).busBusy = false → R) : s.Keeps A R ((t.unblock t.cfg.busDepth).setBus p v) := by
  have hat : ∀ q, (t.unblock t.cfg.busDepth).busAt q = t.busAt q := fun q => by simp only [State.busAt, State.unblock_bus]
  refine h.trans ⟨(h.sound.unblock _).setBus ?_ ?_, fun q hq => ?_, fun hs => ?_⟩
  · rw [State.unblock_cfg]
    exact (h.sound.busAt p).continues hv
  · rwa [State.unblock_fgHeld]
  · exact .inl (State.idleBusAtInit_setBus (fun _ => hinit) fun _ => by rwa [State.IdleBusAtInit, hat])
  · cases hbusy : (t.busAt p).busBusy with
    | false => exact .inr (hR hbusy)
    | true =>
      refine .inl <| hs.oneLess (t.unblock_cfg _)
        (State.unblock_counts h.sound.busDepth_lt rfl) fun d => ?_
      have howed := (t.unblock t.cfg.busDepth).blocksOwed_setBus_le p v d
      rw [hat, hbusy, hidle, State.blocksOwed_unblock, State.unblock_cfg] at howed
      simp only [Bool.toNat_true, Bool.toNat_false, ite_self] at howed
      omega

/-- 43_serial_tx.md R117: the engine that becomes idle gives back its own block. -/
theorem unblockSetSer (h : s.Keeps A R t) {p : Nat} {v : SerUnit} (hv : v.Sound t.cfg) (hbusy : (t.serAt p).serBusy = true)
    (hidle : v.serBusy = false) : s.Keeps A R ((t.unblock t.cfg.serDepth).setSer p v) := by
  have hat : (t.unblock t.cfg.serDepth).serAt p = t.serAt p := by simp only [State.serAt, State.unblock_ser, State.unblock_cfg]
  refine h.trans ⟨(h.sound.unblock _).setSer ?_, fun q hq => ?_, fun hs => ?_⟩
  · rwa [State.unblock_cfg]
  · exact .inl (by simpa only [State.IdleBusAtInit, State.busAt, State.setSer_bus, State.unblock_bus] using hq)
  · refine .inl <| hs.oneLess (t.unblock_cfg _)
      (State.unblock_counts h.sound.serDepth_lt rfl) fun d => ?_
    have howed := (t.unblock t.cfg.serDepth).blocksOwed_setSer_le p v d
    rw [hat, hbusy, hidle, State.blocksOwed_unblock, State.unblock_cfg] at howed
    simp only [Bool.toNat_true, Bool.toNat_false, ite_self] at howed
    omega

end State.Keeps

end Sys2Proof.Machine
end

section
/-! 10_state.md R38: the invariant holds after reset and every step keeps it, with items 2 and 6 but for their exceptions. -/

namespace Sys2Proof.Machine

/-! Commands -/

/-- 60_exceptions.md R137: what only the foreground may issue comes from the foreground. -/
theorem State.ctx_fg_of_admission {s : State} {i : Instr} (h : s.admission i = none) (hi : allowedFromIrq i = false) : s.ctx = .fg := by
  obtain ⟨hctx, -⟩ := State.admission_eq_none.1 h
  cases hc : s.ctx with
  | fg => rfl
  | irq => exact absurd (hi.symm.trans (hctx hc)) (by decide)

namespace State.Keeps

variable {A : Nat → Prop} {R : Prop} {s t u : State}

/-- 43_serial_tx.md R112. -/
theorem serEffects (h : s.Keeps A R t) {p : Nat} {bytes : List Byte} (hpos : 1 ≤ bytes.length) (hcap : bytes.length ≤ t.cfg.txCap)
    (hfull : t.blockFull t.cfg.serDepth = false) : s.Keeps A R (serEffects p bytes t) :=
  ((h.setSerBlock hfull ((h.sound.serAt p).start h.sound.legal hpos hcap) rfl).emit (.serTxen p)).hold trivial

theorem arbOpen (h : s.Sound) (hR : R) : s.Keeps A R { s with cnt := s.cnt.map fun _ => 0#8 } where
  sound := { h with
    cntLength := by simpa using h.cntLength
    bounded := fun c hc => by
      obtain ⟨-, -, rfl⟩ := List.mem_map.1 hc
      exact Nat.zero_le _ }
  idle _ := .inl
  blocks _ := .inr hR

theorem arbBlockBody (h : s.Sound) {w : Word} {d : Nat} (ht : arbBlockBody w d s = .ok t) : s.Keeps A R t := by
  unfold Machine.arbBlockBody at ht
  split_ifs at ht with hd hfull
  cases ht
  exact ((refl h).block (Nat.lt_of_not_le hd) (Bool.eq_false_of_not_eq_true hfull)).respondTo _ _

theorem arbUnblockBody (h : s.Sound) {w : Word} {d : Nat} (hR : d = s.cfg.busDepth ∨ d = s.cfg.serDepth → R)
    (ht : arbUnblockBody w d s = .ok t) : s.Keeps A R t := by
  unfold Machine.arbUnblockBody at ht
  split_ifs at ht with hd
  cases ht
  exact ((refl h).unblock (Nat.lt_of_not_le hd) hR).respondTo _ _

/-- 41_arbiter.md R87: the foreground falls asleep only while it holds nothing. -/
theorem sleepAt (h : s.Keeps A R t) (hheld : t.fgHeld = .none) (d : Nat) : s.Keeps A R (t.sleepAt d) := by
  have hs : { t with fgAsleep := true }.Sound :=
    { h.sound with
      held := by
        rw [State.HeldOk, hheld]
        trivial }
  unfold State.sleepAt
  split_ifs
  · exact (Keeps.mk hs h.idle h.blocks : s.Keeps A R { t with fgAsleep := true }).sameUnits rfl
  · exact h

theorem busStartBody (h : s.Sound) (hheld : s.fgHeld = .none) {w : Word} {p : Nat} {addr : BitVec 7} {cmd : Byte} {dir : Dir}
    {count : BitVec 4} {dest ev : Word} (hev : fitsIn s.cfg.evtW ev = true)
    (ht : busStartBody w p addr cmd dir count dest ev s = .ok t) : s.Keeps A R t := by
  unfold Machine.busStartBody at ht
  simp only at ht
  split_ifs at ht with hbusy hsupp hdest hfull
  cases ht
  obtain ⟨hdir, hcount⟩ := not_or.1 hsupp
  obtain ⟨heven, hadm⟩ := not_or.1 hdest
  have hread : dir = .read := by
    cases dir with
    | write => exact absurd rfl hdir
    | read => rfl
  have hv : ((s.busAt p).start addr cmd dir count dest ev).Checked s.cfg :=
    ⟨hev, fun _ => ⟨hread, not_not.1 hcount, Bool.eq_false_of_not_eq_true heven, Bool.eq_true_of_not_eq_false hadm⟩⟩
  have hb : s.fgHeld = .busReset p → ((s.busAt p).start addr cmd dir count dest ev).bien = 0#4 := by simp [hheld]
  exact (((((refl h).blockSetBus (Bool.eq_false_of_not_eq_true hfull) hv rfl hb).emit _).emit _).emit _).respondTo _ _

/-- 42_bus_master.md R97. -/
theorem busResetBody (h : s.Sound) (hawake : s.fgAsleep = false) {p : Nat} (hp : p < s.cfg.nBus) :
    s.Keeps A R (busResetBody p s) := by
  have hset : s.Keeps A R (s.setBus p { s.busAt p with bienSave := (s.busAt p).bien, bien := 0#4 }) :=
    (refl h).setBus ⟨rfl, id⟩ (fun _ => rfl) .inl
  refine (hset.hold (x := .busReset p) ((State.heldOk_busReset rfl).2 ⟨hawake, hp, ?_⟩)).sameUnits rfl
  change ((s.setBus p { s.busAt p with bienSave := (s.busAt p).bien, bien := 0#4 }).busAt p).bien = 0#4
  rw [State.busAt_setBus_same (h.busLength ▸ hp)]

theorem serStartBody (h : s.Sound) (hawake : s.fgAsleep = false) {p : Nat} (hp : p < s.cfg.nSer) {bytes : List Byte}
    (ht : serStartBody p bytes s = .ok t) : s.Keeps A R t := by
  unfold Machine.serStartBody at ht
  split_ifs at ht with hlen hbusy
  · cases ht
    obtain ⟨hpos, hcap⟩ := length_of_not_badTxLength hlen
    exact (refl h).hold ((State.heldOk_serStart rfl).2 ⟨hawake, hp, hpos, hcap⟩)
  · obtain ⟨hpos, hcap⟩ := length_of_not_badTxLength hlen
    obtain ⟨-, hb⟩ | ⟨hfull, hb⟩ := serBegin_cases p bytes s <;> rw [hb] at ht <;> cases ht
    exact ((refl h).serEffects hpos hcap hfull).respondTo _ _

theorem qPushBody (h : s.Sound) {q : Nat} {payload : List Byte} (ht : qPushBody q payload s = .ok t) : s.Keeps A R t := by
  unfold Machine.qPushBody at ht
  split_ifs at ht
  cases ht
  exact ((refl h).setQueue ((h.queueAt q).putFrame payload)).respondTo _ _

theorem qPopFrame (h : s.Sound) {q : Nat} {diag : Bool} {lb : Nat} (ht : qPopFrame q diag lb s = .ok t) : s.Keeps A R t := by
  have hlen : ((s.queueAt q).payloadAt s.qmask (s.queueAt q).qrd (lb - 1)).length = lb - 1 := by simp [QueueUnit.payloadAt]
  have hpopped := (h.queueAt q).setRead ((s.queueAt q).qrd + lb)
  unfold Machine.qPopFrame at ht
  cases diag with
  | false =>
    simp only at ht
    split_ifs at ht with hbad hfull
    cases ht
    rw [← hlen] at hbad
    obtain ⟨hpos, hcap⟩ := length_of_not_badTxLength hbad
    exact (((refl h).setQueue hpopped).serEffects hpos hcap (Bool.eq_false_of_not_eq_true hfull)).respondTo _ _
  | true =>
    simp only at ht
    split_ifs at ht with hcap
    cases ht
    rw [← hlen] at hcap
    exact ((refl h).setQueue (hpopped.capture (Nat.le_of_not_lt hcap))).respondTo _ _

theorem qPopBody (h : s.Sound) {q : Nat} {diag : Bool} (ht : qPopBody q diag s = .ok t) : s.Keeps A R t := by
  unfold Machine.qPopBody at ht
  simp only at ht
  split_ifs at ht
  · cases ht
    exact (refl h).respondTo _ _
  · exact qPopFrame h ht

/-- The rule of every command that the port and the checks of 30_encoding.md R65 let through. -/
theorem commandBody {i : Instr} (h : s.Sound) (hport : s.ctx = .fg → s.fgHeld = .none ∧ s.fgAsleep = false)
    (hadm : s.admission i = none) (hR : i ∈ releasingCommands s.cfg → R) (ht : commandBody s i = .ok t) : s.Keeps A R t := by
  obtain ⟨-, hinst⟩ := State.admission_eq_none.1 hadm
  have hfg : allowedFromIrq i = false → s.fgHeld = .none ∧ s.fgAsleep = false := fun hi => hport (State.ctx_fg_of_admission hadm hi)
  cases i with
  | schedPoll | arbFloor | busBusy | serBusy | qFree =>
    cases ht
    exact (refl h).respondTo _ _
  | schedOpen =>
    cases ht
    exact ((refl h).setPending (fitsIn_zero _)).respondTo _ _
  | schedPost m =>
    cases ht
    exact ((refl h).post (State.eventMask_fits h.legal m)).respondTo _ _
  | schedClear m =>
    cases ht
    exact ((refl h).setPending (fitsIn_and h.pending _)).respondTo _ _
  | arbOpen =>
    cases ht
    exact (arbOpen h (hR (by simp [releasingCommands]))).respondTo _ _
  | arbBlock d => exact arbBlockBody h ht
  | arbUnblock d =>
    refine arbUnblockBody h (fun hd => hR ?_) ht
    rw [releasingCommands, List.mem_cons, List.mem_cons, List.mem_singleton]
    obtain hd | hd := hd <;> simp [← hd]
  | arbEnter =>
    cases ht
    exact ((refl h).respondTo _ _).sleepAt (hfg rfl).1 _
  | busStart p addr cmd dir count dest ev => exact busStartBody h (hfg rfl).1 (State.eventMask_fits h.legal ev) ht
  | busReset p =>
    cases ht
    exact busResetBody h (hfg rfl).2 (of_decide_eq_true hinst)
  | serStart p bytes => exact serStartBody h (hfg rfl).2 (of_decide_eq_true hinst) ht
  | qOpen q =>
    cases ht
    exact ((refl h).setQueue (h.queueAt q.toNat).cleared).respondTo _ _
  | qPush q payload => exact qPushBody h ht
  | qPop q diag => exact qPopBody h ht

theorem exec {i : Instr} (h : s.Sound) (hport : s.ctx = .fg → s.fgHeld = .none ∧ s.fgAsleep = false)
    (hR : i ∈ releasingCommands s.cfg → R) (ht : exec i s = .next t) : s.Keeps A R t := by
  rw [exec_eq_runCommand] at ht
  obtain ⟨f, -, hr⟩ | ⟨f, -, -, hr⟩ | ⟨u, hadm, hu, hr⟩ := runCommand_cases i s (Machine.commandBody s i) <;> rw [hr] at ht <;> cases ht
  · exact (refl h).raiseFault f
  · exact (refl h).raiseFault f
  · exact (commandBody h hport hadm hR hu).endCommand

theorem commandStep {c : Ctx} (h : s.Sound)
    (hR : ∀ i rest, decode s.cfg.evtW (s.portWords c) = .ok (i, rest) → i ∈ releasingCommands s.cfg → R)
    (ht : commandStep c s = .next t) : s.Keeps A R t := by
  unfold Machine.commandStep at ht
  split at ht
  · cases ht
    exact refl h
  · cases ht
    exact (refl h).raiseFault _
  · next i v hf =>
    obtain ⟨hacc, rest, hdec, rfl⟩ := fetchCommand_command hf
    have htake : s.Keeps A R (s.takeFrom c rest) := (refl h).takeFrom c rest
    refine htake.trans (exec htake.sound (fun hc => ?_) (fun hi => hR i rest hdec (by simpa using hi)) ht)
    obtain rfl : c = .fg := by simpa using hc
    simpa using State.accepts_fg.1 hacc

/-! Bus handler steps -/

/-- A transition of an engine past its first tag, that leaves it as busy as it was. -/
theorem setBus_of_tag (h : s.Keeps A R t) {p : Nat} {v : BusUnit} (hh : t.fgHeld ≠ .busReset p)
    (hst : (t.busAt p).busState ≠ .initSendAddr) (hv : (t.busAt p).Continues v)
    (hbusy : v.busBusy = (t.busAt p).busBusy) : s.Keeps A R (t.setBus p v) :=
  h.setBus hv (fun e => absurd e hh) fun hi => .inl fun hb => absurd (hi (hbusy ▸ hb)) hst

/-- 42_bus_master.md R100. -/
theorem busSendCommand (h : s.Sound) {p : Nat} (hh : s.fgHeld ≠ .busReset p) (hA : (s.busAt p).busBusy = false → A p)
    (ht : busSendCommand p s = .ok t) : s.Keeps A R t := by
  cases ht
  refine ((refl h).emit _).setBus ⟨rfl, id⟩ (fun e => absurd e hh) fun _ => ?_
  cases hb : (s.busAt p).busBusy with
  | false => exact .inr (hA hb)
  | true => exact .inl fun hf => nomatch hf

/-- 42_bus_master.md R104. -/
theorem busStoreHigh (h : s.Sound) {p : Nat} (hh : s.fgHeld ≠ .busReset p) (hst : (s.busAt p).busState ≠ .initSendAddr)
    (ht : busStoreHigh p s = .ok t) : s.Keeps A R t := by
  unfold Machine.busStoreHigh at ht
  simp only at ht
  split at ht
  · cases ht
  · next v hw =>
    cases ht
    have hmem := State.memWrite_wf (Params.legal_map h.legal) h.memory hw
    obtain ⟨-, rfl⟩ := State.memWrite_eq_some hw
    exact (((refl h).setMemory hmem).emit _).setBus_of_tag hh hst ⟨rfl, id⟩ rfl

/-- 42_bus_master.md R105. -/
theorem busMergeLow (h : s.Sound) {p : Nat} (hh : s.fgHeld ≠ .busReset p) (hst : (s.busAt p).busState ≠ .initSendAddr)
    (ht : busMergeLow p s = .ok t) : s.Keeps A R t := by
  unfold Machine.busMergeLow at ht
  simp only at ht
  split at ht
  · cases ht
  · split at ht
    · cases ht
    · next v hw =>
      cases ht
      have hmem := State.memWrite_wf (Params.legal_map h.legal) h.memory hw
      obtain ⟨-, rfl⟩ := State.memWrite_eq_some hw
      exact ((((refl h).setMemory hmem).emit _).emit _).setBus_of_tag hh hst ⟨rfl, id⟩ rfl

/-- 42_bus_master.md R102. -/
theorem busRetry (h : s.Sound) {p : Nat} (hh : s.fgHeld ≠ .busReset p) (hst : (s.busAt p).busState ≠ .initSendAddr)
    (ht : busRetry p s = .ok t) : s.Keeps A R t := by
  unfold Machine.busRetry at ht
  simp only at ht
  split_ifs at ht
  cases ht
  refine emitRepeatedStart ?_ _ _
  exact (refl h).setBus_of_tag hh hst ⟨rfl, id⟩ rfl

/-- 42_bus_master.md R106. -/
theorem busFinish (h : s.Sound) {p : Nat} (hh : s.fgHeld ≠ .busReset p) (hR : (s.busAt p).busBusy = false → R)
    (ht : busFinish p s = .ok t) : s.Keeps A R t := by
  cases ht
  have hset : s.Keeps A R ((s.unblock s.cfg.busDepth).setBus p { s.busAt p with busBusy := false, busState := .initSendAddr }) :=
    (refl h).unblockSetBus ⟨rfl, fun hb => nomatch hb⟩ (fun e => absurd e hh) rfl rfl hR
  refine hset.post ?_
  rw [State.setBus_cfg, State.unblock_cfg]
  exact (h.busAt p).1

theorem busTransition (h : s.Sound) {p : Nat} {k : BusFlag} (hh : s.fgHeld ≠ .busReset p)
    (hA : k = .ack → (s.busAt p).busBusy = false → A p)
    (hR : k = .mstop → (s.busAt p).busBusy = false → (s.busAt p).busState = .stopEnd → R) (ht : busTransition p k s = .ok t) :
    s.Keeps A R t := by
  unfold Machine.busTransition at ht
  split at ht
  case h_1 hst => exact busSendCommand h hh (hA rfl) ht
  case h_2 hst =>
    cases ht
    exact (((refl h).emit _).emit _).setBus_of_tag hh (fun e => nomatch hst.symm.trans e) ⟨rfl, id⟩ rfl
  case h_3 hst =>
    cases ht
    exact (refl h).setBus_of_tag hh (fun e => nomatch hst.symm.trans e) ⟨rfl, id⟩ rfl
  case h_4 hst => exact busRetry h hh (fun e => nomatch hst.symm.trans e) ht
  case h_5 hst => exact busStoreHigh h hh (fun e => nomatch hst.symm.trans e) ht
  case h_6 hst => exact busMergeLow h hh (fun e => nomatch hst.symm.trans e) ht
  case h_7 hst => exact busFinish h hh (fun hb => hR rfl hb hst) ht
  case h_8 => cases ht

/-- A handler step ends awake with the transition's effects, or raises a fault of the state before it (60_exceptions.md R140). -/
theorem finishHandler (h : s.Sound) {r : Result} (hr : ∀ u, r = .ok u → s.Keeps A R u) (ht : finishHandler s r = .next t) :
    s.Keeps A R t := by
  obtain ⟨u, hu, rfl⟩ | ⟨f, -, rfl⟩ := finishHandler_next ht
  · exact (hr u hu).awake
  · exact (refl h).raiseFault f

theorem busHandler (h : s.Sound) {p : Nat} {k : BusFlag}
    (hA : k = .ack → (s.busAt p).enabled .ack = true → (s.busAt p).busBusy = false → A p)
    (hR : k = .mstop → (s.busAt p).busBusy = false → (s.busAt p).busState = .stopEnd → R) (ht : busHandler p k s = .next t) :
    s.Keeps A R t := by
  unfold Machine.busHandler at ht
  split at ht
  · next hk =>
    refine finishHandler h (fun u hu => ?_) ht
    have hclear : s.Keeps A R (s.setBus p ((s.busAt p).clearFlag k)) := (refl h).setBus ⟨rfl, id⟩ h.bien_eq_zero .inl
    refine hclear.trans (busTransition hclear.sound (h.not_held_of_enabled hk) ?_ ?_ hu) <;>
      rw [State.busAt_setBus_same (State.enabled_bus_lt hk)]
    · rintro rfl
      exact hA rfl hk
    · exact hR
  · cases ht
    exact refl h

/-! Serial handler steps -/

/-- 43_serial_tx.md R117. -/
theorem serFinish (h : s.Sound) {p : Nat} (hst : (s.serAt p).serState = .stopClose) (ht : serFinish p s = .ok t) : s.Keeps A R t := by
  cases ht
  have hbusy : (s.serAt p).serBusy = true := (h.serAt p).busy_of_tag fun e => nomatch hst.symm.trans e
  have hset : s.Keeps A R (((s.emit (.serTxdis p)).unblock s.cfg.serDepth).setSer p
      { s.serAt p with stxen := false, serBusy := false, serState := .init }) :=
    ((refl h).emit (.serTxdis p)).unblockSetSer ((h.serAt p).finish hst) hbusy rfl
  refine hset.post ?_
  rw [State.setSer_cfg, State.unblock_cfg]
  exact Params.evtTxDone_fits h.legal p

theorem serTransition (h : s.Sound) {p : Nat} {k : SerFlag} (hk : (s.serAt p).sien.getLsbD k.bit = true)
    (ht : serTransition p k s = .ok t) : s.Keeps A R t := by
  unfold Machine.serTransition at ht
  split at ht
  case h_1 hst =>
    cases ht
    exact (refl h).setSer ((h.serAt p).arm hst hk) id
  case h_2 hst =>
    cases ht
    obtain ⟨hsound, hbusy⟩ := (h.serAt p).advance hst
    exact ((refl h).emit _).setSer hsound hbusy.symm.trans
  case h_3 hst => exact serFinish h hst ht
  case h_4 => cases ht

theorem serHandler (h : s.Sound) {p : Nat} {k : SerFlag} (ht : serHandler p k s = .next t) : s.Keeps A R t := by
  unfold Machine.serHandler at ht
  split at ht
  · next hk =>
    refine finishHandler h (fun u hu => ?_) ht
    have hclear : s.Keeps A R (s.setSer p ((s.serAt p).clearFlag k)) := (refl h).setSer (h.serAt p) id
    refine hclear.trans (serTransition hclear.sound ?_ hu)
    rw [State.serAt_setSer_same (State.enabled_ser_lt hk)]
    exact (Bool.and_eq_true_iff.1 hk).2
  · cases ht
    exact refl h

/-! The other steps -/

theorem applyEvent (h : s.Keeps A R t) (e : Event) : s.Keeps A R (applyEvent e t) := by
  cases e with
  | busAck | busNack | busRx | busMstop | busIdle => exact h.setBus ⟨rfl, id⟩ h.sound.bien_eq_zero .inl
  | serTxbl | serTxc => exact h.setSer (h.sound.serAt _) id

theorem eventStep (h : s.Sound) (ht : eventStep s = .next t) : s.Keeps A R t := by
  unfold Machine.eventStep at ht
  split at ht
  · cases ht
    exact refl h
  · next w rest _ =>
    split at ht <;> cases ht
    have htake : s.Keeps A R { s with evtPort := rest } := (refl h).sameUnits rfl
    exact htake.applyEvent _

theorem serStartCompletion (h : s.Sound) {p : Nat} {bytes : List Byte} (hheld : s.fgHeld = .serStart p bytes) :
    s.Keeps A R (serStartCompletion p bytes s) := by
  obtain ⟨-, -, hpos, hcap⟩ := (State.heldOk_serStart hheld).1 h.held
  unfold Machine.serStartCompletion
  obtain ⟨-, hb⟩ | ⟨hfull, hb⟩ := serBegin_cases p bytes s <;> rw [hb]
  · exact (refl h).raiseFault _
  · exact ((refl h).serEffects hpos hcap hfull).respondTo _ _

/-- 42_bus_master.md R98. -/
theorem busResetCompletion (h : s.Sound) (p : Nat) : s.Keeps A R (busResetCompletion p s) := by
  have hset : s.Keeps A R ({ s with fgHeld := .none }.setBus p
      { s.busAt p with bifReg := 0#4, busBusy := false, busState := .initSendAddr, bien := (s.busAt p).bienSave }) :=
    ((refl h).hold (x := .none) trivial).setBus ⟨rfl, fun hb => nomatch hb⟩ (fun e => nomatch e) fun _ => .inl fun _ => rfl
  exact hset.sameUnits rfl

theorem completionStep (h : s.Sound) : s.Keeps A R (completionStep s) := by
  unfold Machine.completionStep
  split
  · exact refl h
  · next hheld =>
    split_ifs
    · exact refl h
    · exact serStartCompletion h hheld
  · split_ifs
    · exact busResetCompletion h _
    · exact refl h

theorem hostStoreStep (h : s.Sound) : s.Keeps A R (hostStoreStep s) := by
  unfold Machine.hostStoreStep
  split
  · exact refl h
  · next a v rest _ =>
    split_ifs with hmay
    · have hlt : a < 2 ^ 32 := by
        simp only [State.hostMayStore, Bool.and_eq_true, decide_eq_true_eq] at hmay
        exact hmay.1.1
      exact ((refl h).setMemory (Memory.wf_write h.memory hlt)).sameUnits rfl
    · exact refl h

/-- The step that a move names, with the exceptions of R38 items 2 and 6 read off the state before it. -/
theorem moveStep (h : s.Sound) {m : Move} {rest : List Move} (hm : s.moves = m :: rest)
    (ht : moveStep m { s with moves := rest } = .next t) :
    s.Keeps s.AckWhileIdle (s.CallerReleases ∨ s.StopWhileIdle) t := by
  have hhead : s.moves.head? = some m := by rw [hm]; rfl
  have htake : s.Keeps s.AckWhileIdle (s.CallerReleases ∨ s.StopWhileIdle) { s with moves := rest } := (refl h).sameUnits rfl
  refine htake.trans ?_
  cases m with
  | command c => exact commandStep htake.sound (fun i rest hd hi => .inl ⟨c, i, rest, hhead, by cases c <;> exact hd, hi⟩) ht
  | event => exact eventStep htake.sound ht
  | busHandler p k =>
    refine busHandler htake.sound ?_ ?_ ht
    · rintro rfl hk hb
      exact ⟨hhead, hk, hb⟩
    · rintro rfl hb hst
      exact .inr ⟨p, hhead, hb, hst⟩
  | serHandler p k => exact serHandler htake.sound ht
  | completion =>
    cases ht
    exact completionStep htake.sound
  | hostStore =>
    cases ht
    exact hostStoreStep htake.sound

theorem step (h : s.Sound) (ht : step s = .next t) : s.Keeps s.AckWhileIdle (s.CallerReleases ∨ s.StopWhileIdle) t := by
  obtain ⟨-, ⟨-, rfl⟩ | ⟨m, rest, hm, hs⟩⟩ := step_next ht
  · exact refl h
  · exact moveStep h hm hs

end State.Keeps

/-! The statements of 10_state.md -/

/-- Settles O59: every step is one of the effects that keep the invariant and, but for the named exceptions, items 2 and 6. -/
theorem stepKeepsTheInvariant : Obligations.StepKeepsTheInvariant := by
  intro s t hs ht
  obtain ⟨hsound, hidle, hblocks⟩ := State.Keeps.step (s.inv_iff_sound.1 hs) ht
  exact ⟨t.inv_iff_sound.2 hsound, hidle, hblocks⟩

/-- Settles O58: after reset every element is a list of idle units and zero counters. -/
theorem resetHasTheInvariant : Obligations.ResetHasTheInvariant := by
  intro c hc
  refine ⟨(State.resetOf c).inv_iff_sound.2 (State.sound_resetOf hc), fun p _ => ?_, fun d _ => ?_⟩
  · exact forall_getD (P := fun u : BusUnit => u.busState = .initSendAddr) (fun u hu => List.eq_of_mem_replicate hu ▸ rfl) rfl p
  · simp [State.blocksOwed, State.resetOf, List.countP_replicate, BusUnit.reset, SerUnit.reset]

end Sys2Proof.Machine
end

section
/-! Host data memory (20_memory.md): which steps store to it and where, and that the store of a busy bus engine is defined. -/

namespace Sys2Proof.Machine

/-! The word accesses -/

/-- 20_memory.md R41: a store of a word writes its two bytes only. -/
theorem State.read_memWrite_other {s t : State} {addr : Word} {v : BitVec 16} {a : Nat} (h : s.memWrite addr v = some t)
    (hlow : a ≠ addr.toNat) (hhigh : a ≠ addr.toNat + 1) : Memory.read t.dmem a = Memory.read s.dmem a := by
  obtain ⟨-, rfl⟩ := State.memWrite_eq_some h
  exact (Memory.read_write_other hhigh).trans (Memory.read_write_other hlow)

theorem State.memWrite_of_admits {s : State} {addr : Word} (h : s.cfg.admits addr 2 = true) (v : BitVec 16) :
    ∃ t, s.memWrite addr v = some t := by
  simp [State.memWrite, h]

theorem State.memRead_of_admits {s : State} {addr : Word} (h : s.cfg.admits addr 2 = true) : ∃ v, s.memRead addr = some v := by
  simp [State.memRead, h]

/-! Commands -/

@[simp] theorem serEffects_dmem (p : Nat) (bytes : List Byte) (s : State) : (serEffects p bytes s).dmem = s.dmem := rfl

@[simp] theorem State.sleepAt_dmem (s : State) (d : Nat) : (s.sleepAt d).dmem = s.dmem := by
  rw [State.sleepAt_eq]

theorem arbBlockBody_dmem {h : Word} {d : Nat} {s t : State} (ht : arbBlockBody h d s = .ok t) : t.dmem = s.dmem := by
  unfold arbBlockBody at ht
  split_ifs at ht
  cases ht
  simp

theorem arbUnblockBody_dmem {h : Word} {d : Nat} {s t : State} (ht : arbUnblockBody h d s = .ok t) : t.dmem = s.dmem := by
  unfold arbUnblockBody at ht
  split_ifs at ht
  cases ht
  exact s.unblock_dmem d

@[simp] theorem busResetBody_dmem (p : Nat) (s : State) : (busResetBody p s).dmem = s.dmem := by
  simp [busResetBody]

theorem busStartBody_dmem {h : Word} {p : Nat} {addr : BitVec 7} {cmd : Byte} {dir : Dir} {count : BitVec 4} {dest ev : Word}
    {s t : State} (ht : busStartBody h p addr cmd dir count dest ev s = .ok t) : t.dmem = s.dmem := by
  unfold busStartBody at ht
  simp only at ht
  split_ifs at ht
  cases ht
  simp

theorem serStartBody_dmem {p : Nat} {bytes : List Byte} {s t : State} (ht : serStartBody p bytes s = .ok t) : t.dmem = s.dmem := by
  unfold serStartBody at ht
  split_ifs at ht
  · cases ht
    rfl
  · obtain ⟨-, hb⟩ | ⟨-, hb⟩ := serBegin_cases p bytes s <;> rw [hb] at ht <;> cases ht
    exact serEffects_dmem p bytes s

theorem qPushBody_dmem {q : Nat} {payload : List Byte} {s t : State} (ht : qPushBody q payload s = .ok t) : t.dmem = s.dmem := by
  unfold qPushBody at ht
  split_ifs at ht
  cases ht
  simp

theorem qPopFrame_dmem {q : Nat} {diag : Bool} {lb : Nat} {s t : State} (ht : qPopFrame q diag lb s = .ok t) : t.dmem = s.dmem := by
  unfold qPopFrame at ht
  cases diag
  all_goals
    simp only at ht
    split_ifs at ht
    cases ht
    simp

theorem qPopBody_dmem {q : Nat} {diag : Bool} {s t : State} (ht : qPopBody q diag s = .ok t) : t.dmem = s.dmem := by
  unfold qPopBody at ht
  simp only at ht
  split_ifs at ht
  · cases ht
    rfl
  · exact qPopFrame_dmem ht

/-- The rule of every command leaves host memory as it is, to the cell. -/
theorem commandBody_dmem {i : Instr} {s t : State} (h : commandBody s i = .ok t) : t.dmem = s.dmem := by
  cases i with
  | arbBlock => exact arbBlockBody_dmem h
  | arbUnblock => exact arbUnblockBody_dmem h
  | busStart => exact busStartBody_dmem h
  | serStart => exact serStartBody_dmem h
  | qPush => exact qPushBody_dmem h
  | qPop => exact qPopBody_dmem h
  | arbEnter =>
    cases h
    exact State.sleepAt_dmem _ _
  | schedOpen | schedPost | schedClear | schedPoll | arbOpen | arbFloor | busBusy | busReset | serBusy | qOpen | qFree =>
    cases h
    simp

theorem exec_dmem {i : Instr} {s t : State} (h : exec i s = .next t) : t.dmem = s.dmem := by
  rw [exec_eq_runCommand] at h
  obtain ⟨f, -, hr⟩ | ⟨f, -, -, hr⟩ | ⟨u, -, hu, hr⟩ := runCommand_cases i s (commandBody s i) <;> rw [hr] at h <;> cases h
  · rfl
  · rfl
  · exact u.endCommand_dmem.trans (commandBody_dmem hu)

theorem commandStep_dmem {c : Ctx} {s t : State} (h : commandStep c s = .next t) : t.dmem = s.dmem := by
  unfold commandStep at h
  split at h
  · cases h
    rfl
  · cases h
    rfl
  · next i u hf =>
    obtain ⟨-, rest, -, rfl⟩ := fetchCommand_command hf
    exact (exec_dmem h).trans (s.takeFrom_dmem c rest)

/-! The steps beside commands that store nothing -/

theorem serTransition_dmem {p : Nat} {k : SerFlag} {s t : State} (h : serTransition p k s = .ok t) : t.dmem = s.dmem := by
  unfold serTransition at h
  split at h
  case h_1 | h_2 | h_3 =>
    cases h
    simp
  case h_4 => cases h

theorem serHandler_dmem {p : Nat} {k : SerFlag} {s t : State} (h : serHandler p k s = .next t) : t.dmem = s.dmem := by
  unfold serHandler at h
  split at h
  · obtain ⟨u, hu, rfl⟩ | ⟨f, -, rfl⟩ := finishHandler_next h
    · have hmem := serTransition_dmem hu
      exact hmem
    · rfl
  · cases h
    rfl

theorem applyEvent_dmem (e : Event) (s : State) : (applyEvent e s).dmem = s.dmem := by
  cases e <;> rfl

theorem eventStep_dmem {s t : State} (h : eventStep s = .next t) : t.dmem = s.dmem := by
  unfold eventStep at h
  split at h
  · cases h
    rfl
  · split at h <;> cases h
    exact applyEvent_dmem _ _

theorem serStartCompletion_dmem (p : Nat) (bytes : List Byte) (s : State) : (serStartCompletion p bytes s).dmem = s.dmem := by
  unfold serStartCompletion
  obtain ⟨-, hb⟩ | ⟨-, hb⟩ := serBegin_cases p bytes s <;> rw [hb]
  · exact s.raiseFault_dmem _
  · exact serEffects_dmem p bytes s

theorem busResetCompletion_dmem (p : Nat) (s : State) : (busResetCompletion p s).dmem = s.dmem := by
  simp [busResetCompletion]

theorem completionStep_dmem (s : State) : (completionStep s).dmem = s.dmem := by
  unfold completionStep
  split
  · rfl
  · split_ifs
    · rfl
    · exact serStartCompletion_dmem _ _ s
  · split_ifs
    · exact busResetCompletion_dmem _ s
    · rfl

/-! The stores of the bus engine and of the host -/

/-- 20_memory.md R47: RXDATAV of bus engine `p`, in one of its two read states, reaches the byte at `a` of its destination word. -/
def State.ReceivesAt (s : State) (p : Nat) (k : BusFlag) (a : Nat) : Prop :=
  k = .rxdatav ∧ ((s.busAt p).busState = .readMsByte ∨ (s.busAt p).busState = .readLs)
    ∧ (a = (s.busAt p).recDest.toNat ∨ a = (s.busAt p).recDest.toNat + 1)

/-- 42_bus_master.md R104. -/
theorem busStoreHigh_read_other {p : Nat} {s t : State} {a : Nat} (h : busStoreHigh p s = .ok t)
    (hlow : a ≠ (s.busAt p).recDest.toNat) (hhigh : a ≠ (s.busAt p).recDest.toNat + 1) :
    Memory.read t.dmem a = Memory.read s.dmem a := by
  unfold busStoreHigh at h
  simp only at h
  split at h
  · cases h
  · next u hw =>
    cases h
    have hread := State.read_memWrite_other hw hlow hhigh
    exact hread

/-- 42_bus_master.md R105. -/
theorem busMergeLow_read_other {p : Nat} {s t : State} {a : Nat} (h : busMergeLow p s = .ok t)
    (hlow : a ≠ (s.busAt p).recDest.toNat) (hhigh : a ≠ (s.busAt p).recDest.toNat + 1) :
    Memory.read t.dmem a = Memory.read s.dmem a := by
  unfold busMergeLow at h
  simp only at h
  split at h
  · cases h
  · split at h
    · cases h
    · next u hw =>
      cases h
      have hread := State.read_memWrite_other hw hlow hhigh
      exact hread

theorem busRetry_dmem {p : Nat} {s t : State} (h : busRetry p s = .ok t) : t.dmem = s.dmem := by
  unfold busRetry at h
  simp only at h
  split_ifs at h
  cases h
  simp

theorem busTransition_read {p : Nat} {k : BusFlag} {s t : State} {a : Nat} (h : busTransition p k s = .ok t)
    (ha : ¬s.ReceivesAt p k a) : Memory.read t.dmem a = Memory.read s.dmem a := by
  unfold busTransition at h
  split at h
  case h_1 | h_2 | h_3 =>
    cases h
    simp
  case h_4 => rw [busRetry_dmem h]
  case h_5 hst => exact busStoreHigh_read_other h (fun e => ha ⟨rfl, .inl hst, .inl e⟩) fun e => ha ⟨rfl, .inl hst, .inr e⟩
  case h_6 hst => exact busMergeLow_read_other h (fun e => ha ⟨rfl, .inr hst, .inl e⟩) fun e => ha ⟨rfl, .inr hst, .inr e⟩
  case h_7 =>
    cases h
    simp
  case h_8 => cases h

/-- Clearing the serviced flag changes neither the tag nor the destination of the engine. -/
theorem State.receivesAt_clearFlag {s : State} {p : Nat} {k : BusFlag} (hk : (s.busAt p).enabled k = true) (a : Nat) :
    (s.setBus p ((s.busAt p).clearFlag k)).ReceivesAt p k a ↔ s.ReceivesAt p k a := by
  unfold State.ReceivesAt
  rw [State.busAt_setBus_same (State.enabled_bus_lt hk)]
  exact Iff.rfl

theorem busHandler_read {p : Nat} {k : BusFlag} {s t : State} {a : Nat} (h : busHandler p k s = .next t)
    (ha : ¬s.ReceivesAt p k a) : Memory.read t.dmem a = Memory.read s.dmem a := by
  unfold busHandler at h
  split at h
  · next hk =>
    obtain ⟨u, hu, rfl⟩ | ⟨f, -, rfl⟩ := finishHandler_next h
    · have hread := busTransition_read hu (mt (State.receivesAt_clearFlag hk a).1 ha)
      exact hread
    · rfl
  · cases h
    rfl

/-- 20_memory.md R48: the host changes the one byte it stores, and none in flight (60_exceptions.md R155). -/
theorem hostStoreStep_changes {s : State} {a : Nat} (hwf : Memory.wf s.dmem = true)
    (hne : Memory.read (hostStoreStep s).dmem a ≠ Memory.read s.dmem a) :
    s.hostStores.head? = some (a, Memory.read (hostStoreStep s).dmem a) ∧ s.inFlight a = false := by
  unfold hostStoreStep at hne ⊢
  split at hne
  · exact absurd rfl hne
  · next b v rest hstores =>
    split_ifs at hne ⊢ with hmay
    · obtain rfl : a = b := by
        by_contra hab
        exact hne (Memory.read_write_other hab)
      simp only [State.hostMayStore, Bool.and_eq_true, Bool.not_eq_true'] at hmay
      obtain ⟨-, hfree⟩ := hmay
      exact ⟨by rw [hstores, Memory.read_write hwf]; rfl, hfree⟩
    · exact absurd rfl hne

/-- Whatever step a move names, a byte it changes is one a bus engine receives or the one the host stores. -/
theorem moveStep_changes {m : Move} {s t : State} {a : Nat} (hwf : Memory.wf s.dmem = true) (h : moveStep m s = .next t)
    (hne : Memory.read t.dmem a ≠ Memory.read s.dmem a) :
    (∃ p k, m = .busHandler p k ∧ s.ReceivesAt p k a)
      ∨ (m = .hostStore ∧ s.hostStores.head? = some (a, Memory.read t.dmem a) ∧ s.inFlight a = false) := by
  cases m with
  | command c => exact absurd (congrArg (Memory.read · a) (commandStep_dmem h)) hne
  | event => exact absurd (congrArg (Memory.read · a) (eventStep_dmem h)) hne
  | busHandler p k =>
    refine .inl ⟨p, k, rfl, ?_⟩
    by_contra ha
    exact hne (busHandler_read h ha)
  | serHandler p k => exact absurd (congrArg (Memory.read · a) (serHandler_dmem h)) hne
  | completion =>
    cases h
    exact absurd (congrArg (Memory.read · a) (completionStep_dmem s)) hne
  | hostStore =>
    cases h
    exact .inr ⟨rfl, hostStoreStep_changes hwf hne⟩

/-! The store of a busy engine is defined -/

theorem busStoreHigh_not_stopped {p : Nat} {s : State} (h : s.cfg.admits (s.busAt p).recDest 2 = true) (r : Fault) :
    busStoreHigh p s ≠ .stopped r := by
  obtain ⟨t, ht⟩ := State.memWrite_of_admits h ((s.busAt p).brxdata.setWidth 16 <<< 8)
  simp [busStoreHigh, ht]

theorem busMergeLow_not_stopped {p : Nat} {s : State} (h : s.cfg.admits (s.busAt p).recDest 2 = true) (r : Fault) :
    busMergeLow p s ≠ .stopped r := by
  obtain ⟨v, hv⟩ := State.memRead_of_admits h
  obtain ⟨t, ht⟩ := State.memWrite_of_admits h (v ||| (s.busAt p).brxdata.setWidth 16)
  simp [busMergeLow, hv, ht]

theorem busRetry_not_stopped (p : Nat) (s : State) (r : Fault) : busRetry p s ≠ .stopped r := by
  unfold busRetry
  simp only
  split_ifs <;> exact Result.noConfusion

/-- 20_memory.md R44: only the two stores can stop the machine, and an admitted destination rules both out. -/
theorem busTransition_not_stopped {p : Nat} {s : State} (h : s.cfg.admits (s.busAt p).recDest 2 = true) (k : BusFlag) (r : Fault) :
    busTransition p k s ≠ .stopped r := by
  unfold busTransition
  split
  case h_1 | h_2 | h_3 | h_7 | h_8 => exact Result.noConfusion
  case h_4 => exact busRetry_not_stopped p s r
  case h_5 => exact busStoreHigh_not_stopped h r
  case h_6 => exact busMergeLow_not_stopped h r

theorem finishHandler_of_not_stopped {s : State} {res : Result} (h : ∀ r, res ≠ .stopped r) : ∃ t, finishHandler s res = .next t := by
  cases res with
  | ok u => exact ⟨_, rfl⟩
  | raised f => exact ⟨_, rfl⟩
  | stopped r => exact absurd rfl (h r)

theorem busHandler_next_of_admits {s : State} {p : Nat} (h : s.cfg.admits (s.busAt p).recDest 2 = true) (k : BusFlag) :
    ∃ t, busHandler p k s = .next t := by
  unfold busHandler
  split
  · next hk =>
    refine finishHandler_of_not_stopped (busTransition_not_stopped ?_ k)
    rw [State.busAt_setBus_same (State.enabled_bus_lt hk)]
    exact h
  · exact ⟨s, rfl⟩

/-! The statements of 20_memory.md -/

/-- Settles O35: every command keeps the list of cells itself. -/
theorem commandsLeaveHostMemory : Obligations.CommandsLeaveHostMemory := by
  intro i s t h a
  rw [exec_dmem h]

/-- Settles O36: of the moves only a bus handler step and the host's store can change a byte. -/
theorem memoryChangesOnlyAtTheDestination : Obligations.MemoryChangesOnlyAtTheDestination := by
  intro s t a hwf h hne
  obtain ⟨-, ⟨-, rfl⟩ | ⟨m, rest, hm, hs⟩⟩ := step_next h
  · exact absurd rfl hne
  · rw [hm]
    have hwf' : Memory.wf ({ s with moves := rest } : State).dmem = true := hwf
    obtain ⟨p, k, rfl, rfl, hst, hdest⟩ | ⟨rfl, hstore, hfree⟩ := moveStep_changes hwf' hs hne
    · exact .inl ⟨p, rfl, hst, hdest⟩
    · exact .inr ⟨rfl, hstore, hfree⟩

/-- Settles O37: the invariant says that a busy engine's destination is admitted. -/
theorem busyEngineNeverStopsOnMemory : Obligations.BusyEngineNeverStopsOnMemory := by
  intro s p k hs hbusy
  obtain ⟨-, hrec⟩ := (s.inv_iff_sound.1 hs).busAt p
  obtain ⟨-, -, -, hadmits⟩ := hrec hbusy
  exact busHandler_next_of_admits hadmits k

end Sys2Proof.Machine
end

section
/-! The fields of a header word (30_encoding.md R58, R59 and R61): reading them back, and what the mask of a row says of them (R63). -/

namespace Sys2Proof

/-! Fields of a header -/

/-- `ARG`, bits 19:0 of a header (rule R58). -/
def argOf (h : Word) : BitVec 20 := h.extractLsb' 0 20

section HeaderWord
open BitVec
variable (unit op inst : BitVec 4) (arg : BitVec 20)

@[simp] theorem unitOf_headerWord : unitOf (headerWord unit op inst arg) = unit :=
  calc (unit ++ op ++ inst ++ arg).extractLsb' 28 4
    _ = (unit ++ op ++ inst).extractLsb' 8 4 := extractLsb'_append_eq_of_le (by decide)
    _ = (unit ++ op).extractLsb' 4 4 := extractLsb'_append_eq_of_le (by decide)
    _ = unit := extractLsb'_append_eq_left

@[simp] theorem opOf_headerWord : opOf (headerWord unit op inst arg) = op :=
  calc (unit ++ op ++ inst ++ arg).extractLsb' 24 4
    _ = (unit ++ op ++ inst).extractLsb' 4 4 := extractLsb'_append_eq_of_le (by decide)
    _ = (unit ++ op).extractLsb' 0 4 := extractLsb'_append_eq_of_le (by decide)
    _ = op := extractLsb'_append_eq_right

@[simp] theorem instOf_headerWord : instOf (headerWord unit op inst arg) = inst :=
  calc (unit ++ op ++ inst ++ arg).extractLsb' 20 4
    _ = (unit ++ op ++ inst).extractLsb' 0 4 := extractLsb'_append_eq_of_le (by decide)
    _ = inst := extractLsb'_append_eq_right

@[simp] theorem argOf_headerWord : argOf (headerWord unit op inst arg) = arg := extractLsb'_append_eq_right

end HeaderWord

/-- A header is its four fields (rule R58). -/
theorem headerWord_fields (h : Word) : headerWord (unitOf h) (opOf h) (instOf h) (argOf h) = h := by
  have hop : unitOf h ++ opOf h = h.extractLsb' 24 8 := BitVec.extractLsb'_append_extractLsb'_eq_extractLsb' rfl
  have hinst : h.extractLsb' 24 8 ++ instOf h = h.extractLsb' 20 12 := BitVec.extractLsb'_append_extractLsb'_eq_extractLsb' rfl
  have harg : h.extractLsb' 20 12 ++ argOf h = h := BitVec.extractLsb'_append_extractLsb'
  rw [headerWord, hop, hinst, harg]

theorem word_eq_iff_fields {h g : Word} :
    h = g ↔ unitOf h = unitOf g ∧ opOf h = opOf g ∧ instOf h = instOf g ∧ argOf h = argOf g := by
  refine ⟨fun e => e ▸ ⟨rfl, rfl, rfl, rfl⟩, fun ⟨hunit, hop, hinst, harg⟩ => ?_⟩
  rw [← headerWord_fields h, hunit, hop, hinst, harg, headerWord_fields]

theorem headerWord_inj {unit op inst unit' op' inst' : BitVec 4} {arg arg' : BitVec 20} :
    headerWord unit op inst arg = headerWord unit' op' inst' arg' ↔ unit = unit' ∧ op = op' ∧ inst = inst' ∧ arg = arg' := by
  simp [word_eq_iff_fields]

section And
variable (h m : Word)

theorem unitOf_and : unitOf (h &&& m) = unitOf h &&& unitOf m := BitVec.extractLsb'_and

theorem opOf_and : opOf (h &&& m) = opOf h &&& opOf m := BitVec.extractLsb'_and

theorem instOf_and : instOf (h &&& m) = instOf h &&& instOf m := BitVec.extractLsb'_and

theorem argOf_and : argOf (h &&& m) = argOf h &&& argOf m := BitVec.extractLsb'_and

end And

/-! The operands in `ARG`, read from the fields that rule R59 writes -/

section Operands
open BitVec
variable (unit op inst : BitVec 4)

/-- Bits of the header below bit 20 are bits of `ARG`. -/
theorem extractLsb'_headerWord (arg : BitVec 20) {start len : Nat} (hl : start + len ≤ 20) :
    (headerWord unit op inst arg).extractLsb' start len = arg.extractLsb' start len :=
  extractLsb'_append_eq_of_add_le hl

/-- A bit read as a flag is the field of that one bit. -/
theorem ofBool_getLsbD (h : Word) (k : Nat) : ofBool (h.getLsbD k) = h.extractLsb' k 1 := by
  rw [getLsbD_eq_extractLsb']
  generalize h.extractLsb' k 1 = b
  revert b
  decide

@[simp] theorem depthOf_headerWord (d : Byte) : depthOf (headerWord unit op inst (depthArg d)) = d :=
  (extractLsb'_headerWord unit op inst _ (by decide)).trans extractLsb'_append_eq_right

theorem depthArg_inj {d d' : Byte} : depthArg d = depthArg d' ↔ d = d' := append_right_inj _

section Bus
variable (count : BitVec 4) (dir : Dir) (addr : BitVec 7) (cmd : Byte)

@[simp] theorem cmdOf_headerWord : cmdOf (headerWord unit op inst (busArg count dir addr cmd)) = cmd :=
  (extractLsb'_headerWord unit op inst _ (by decide)).trans extractLsb'_append_eq_right

@[simp] theorem addrOf_headerWord : addrOf (headerWord unit op inst (busArg count dir addr cmd)) = addr :=
  calc (headerWord unit op inst (busArg count dir addr cmd)).extractLsb' 8 7
    _ = (count ++ dirBit dir ++ addr ++ cmd).extractLsb' 8 7 := extractLsb'_headerWord unit op inst _ (by decide)
    _ = (count ++ dirBit dir ++ addr).extractLsb' 0 7 := extractLsb'_append_eq_of_le (by decide)
    _ = addr := extractLsb'_append_eq_right

@[simp] theorem countOf_headerWord : countOf (headerWord unit op inst (busArg count dir addr cmd)) = count :=
  calc (headerWord unit op inst (busArg count dir addr cmd)).extractLsb' 16 4
    _ = (count ++ dirBit dir ++ addr ++ cmd).extractLsb' 16 4 := extractLsb'_headerWord unit op inst _ (by decide)
    _ = (count ++ dirBit dir ++ addr).extractLsb' 8 4 := extractLsb'_append_eq_of_le (by decide)
    _ = (count ++ dirBit dir).extractLsb' 1 4 := extractLsb'_append_eq_of_le (by decide)
    _ = count := extractLsb'_append_eq_left

theorem dirBit_dirOf (h : Word) : dirBit (dirOf h) = h.extractLsb' 15 1 := by
  rw [← ofBool_getLsbD, dirOf]
  cases h.getLsbD 15 <;> rfl

theorem dirBit_inj {d d' : Dir} : dirBit d = dirBit d' ↔ d = d' := by
  cases d <;> cases d' <;> decide

@[simp] theorem dirOf_headerWord : dirOf (headerWord unit op inst (busArg count dir addr cmd)) = dir :=
  dirBit_inj.1 <|
  calc dirBit (dirOf (headerWord unit op inst (busArg count dir addr cmd)))
    _ = (headerWord unit op inst (busArg count dir addr cmd)).extractLsb' 15 1 := dirBit_dirOf _
    _ = (count ++ dirBit dir ++ addr ++ cmd).extractLsb' 15 1 := extractLsb'_headerWord unit op inst _ (by decide)
    _ = (count ++ dirBit dir ++ addr).extractLsb' 7 1 := extractLsb'_append_eq_of_le (by decide)
    _ = (count ++ dirBit dir).extractLsb' 0 1 := extractLsb'_append_eq_of_le (by decide)
    _ = dirBit dir := extractLsb'_append_eq_right

end Bus

@[simp] theorem lenOf_headerWord (n : Nat) : lenOf (headerWord unit op inst (lenArg n)) = BitVec.ofNat 16 n :=
  (extractLsb'_headerWord unit op inst _ (by decide)).trans extractLsb'_append_eq_right

theorem toNat_lenOf_headerWord {n : Nat} (hn : n < 2 ^ 16) : (lenOf (headerWord unit op inst (lenArg n))).toNat = n := by
  rw [lenOf_headerWord, toNat_ofNat, Nat.mod_eq_of_lt hn]

theorem ofBool_diagOf (h : Word) : ofBool (diagOf h) = h.extractLsb' 0 1 := ofBool_getLsbD h 0

@[simp] theorem diagOf_headerWord (diag : Bool) : diagOf (headerWord unit op inst (diagArg diag)) = diag :=
  ofBool_eq_iff_eq.1 <|
  calc ofBool (diagOf (headerWord unit op inst (diagArg diag)))
    _ = (headerWord unit op inst (diagArg diag)).extractLsb' 0 1 := ofBool_diagOf _
    _ = (0#19 ++ ofBool diag).extractLsb' 0 1 := extractLsb'_headerWord unit op inst _ (by decide)
    _ = ofBool diag := extractLsb'_append_eq_right

end Operands

/-! `ARG`, written from the operands that rule R61 extracts -/

theorem extractLsb'_argOf (h : Word) {len : Nat} (hl : len ≤ 20) : (argOf h).extractLsb' 0 len = h.extractLsb' 0 len :=
  BitVec.extractLsb'_extractLsb'_of_le (by omega)

/-- A word whose `k` high bits a mask finds to be 0 is its `n` low bits. -/
theorem eq_zero_append_of_and_high {k n : Nat} {x : BitVec (k + n)} (hz : x &&& (BitVec.allOnes k ++ 0#n) = 0#(k + n)) :
    x = 0#k ++ x.extractLsb' 0 n := by
  have hhigh : x.extractLsb' n k = 0#k := by
    simpa [BitVec.extractLsb'_and, BitVec.extractLsb'_append_eq_left] using congrArg (BitVec.extractLsb' n k) hz
  rw [← hhigh, BitVec.extractLsb'_append_extractLsb']

theorem depthArg_depthOf {h : Word} (hz : argOf h &&& 0xFFF00#20 = 0#20) : depthArg (depthOf h) = argOf h := by
  rw [eq_zero_append_of_and_high (k := 12) (n := 8) hz, extractLsb'_argOf h (by decide), depthArg, depthOf]

theorem lenArg_lenOf {h : Word} (hz : argOf h &&& 0xF0000#20 = 0#20) : lenArg (lenOf h).toNat = argOf h := by
  rw [eq_zero_append_of_and_high (k := 4) (n := 16) hz, extractLsb'_argOf h (by decide), lenArg, BitVec.ofNat_toNat,
    BitVec.setWidth_eq, lenOf]

theorem diagArg_diagOf {h : Word} (hz : argOf h &&& 0xFFFFE#20 = 0#20) : diagArg (diagOf h) = argOf h := by
  rw [eq_zero_append_of_and_high (k := 19) (n := 1) hz, extractLsb'_argOf h (by decide), diagArg, ofBool_diagOf]

theorem busArg_operands (h : Word) : busArg (countOf h) (dirOf h) (addrOf h) (cmdOf h) = argOf h := by
  have hdir : countOf h ++ dirBit (dirOf h) = h.extractLsb' 15 5 := by
    rw [dirBit_dirOf]
    exact BitVec.extractLsb'_append_extractLsb'_eq_extractLsb' rfl
  have haddr : h.extractLsb' 15 5 ++ addrOf h = h.extractLsb' 8 12 := BitVec.extractLsb'_append_extractLsb'_eq_extractLsb' rfl
  have hcmd : h.extractLsb' 8 12 ++ cmdOf h = argOf h := BitVec.extractLsb'_append_extractLsb'_eq_extractLsb' rfl
  rw [busArg, hdir, haddr, hcmd]

/-! The rows of the opcode map (rule R63) -/

/-- What `h & mask = match` says, field by field: every row fixes `UNIT` and `OP`, and the other bits of its mask are reserved. -/
theorem Opcode.selected_iff {h : Word} {o : Opcode} :
    h &&& o.maskWord = o.matchWord ↔
      unitOf h = unitOf o.matchWord ∧ opOf h = opOf o.matchWord
        ∧ instOf h &&& instOf o.maskWord = 0#4 ∧ argOf h &&& argOf o.maskWord = 0#20 := by
  have hunit : unitOf o.maskWord = BitVec.allOnes 4 := by cases o <;> rfl
  have hop : opOf o.maskWord = BitVec.allOnes 4 := by cases o <;> rfl
  have hinst : instOf o.matchWord = 0#4 := by cases o <;> rfl
  have harg : argOf o.matchWord = 0#20 := by cases o <;> rfl
  rw [word_eq_iff_fields, hinst, harg, unitOf_and, opOf_and, instOf_and, argOf_and, hunit, hop, BitVec.and_allOnes, BitVec.and_allOnes]

section Selected
variable {h : Word} {o : Opcode}

theorem instOf_eq_zero_of_selected (hsel : h &&& o.maskWord = o.matchWord) (hm : instOf o.maskWord = BitVec.allOnes 4) :
    instOf h = 0#4 := by
  obtain ⟨-, -, hinst, -⟩ := Opcode.selected_iff.1 hsel
  rwa [hm, BitVec.and_allOnes] at hinst

theorem argOf_eq_zero_of_selected (hsel : h &&& o.maskWord = o.matchWord) (hm : argOf o.maskWord = BitVec.allOnes 20) :
    argOf h = 0#20 := by
  obtain ⟨-, -, -, harg⟩ := Opcode.selected_iff.1 hsel
  rwa [hm, BitVec.and_allOnes] at harg

theorem argOf_and_eq_zero_of_selected (hsel : h &&& o.maskWord = o.matchWord) : argOf h &&& argOf o.maskWord = 0#20 := by
  obtain ⟨-, -, -, harg⟩ := Opcode.selected_iff.1 hsel
  exact harg

end Selected

/-- The map lists a row under the `UNIT` and `OP` of its `match`. -/
theorem Opcode.ofUnitOp_matchWord (o : Opcode) : Opcode.ofUnitOp (unitOf o.matchWord).toNat (opOf o.matchWord).toNat = some o := by
  cases o <;> rfl

/-- Rule R63: the row a header selects. -/
theorem Opcode.ofHeader_eq_ok_iff {h : Word} {o : Opcode} : Opcode.ofHeader h = .ok o ↔ h &&& o.maskWord = o.matchWord := by
  constructor
  · intro ho
    unfold Opcode.ofHeader at ho
    split at ho
    · cases ho
    · split at ho
      · next hsel =>
        cases ho
        exact hsel
      · cases ho
  · intro hsel
    obtain ⟨hunit, hop, -, -⟩ := Opcode.selected_iff.1 hsel
    simp [Opcode.ofHeader, hunit, hop, Opcode.ofUnitOp_matchWord, hsel]

/-- A header no row selects is illegal, and the error names it. -/
theorem Opcode.ofHeader_error {h : Word} {e : DecodeError} (he : Opcode.ofHeader h = .error e) :
    e = .reservedUnit h ∨ e = .unlistedOp h ∨ e = .reservedBit h := by
  unfold Opcode.ofHeader at he
  split at he
  · cases he
    split_ifs <;> simp
  · split_ifs at he
    cases he
    simp

/-- Every command's header selects the command's row. -/
theorem Instr.header_selects (i : Instr) : i.header &&& i.opcode.maskWord = i.opcode.matchWord :=
  match i with
  | .schedOpen => Laws.HeaderRow.schedOpen
  | .schedPost m => Laws.HeaderRow.schedPost m
  | .schedClear m => Laws.HeaderRow.schedClear m
  | .schedPoll => Laws.HeaderRow.schedPoll
  | .arbOpen => Laws.HeaderRow.arbOpen
  | .arbBlock d => Laws.HeaderRow.arbBlock d
  | .arbUnblock d => Laws.HeaderRow.arbUnblock d
  | .arbFloor => Laws.HeaderRow.arbFloor
  | .arbEnter => Laws.HeaderRow.arbEnter
  | .busStart p addr cmd dir count dest ev => Laws.HeaderRow.busStart p addr cmd dir count dest ev
  | .busBusy p => Laws.HeaderRow.busBusy p
  | .busReset p => Laws.HeaderRow.busReset p
  | .serStart p bytes => Laws.HeaderRow.serStart p bytes
  | .serBusy p => Laws.HeaderRow.serBusy p
  | .qOpen q => Laws.HeaderRow.qOpen q
  | .qPush q payload => Laws.HeaderRow.qPush q payload
  | .qPop q diag => Laws.HeaderRow.qPop q diag
  | .qFree q => Laws.HeaderRow.qFree q

/-- A header that selects a command's row and has the command's `INST` and `ARG` is the command's header. -/
theorem Instr.header_eq_of_selected {i : Instr} {h : Word} (hsel : h &&& i.opcode.maskWord = i.opcode.matchWord)
    (hinst : instOf i.header = instOf h) (harg : argOf i.header = argOf h) : i.header = h := by
  obtain ⟨hunit, hop, -, -⟩ := Opcode.selected_iff.1 hsel
  obtain ⟨hunit', hop', -, -⟩ := Opcode.selected_iff.1 i.header_selects
  exact word_eq_iff_fields.2 ⟨hunit'.trans hunit.symm, hop'.trans hop.symm, hinst, harg⟩

end Sys2Proof
end

section
/-! The decoder and the encoder of the command port (30_encoding.md R58 to R64) read each other back: words decode to a command exactly when
that command is well formed and the words are its encoding. -/

namespace Sys2Proof

/-! Payload bytes in words (rule R60) -/

open BitVec in
theorem bytesOfWord_wordOfBytes (b0 b1 b2 b3 : Byte) : bytesOfWord (wordOfBytes b0 b1 b2 b3) = [b0, b1, b2, b3] := by
  have h0 : (b3 ++ b2 ++ b1 ++ b0).extractLsb' 0 8 = b0 := extractLsb'_append_eq_right
  have h1 : (b3 ++ b2 ++ b1 ++ b0).extractLsb' 8 8 = b1 :=
    (extractLsb'_append_eq_of_le (by decide)).trans extractLsb'_append_eq_right
  have h2 : (b3 ++ b2 ++ b1 ++ b0).extractLsb' 16 8 = b2 :=
    (extractLsb'_append_eq_of_le (by decide)).trans <| (extractLsb'_append_eq_of_le (by decide)).trans extractLsb'_append_eq_right
  have h3 : (b3 ++ b2 ++ b1 ++ b0).extractLsb' 24 8 = b3 :=
    (extractLsb'_append_eq_of_le (by decide)).trans <| (extractLsb'_append_eq_of_le (by decide)).trans extractLsb'_append_eq_left
  rw [bytesOfWord, wordOfBytes, h0, h1, h2, h3]

theorem wordOfBytes_bytesOfWord (w : Word) :
    wordOfBytes (w.extractLsb' 0 8) (w.extractLsb' 8 8) (w.extractLsb' 16 8) (w.extractLsb' 24 8) = w := by
  have h2 : w.extractLsb' 24 8 ++ w.extractLsb' 16 8 = w.extractLsb' 16 16 := BitVec.extractLsb'_append_extractLsb'_eq_extractLsb' rfl
  have h1 : w.extractLsb' 16 16 ++ w.extractLsb' 8 8 = w.extractLsb' 8 24 := BitVec.extractLsb'_append_extractLsb'_eq_extractLsb' rfl
  have h0 : w.extractLsb' 8 24 ++ w.extractLsb' 0 8 = w := BitVec.extractLsb'_append_extractLsb'
  rw [wordOfBytes, h2, h1, h0]

theorem unpackBytes_length (ws : List Word) : (unpackBytes ws).length = 4 * ws.length := by
  induction ws with
  | nil => rfl
  | cons w ws ih => simp [unpackBytes, bytesOfWord, ih]; omega

theorem packBytes_unpackBytes (ws : List Word) : packBytes (unpackBytes ws) = ws := by
  induction ws with
  | nil => rfl
  | cons w ws ih => simp [unpackBytes, bytesOfWord, packBytes, wordOfBytes_bytesOfWord, ih]

/-- How many padding bytes fill the last word of a payload of `n` bytes. -/
def paddingBytes (n : Nat) : Nat := 4 * payloadWords n - n

theorem paddingBytes_add_four (n : Nat) : paddingBytes (n + 4) = paddingBytes n := by
  unfold paddingBytes payloadWords; omega

theorem add_paddingBytes (n : Nat) : n + paddingBytes n = 4 * payloadWords n := by
  unfold paddingBytes payloadWords; omega

/-- Padding with zeros to a whole word changes no word. -/
theorem packBytes_padded (bytes : List Byte) :
    packBytes (bytes ++ List.replicate (paddingBytes bytes.length) 0#8) = packBytes bytes :=
  match bytes with
  | [] | [_] | [_, _] | [_, _, _] => by simp [packBytes, paddingBytes, payloadWords, List.replicate]
  | _ :: _ :: _ :: _ :: rest => by simp [packBytes, paddingBytes_add_four, packBytes_padded rest]

/-- Unpacking gives the bytes back, padded. -/
theorem unpackBytes_packBytes (bytes : List Byte) :
    unpackBytes (packBytes bytes) = bytes ++ List.replicate (paddingBytes bytes.length) 0#8 := by
  match bytes with
  | [] => rfl
  | [_] | [_, _] | [_, _, _] => simp [packBytes, unpackBytes, bytesOfWord_wordOfBytes, paddingBytes, payloadWords]
  | _ :: _ :: _ :: _ :: rest =>
    simp [packBytes, unpackBytes, bytesOfWord_wordOfBytes, paddingBytes_add_four, unpackBytes_packBytes rest]

/-- Words whose bytes past the length are 0 are the packed bytes before it. -/
theorem packBytes_take_unpackBytes {ws : List Word} {n : Nat} (hlen : ws.length = payloadWords n)
    (hz : ∀ b ∈ (unpackBytes ws).drop n, b = 0#8) : packBytes ((unpackBytes ws).take n) = ws := by
  have hall : (unpackBytes ws).length = n + paddingBytes n := by rw [unpackBytes_length, hlen, add_paddingBytes]
  have hn : ((unpackBytes ws).take n).length = n := by simp [hall]
  have hdrop : (unpackBytes ws).drop n = List.replicate (paddingBytes n) 0#8 :=
    List.eq_replicate_iff.2 ⟨by simp [hall], hz⟩
  calc packBytes ((unpackBytes ws).take n)
    _ = packBytes ((unpackBytes ws).take n ++ List.replicate (paddingBytes n) 0#8) := by
      conv_lhs => rw [← packBytes_padded, hn]
    _ = packBytes (unpackBytes ws) := by rw [← hdrop, List.take_append_drop]
    _ = ws := packBytes_unpackBytes ws

/-! The operand words of each format (rule R59) -/

theorem decodeMask_eq_ok_iff {evtW : Nat} {h : Word} {make : Word → Instr} {ws rest : List Word} {i : Instr} :
    decodeMask evtW h make ws = .ok (i, rest) ↔ ∃ m, fitsIn evtW m = true ∧ i = make m ∧ ws = m :: rest := by
  constructor
  · intro hd
    unfold decodeMask at hd
    split at hd
    · cases hd
    · split_ifs at hd with hm
      cases hd
      exact ⟨_, hm, rfl, rfl⟩
  · rintro ⟨m, hm, rfl, rfl⟩
    simp [decodeMask, hm]

theorem decodeBusStart_eq_ok_iff {evtW : Nat} {h : Word} {ws rest : List Word} {i : Instr} :
    decodeBusStart evtW h ws = .ok (i, rest) ↔ ∃ dest ev, fitsIn evtW ev = true
      ∧ i = .busStart (instOf h) (addrOf h) (cmdOf h) (dirOf h) (countOf h) dest ev ∧ ws = dest :: ev :: rest := by
  constructor
  · intro hd
    unfold decodeBusStart at hd
    split at hd
    · split_ifs at hd with hev
      cases hd
      exact ⟨_, _, hev, rfl, rfl⟩
    · cases hd
  · rintro ⟨dest, ev, hev, rfl, rfl⟩
    simp [decodeBusStart, hev]

theorem decodePayload_eq_ok_iff {h : Word} {make : List Byte → Instr} {ws rest : List Word} {i : Instr} :
    decodePayload h make ws = .ok (i, rest) ↔
      ∃ bytes, bytes.length = (lenOf h).toNat ∧ i = make bytes ∧ ws = packBytes bytes ++ rest := by
  constructor
  · intro hd
    unfold decodePayload at hd
    simp only at hd
    split_ifs at hd with hshort hpad
    simp only [Except.ok.injEq, Prod.mk.injEq] at hd
    obtain ⟨rfl, rfl⟩ := hd
    have hlen : (ws.take (payloadWords (lenOf h).toNat)).length = payloadWords (lenOf h).toNat := by
      refine le_antisymm (by simp) (by omega)
    refine ⟨_, ?_, rfl, ?_⟩
    · simp [unpackBytes_length, hlen, ← add_paddingBytes]
    · rw [packBytes_take_unpackBytes hlen (by simpa using hpad), List.take_append_drop]
  · rintro ⟨bytes, hlen, rfl, rfl⟩
    simp [decodePayload, packBytes_length, unpackBytes_packBytes, ← hlen]

/-! The command (rules R58 to R64) -/

/-- A command's operand words decode to it, behind its header. -/
theorem decodeOperands_operands {evtW : Nat} {i : Instr} (hwf : i.wellFormed evtW = true) (rest : List Word) :
    decodeOperands evtW i.opcode i.header (i.operands ++ rest) = .ok (i, rest) := by
  obtain ⟨hmask, hlen⟩ : i.maskFits evtW = true ∧ i.payloadFits = true := by simpa [Instr.wellFormed] using hwf
  cases i with
  | schedPost m | schedClear m => exact decodeMask_eq_ok_iff.2 ⟨m, hmask, rfl, rfl⟩
  | busStart p addr cmd dir count dest ev =>
    exact decodeBusStart_eq_ok_iff.2 ⟨dest, ev, hmask, by simp [Instr.header], rfl⟩
  | serStart p bytes | qPush p bytes =>
    have hfit : bytes.length < 2 ^ 16 := by simpa [Instr.payloadFits] using hlen
    exact decodePayload_eq_ok_iff.2 ⟨bytes, (toNat_lenOf_headerWord _ _ _ hfit).symm, by simp [Instr.header], rfl⟩
  | schedOpen | schedPoll | arbOpen | arbFloor | arbEnter => rfl
  | arbBlock | arbUnblock | busBusy | busReset | serBusy | qOpen | qPop | qFree =>
    simp [decodeOperands, Instr.opcode, Instr.header, Instr.operands]

/-- What a selected row's operand words decode to is a well-formed command with that header and those words. -/
theorem decodeOperands_ok {evtW : Nat} {o : Opcode} {h : Word} {ws rest : List Word} {i : Instr} (hsel : h &&& o.maskWord = o.matchWord)
    (hd : decodeOperands evtW o h ws = .ok (i, rest)) :
    i.wellFormed evtW = true ∧ i.header = h ∧ ws = i.operands ++ rest := by
  have harg := argOf_and_eq_zero_of_selected hsel
  cases o with
  | schedOpen | schedPoll | arbOpen | arbFloor | arbEnter =>
    cases hd
    refine ⟨rfl, Instr.header_eq_of_selected hsel ?_ ?_, rfl⟩
    · simp [Instr.header, instOf_eq_zero_of_selected hsel rfl]
    · simp [Instr.header, argOf_eq_zero_of_selected hsel rfl]
  | schedPost | schedClear =>
    obtain ⟨m, hm, rfl, rfl⟩ := decodeMask_eq_ok_iff.1 hd
    refine ⟨by simp [Instr.wellFormed, Instr.maskFits, Instr.payloadFits, hm], Instr.header_eq_of_selected hsel ?_ ?_, rfl⟩
    · simp [Instr.header, instOf_eq_zero_of_selected hsel rfl]
    · simp [Instr.header, argOf_eq_zero_of_selected hsel rfl]
  | arbBlock | arbUnblock =>
    cases hd
    refine ⟨rfl, Instr.header_eq_of_selected hsel ?_ ?_, rfl⟩
    · simp [Instr.header, instOf_eq_zero_of_selected hsel rfl]
    · simp [Instr.header, depthArg_depthOf harg]
  | busStart =>
    obtain ⟨dest, ev, hev, rfl, rfl⟩ := decodeBusStart_eq_ok_iff.1 hd
    refine ⟨by simp [Instr.wellFormed, Instr.maskFits, Instr.payloadFits, hev], Instr.header_eq_of_selected hsel ?_ ?_, rfl⟩
    · simp [Instr.header]
    · simp [Instr.header, busArg_operands]
  | busBusy | busReset | serBusy | qOpen | qFree =>
    cases hd
    refine ⟨rfl, Instr.header_eq_of_selected hsel ?_ ?_, rfl⟩
    · simp [Instr.header]
    · simp [Instr.header, argOf_eq_zero_of_selected hsel rfl]
  | serStart | qPush =>
    obtain ⟨bytes, hlen, rfl, rfl⟩ := decodePayload_eq_ok_iff.1 hd
    have hfit : bytes.length < 2 ^ 16 := hlen ▸ (lenOf h).isLt
    refine ⟨by simpa [Instr.wellFormed, Instr.maskFits, Instr.payloadFits] using hfit, Instr.header_eq_of_selected hsel ?_ ?_, rfl⟩
    · simp [Instr.header]
    · simp [Instr.header, hlen, lenArg_lenOf harg]
  | qPop =>
    cases hd
    refine ⟨rfl, Instr.header_eq_of_selected hsel ?_ ?_, rfl⟩
    · simp [Instr.header]
    · simp [Instr.header, diagArg_diagOf harg]

/-- Decoding and encoding read each other back. -/
theorem decode_eq_ok_iff {evtW : Nat} {ws rest : List Word} {i : Instr} :
    decode evtW ws = .ok (i, rest) ↔ i.wellFormed evtW = true ∧ ws = encode i ++ rest := by
  constructor
  · intro hd
    unfold decode at hd
    split at hd
    · cases hd
    · split at hd
      · cases hd
      · next ho =>
        obtain ⟨hwf, rfl, rfl⟩ := decodeOperands_ok (Opcode.ofHeader_eq_ok_iff.1 ho) hd
        exact ⟨hwf, rfl⟩
  · rintro ⟨hwf, rfl⟩
    have ho : Opcode.ofHeader i.header = .ok i.opcode := Opcode.ofHeader_eq_ok_iff.2 i.header_selects
    simp [encode, decode, ho, decodeOperands_operands hwf]

/-- The length a legal command's header gives is its own (rule R62). -/
theorem commandWords_header {evtW : Nat} {i : Instr} (hwf : i.wellFormed evtW = true) : commandWords i.header = (encode i).length := by
  have ho : Opcode.ofHeader i.header = .ok i.opcode := Opcode.ofHeader_eq_ok_iff.2 i.header_selects
  have hlen : i.opcode.operandWords i.header = i.operands.length := by
    cases i with
    | serStart p bytes | qPush p bytes =>
      have hfit : bytes.length < 2 ^ 16 := by simpa [Instr.wellFormed, Instr.maskFits, Instr.payloadFits] using hwf
      simp only [Opcode.operandWords, Opcode.format, Instr.opcode, Instr.operands, Instr.header, toNat_lenOf_headerWord _ _ _ hfit,
        packBytes_length]
    | _ => rfl
  simp [commandWords, ho, encode, hlen, Nat.add_comm]

/-- A header no row selects counts as one word (rule R62). -/
theorem commandWords_of_unselected {h : Word} (hno : ∀ o : Opcode, h &&& o.maskWord ≠ o.matchWord) : commandWords h = 1 := by
  unfold commandWords
  split
  · next o ho => exact absurd (Opcode.ofHeader_eq_ok_iff.1 ho) (hno o)
  · rfl

/-- The errors of the operand words name the header (rule R64 (d) and (e)). -/
theorem decodeOperands_error {evtW : Nat} {o : Opcode} {h : Word} {ws : List Word} {e : DecodeError}
    (hd : decodeOperands evtW o h ws = .error e) : e = .incomplete ∨ e = .maskAboveEvtW h ∨ e = .paddingNonzero h := by
  cases o with
  | schedPost | schedClear =>
    simp only [decodeOperands, decodeMask] at hd
    split at hd
    · simp_all
    · split_ifs at hd
      simp_all
  | busStart =>
    simp only [decodeOperands, decodeBusStart] at hd
    split at hd
    · split_ifs at hd
      simp_all
    · simp_all
  | serStart | qPush =>
    simp only [decodeOperands, decodePayload] at hd
    split_ifs at hd <;> simp_all
  | schedOpen | schedPoll | arbOpen | arbBlock | arbUnblock | arbFloor | arbEnter | busBusy | busReset | serBusy | qOpen | qPop | qFree =>
    cases hd

/-- Every error but missing words names the header it is about (rule R64). -/
theorem decode_error {evtW : Nat} {h : Word} {ws : List Word} {e : DecodeError} (hd : decode evtW (h :: ws) = .error e) :
    e = .incomplete ∨ e = .reservedUnit h ∨ e = .unlistedOp h ∨ e = .reservedBit h ∨ e = .maskAboveEvtW h
      ∨ e = .paddingNonzero h := by
  simp only [decode] at hd
  split at hd
  · next he =>
    cases hd
    have := Opcode.ofHeader_error he
    tauto
  · have := decodeOperands_error hd
    tauto

/-! The statements of 30_encoding.md on commands -/

/-- Settles O1: `decode_eq_ok_iff`, from right to left. -/
theorem decodeReadsBackEncode : Obligations.DecodeReadsBackEncode :=
  fun _ _ _ hwf => decode_eq_ok_iff.2 ⟨hwf, rfl⟩

/-- Settles O2: `decode_eq_ok_iff`, from left to right. -/
theorem encodeReadsBackDecode : Obligations.EncodeReadsBackDecode :=
  fun _ _ _ _ hd => decode_eq_ok_iff.1 hd

/-- Settles O3: the row by its mask; the length by the encoding of what decodes. -/
theorem headerGivesRowAndLength : Obligations.HeaderGivesRowAndLength := by
  refine ⟨fun _ _ => Opcode.ofHeader_eq_ok_iff, fun evtW h ws rest i hd => ?_, fun _ => commandWords_of_unselected⟩
  obtain ⟨hwf, hws⟩ := decode_eq_ok_iff.1 hd
  obtain rfl : h = i.header := (List.cons.inj hws).1
  rw [hws, List.length_append, commandWords_header hwf]

/-- Settles O4: each example evaluates. -/
theorem exampleWordsDecode : Obligations.ExampleWordsDecode := ⟨rfl, rfl, rfl, rfl, rfl, rfl, rfl⟩

end Sys2Proof
end

section
/-! The checks a command meets at the port before its own rule (30_encoding.md R64 and R65, 60_exceptions.md R137). -/

namespace Sys2Proof.Machine

/-- An illegal command at an open port is reported by its header (30_encoding.md R64). -/
theorem fetchCommand_illegal {s : State} {c : Ctx} {h : Word} {ws : List Word} {e : DecodeError} (ha : s.accepts c = true)
    (hw : s.portWords c = h :: ws) (hd : decode s.cfg.evtW (h :: ws) = .error e) (he : e ≠ .incomplete) :
    fetchCommand s c = .illegal h := by
  obtain rfl | rfl | rfl | rfl | rfl | rfl := decode_error hd
  · exact absurd rfl he
  all_goals simp [fetchCommand, ha, hw, hd]

/-- Rule R137's table: what is not allowed from interrupt context is foreground-only. -/
theorem allowedFromIrq_eq_false_iff {i : Instr} : allowedFromIrq i = false ↔ i.opcode ∈ foregroundOnly := by
  cases i <;> simp [allowedFromIrq, Instr.opcode, foregroundOnly]

/-- Rule R65 (3) in terms of the header: only bus engines, serial engines and queues are numbered. -/
theorem State.instanceInRange_eq_false_iff {s : State} {i : Instr} :
    s.instanceInRange i = false ↔
      unitOf i.header = 2#4 ∧ s.cfg.nBus ≤ (instOf i.header).toNat
        ∨ (unitOf i.header = 3#4 ∨ unitOf i.header = 4#4) ∧ s.cfg.nSer ≤ (instOf i.header).toNat := by
  cases i <;> simp [State.instanceInRange, Instr.header]

/-- A command that fails a check of rule R65 raises that check's fault, whatever its own rule says. -/
theorem exec_of_admission {i : Instr} {s : State} {f : FaultReport} (h : s.admission i = some f) :
    exec i s = .next (s.raiseFault f) := by
  simp [exec_eq_runCommand, runCommand, h]

/-- Settles O6: the fetch reports the header, and the step writes the fault register. -/
theorem illegalWordsRaiseIllegalCommand : Obligations.IllegalWordsRaiseIllegalCommand := by
  intro s c ms h ws e hh hm ha hw hd he
  have hf : fetchCommand { s with moves := ms } c = .illegal h :=
    fetchCommand_illegal (by cases c <;> exact ha) (by cases c <;> exact hw) hd he
  calc step s = commandStep c { s with moves := ms } := step_move hh hm
    _ = .next (({ s with moves := ms } : State).raiseFault (faultIllegal h)) := by simp [commandStep, hf]

/-- Settles O10: the two checks of rule R65, in their order. -/
theorem contextThenInstanceFaults : Obligations.ContextThenInstanceFaults := by
  intro i s
  refine ⟨fun hctx hfg => ?_, fun hfg hrange => ?_⟩
  · have hadm : s.admission i = some (faultHeader .context i.header) := by
      simp [State.admission, hctx, allowedFromIrq_eq_false_iff.2 hfg]
    exact exec_of_admission hadm
  · have hctx : ¬(s.ctx = .irq ∧ allowedFromIrq i = false) := fun ⟨hc, hi⟩ => hfg hc (allowedFromIrq_eq_false_iff.1 hi)
    have hadm : s.admission i = some (faultHeader .operandRange i.header) := by
      rw [State.admission, if_neg hctx, if_pos (State.instanceInRange_eq_false_iff.2 hrange)]
    exact exec_of_admission hadm

end Sys2Proof.Machine
end

section
/-! The event port (30_encoding.md R67 and R68): event words are the encodings of events, and the step of an event is its effect. -/

namespace Sys2Proof.Machine

/-! Event words -/

/-- An event word has the fields of a header whose `ARG` holds the datum in its low byte. -/
theorem eventWord_eq_headerWord (src kind inst : BitVec 4) (data : Byte) :
    eventWord src kind inst data = headerWord src kind inst (depthArg data) :=
  BitVec.append_assoc

theorem eventWord_inj {src kind inst src' kind' inst' : BitVec 4} {data data' : Byte} :
    eventWord src kind inst data = eventWord src' kind' inst' data' ↔ src = src' ∧ kind = kind' ∧ inst = inst' ∧ data = data' := by
  simp [eventWord_eq_headerWord, headerWord_inj, depthArg_inj]

/-- Bits 19:8 are 0 exactly in the words of the form of rule R67. -/
theorem reserved_eq_zero_iff {w : Word} :
    w.extractLsb' 8 12 = 0#12 ↔ eventWord (unitOf w) (opOf w) (instOf w) (depthOf w) = w := by
  have harg : w.extractLsb' 8 12 ++ depthOf w = argOf w := BitVec.extractLsb'_append_extractLsb'_eq_extractLsb' rfl
  have hzero : depthArg (depthOf w) = argOf w ↔ 0#12 = w.extractLsb' 8 12 := harg ▸ BitVec.append_left_inj (depthOf w)
  simp [eventWord_eq_headerWord, word_eq_iff_fields (g := w), hzero, eq_comm]

/-- The fields rule R67 lists for an event are those of its word. -/
theorem encodeEvent_of_eventOfFields {src kind : Nat} {p : BitVec 4} {data : Byte} {e : Event}
    (he : eventOfFields src kind p data = some e) : encodeEvent e = eventWord (BitVec.ofNat 4 src) (BitVec.ofNat 4 kind) p data := by
  unfold eventOfFields at he
  split at he
  case h_3 =>
    cases he
    rfl
  case h_5 =>
    split_ifs at he with hfalse htrue <;> cases he
    · rw [hfalse]
      rfl
    · rw [htrue]
      rfl
  case h_8 => cases he
  all_goals
    split_ifs at he with hdata
    cases he
    rw [hdata]
    rfl

/-- The words of the events rule R67 lists, field by field. -/
theorem eventOfFields_eq_some_iff {src kind p : BitVec 4} {data : Byte} {e : Event} :
    eventOfFields src.toNat kind.toNat p data = some e ↔ encodeEvent e = eventWord src kind p data := by
  constructor
  · intro he
    simpa using encodeEvent_of_eventOfFields he
  · intro he
    cases e <;> obtain ⟨rfl, rfl, rfl, rfl⟩ := eventWord_inj.1 he
    case busIdle p v => cases v <;> rfl
    all_goals rfl

/-- Every event's word has bits 19:8 at 0. -/
theorem encodeEvent_eq_eventWord (e : Event) : ∃ src kind p data, encodeEvent e = eventWord src kind p data := by
  cases e <;> exact ⟨_, _, _, _, rfl⟩

theorem reserved_encodeEvent (e : Event) : (encodeEvent e).extractLsb' 8 12 = 0#12 := by
  obtain ⟨src, kind, p, data, hw⟩ := encodeEvent_eq_eventWord e
  rw [hw, reserved_eq_zero_iff]
  simp [eventWord_eq_headerWord]

theorem decodeEvent_eq_some_iff {c : Params} {w : Word} {e : Event} :
    decodeEvent c w = some e ↔ e.inRange c = true ∧ encodeEvent e = w := by
  constructor
  · intro hd
    unfold decodeEvent at hd
    split_ifs at hd with hres
    split at hd
    · next he =>
      split_ifs at hd with hrange
      cases hd
      exact ⟨hrange, (eventOfFields_eq_some_iff.1 he).trans (reserved_eq_zero_iff.1 hres)⟩
    · cases hd
  · rintro ⟨hrange, rfl⟩
    have hres := reserved_encodeEvent e
    have hfields := eventOfFields_eq_some_iff.2 (reserved_eq_zero_iff.1 hres).symm
    simp only [unitOf, opOf, instOf, depthOf] at hfields
    simp only [decodeEvent, hres, hfields, hrange, if_true]

/-! The step of an event -/

/-- An event step with an event at the port is the event's effect (rule R68). -/
theorem eventStep_of_decodeEvent {s : State} {w : Word} {ws : List Word} {e : Event} (hp : s.evtPort = w :: ws)
    (he : decodeEvent s.cfg w = some e) : eventStep s = .next (applyEvent e { s with evtPort := ws }) := by
  simp [eventStep, hp, he]

/-- Settles O5: `decodeEvent_eq_some_iff`. -/
theorem eventWordsReadBack : Obligations.EventWordsReadBack :=
  fun _ _ _ => decodeEvent_eq_some_iff

/-- Settles O53: the step is `applyEvent`, and each event writes its one engine. -/
theorem eventStepAppliesItsEvent : Obligations.EventStepAppliesItsEvent := by
  intro s w ws ms e hh hm hp he
  calc step s = eventStep { s with moves := ms } := step_move hh hm
    _ = .next (applyEvent e { s with moves := ms, evtPort := ws }) := eventStep_of_decodeEvent hp he
    _ = _ := by cases e <;> rfl

end Sys2Proof.Machine
end

section
/-! Commands that complete without a fault (30_encoding.md R65 and R66, 41_arbiter.md R89): when one is admitted, what it leaves, and what
follows of the opens, the queries and the scheduler (40_scheduler.md). -/

namespace Sys2Proof.Machine

/-! A completed command -/

/-- Rule R137: a command the table allows to `IRQ` is admitted from either context. -/
theorem State.admission_of_allowed {s : State} {i : Instr} (hi : allowedFromIrq i = true) (hr : s.instanceInRange i = true) :
    s.admission i = none :=
  State.admission_eq_none.2 ⟨fun _ => hi, hr⟩

/-- Rule R137: from the foreground every command is allowed. -/
theorem State.admission_of_fg {s : State} {i : Instr} (hc : s.ctx = .fg) (hr : s.instanceInRange i = true) : s.admission i = none :=
  State.admission_eq_none.2 ⟨fun h => (nomatch hc.symm.trans h), hr⟩

/-- An admitted command whose rule ends in a response completes with that response. -/
theorem exec_completed {i : Instr} {s t : State} {v : Word} (ha : s.admission i = none) (hb : commandBody s i = .ok (t.respond v)) :
    exec i s = .next (t.completed v) := by
  rw [exec_eq_runCommand, hb, runCommand_ok ha, State.respond_endCommand]

@[simp] theorem State.completed_pending (s : State) (v : Word) : (s.completed v).pending = s.pending := rfl

theorem runCommands_cons {i : Instr} {is : List Instr} {s t : State} (h : exec i s = .next t) :
    runCommands (i :: is) s = runCommands is t := by
  simp [runCommands, h]

theorem runCommands_singleton {i : Instr} {s t : State} (h : exec i s = .next t) : runCommands [i] s = .next t :=
  runCommands_cons h

theorem runCommands_pair {i j : Instr} {s t u : State} (hi : exec i s = .next t) (hj : exec j t = .next u) :
    runCommands [i, j] s = .next u :=
  (runCommands_cons hi).trans (runCommands_singleton hj)

/-! Opening the units -/

theorem exec_schedOpen {s : State} (hc : s.ctx = .fg) : exec .schedOpen s = .next ({ s with pending := 0#32 }.completed 0#32) :=
  exec_completed (State.admission_of_fg hc rfl) rfl

theorem exec_arbOpen {s : State} (hc : s.ctx = .fg) (hl : s.cnt.length = s.cfg.nDepth) :
    exec .arbOpen s = .next ({ s with cnt := List.replicate s.cfg.nDepth 0#8 }.completed 0#32) := by
  have hcnt : (s.cnt.map fun _ => 0#8) = List.replicate s.cfg.nDepth 0#8 := by rw [List.map_const', hl]
  exact exec_completed (State.admission_of_fg hc rfl) (by rw [← hcnt]; rfl)

theorem exec_qOpen {s : State} {q : BitVec 4} (hc : s.ctx = .fg) (hq : q.toNat < s.cfg.nSer) :
    exec (.qOpen q) s =
      .next ((s.setQueue q.toNat { s.queueAt q.toNat with qrd := 0, qwr := 0, diagLen := 0#16 }).completed 0#32) :=
  exec_completed (State.admission_of_fg hc (decide_eq_true hq)) rfl

theorem State.otherQueuesKept_setQueue (s : State) (q : Nat) (u : QueueUnit) : s.OtherQueuesKept (s.setQueue q u) q :=
  ⟨List.length_set, fun _ h => State.queueAt_setQueue_other h⟩

/-- Settles O12: each open is admitted from the foreground and writes its own unit; the machine has queue `q`. -/
theorem openCommandsEmptyTheirUnit : Obligations.OpenCommandsEmptyTheirUnit := by
  rintro s hc ⟨hcnt, -, -, hqueue, -⟩
  refine ⟨exec_schedOpen hc, exec_arbOpen hc hcnt, fun q hq => ⟨_, exec_qOpen hc hq, rfl, s.otherQueuesKept_setQueue _ _, ?_⟩⟩
  exact State.queueAt_setQueue_same (hqueue ▸ hq)

/-! Queries -/

/-- Rule R66: a query, which either context may issue, gives its response and has no other effect. -/
theorem exec_query {i : Instr} {s : State} {v : Word} (hi : allowedFromIrq i = true) (hr : s.instanceInRange i = true)
    (hb : commandBody s i = .ok (s.respond v)) : exec i s = .next (s.completed v) :=
  exec_completed (State.admission_of_allowed hi hr) hb

/-- A busy flag as a response word (42_bus_master.md R96, 43_serial_tx.md R113). -/
theorem setWidth_ofBool (b : Bool) : (BitVec.ofBool b).setWidth 32 = if b then 1#32 else 0#32 := by
  cases b <;> rfl

/-- Settles O13: each query is allowed from both contexts, and its rule is a response alone. -/
theorem queriesRespondAndChangeNothing : Obligations.QueriesRespondAndChangeNothing := by
  intro s
  refine ⟨exec_query rfl rfl rfl, exec_query rfl rfl rfl, fun p => ⟨fun hp => ?_, fun hp => ?_⟩⟩
  · exact exec_query rfl (decide_eq_true hp) (by rw [← setWidth_ofBool]; rfl)
  · exact exec_query rfl (decide_eq_true hp) (by rw [← setWidth_ofBool]; rfl)

/-! The scheduler -/

/-- `State.eventMask_eq` with no bound on `EVT_W`: a mask at least as wide as a word keeps every bit. -/
theorem State.eventMask_of_fitsIn {s : State} {m : Word} (h : fitsIn s.cfg.evtW m = true) : s.eventMask m = m := by
  obtain hw | hw := Nat.le_total s.cfg.evtW 32
  · exact State.eventMask_eq hw h
  · have hones : BitVec.ofNat 32 (2 ^ s.cfg.evtW - 1) = BitVec.allOnes 32 := by
      refine BitVec.eq_of_getLsbD_eq fun k hk => ?_
      rw [BitVec.getLsbD_ofNat, Nat.testBit_two_pow_sub_one, BitVec.getLsbD_allOnes, decide_eq_true (hk.trans_le hw), Bool.and_true]
    rw [State.eventMask, hones, BitVec.and_allOnes]

/-- 40_scheduler.md R75, from either context. -/
theorem exec_schedPost {s : State} {m : Word} (hm : fitsIn s.cfg.evtW m = true) :
    exec (.schedPost m) s = .next ((s.post m).completed 0#32) := by
  have hb : commandBody s (.schedPost m) = .ok ((s.post (s.eventMask m)).respond 0#32) := rfl
  rw [State.eventMask_of_fitsIn hm] at hb
  exact exec_completed (State.admission_of_allowed rfl rfl) hb

/-- 40_scheduler.md R76, from the foreground. -/
theorem exec_schedClear {s : State} {m : Word} (hc : s.ctx = .fg) (hm : fitsIn s.cfg.evtW m = true) :
    exec (.schedClear m) s = .next ({ s with pending := s.pending &&& ~~~m }.completed 0#32) := by
  have hb : commandBody s (.schedClear m) = .ok ({ s with pending := s.pending &&& ~~~(s.eventMask m) }.respond 0#32) := rfl
  rw [State.eventMask_of_fitsIn hm] at hb
  exact exec_completed (State.admission_of_fg hc rfl) hb

/-- Settles O14: the operand word is its own mask. -/
theorem schedPostSetsItsBits : Obligations.SchedPostSetsItsBits := fun _ _ => exec_schedPost

/-- Settles O15: the operand word is its own mask. -/
theorem schedClearClearsItsBits : Obligations.SchedClearClearsItsBits := fun _ _ => exec_schedClear

/-- Two posts are one post of both masks, each with its response (40_scheduler.md R79 item 1). -/
theorem runCommands_posts {s : State} {a b : Word} (ha : fitsIn s.cfg.evtW a = true) (hb : fitsIn s.cfg.evtW b = true) :
    runCommands [.schedPost a, .schedPost b] s = .next (((s.post (a ||| b)).completed 0#32).completed 0#32) := by
  have hpost : ((s.post a).completed 0#32).post b = (s.post (a ||| b)).completed 0#32 := by
    rw [State.post, State.completed_pending, State.post_pending, BitVec.or_assoc]
    rfl
  rw [runCommands_pair (exec_schedPost ha) (exec_schedPost hb), hpost]

/-- Settles O16: both orders of two posts are the post of both masks; of a post and a clear, the later one's mask is applied last. -/
theorem postsCoalesceAndCommute : Obligations.PostsCoalesceAndCommute := by
  intro s a b ha hb
  refine ⟨⟨_, runCommands_posts ha hb, ?commute, (BitVec.or_assoc ..).symm⟩,
    ⟨_, _, runCommands_posts ha ha, runCommands_singleton (exec_schedPost ha), ?idempotent⟩,
    fun hc => ⟨_, _, runCommands_pair (exec_schedClear hc ha) (exec_schedPost ha),
      runCommands_pair (exec_schedPost ha) (exec_schedClear hc ha), ?postWins, ?clearWins⟩⟩
  case commute => rw [runCommands_posts hb ha, BitVec.or_comm]
  case idempotent => simp
  case postWins | clearWins =>
    ext k hk
    cases ha : a[k] <;> simp [ha]

end Sys2Proof.Machine
end

section
/-! The sleep-depth arbiter (41_arbiter.md): the floor and the target, what a block and an unblock count, and who sleeps. -/

namespace Sys2Proof.Machine

/-! The floor and the target -/

/-- 41_arbiter.md R84 and R86: with every counter 0 both are the deepest depth; else the floor is the shallowest depth that is blocked, and
the target the depth before it. -/
theorem State.floor_target_cases {s : State} (hs : s.cnt.length = s.cfg.nDepth) :
    ((∀ d, d < s.cfg.nDepth → s.cntAt d = 0#8) ∧ s.floor = s.cfg.nDepth - 1 ∧ s.target = s.cfg.nDepth - 1) ∨
    (s.floor < s.cfg.nDepth ∧ s.cntAt s.floor ≠ 0#8 ∧ (∀ d, d < s.floor → s.cntAt d = 0#8) ∧ s.target = s.floor - 1) := by
  obtain ⟨hzero, hnone⟩ | ⟨d, hd, hblocked, hleast, hsome⟩ := State.shallowestBlocked_cases hs
  · exact .inl ⟨hzero, by simp [State.floor, hnone], by simp [State.target, hnone]⟩
  · have hfloor : s.floor = d := by simp [State.floor, hsome]
    have htarget : s.target = d - 1 := by simp [State.target, hsome]
    rw [hfloor]
    exact .inr ⟨hd, hblocked, hleast, htarget⟩

theorem State.floor_of_unblocked {s : State} (hs : s.cnt.length = s.cfg.nDepth) (h : ∀ d, d < s.cfg.nDepth → s.cntAt d = 0#8) :
    s.floor = s.cfg.nDepth - 1 := by
  obtain ⟨-, hfloor, -⟩ | ⟨hlt, hblocked, -⟩ := State.floor_target_cases hs
  · exact hfloor
  · exact absurd (h _ hlt) hblocked

/-- Settles O20: every depth shallower than the floor has counter 0. -/
theorem floorIsTheShallowestBlockedDepth : Obligations.FloorIsTheShallowestBlockedDepth := by
  rintro s ⟨hcnt, -⟩
  refine ⟨fun d hd hblocked => ?_, State.floor_of_unblocked hcnt⟩
  obtain ⟨hzero, -⟩ | ⟨-, hfloor, hleast, -⟩ := State.floor_target_cases hcnt
  · exact absurd (hzero d hd) hblocked
  · exact ⟨Nat.le_of_not_lt fun hlt => hblocked (hleast d hlt), hfloor⟩

/-- Settles O21: every depth shallower than the floor has counter 0, and a target other than 0 is one of them. -/
theorem targetIsJustAboveTheFloor : Obligations.TargetIsJustAboveTheFloor := by
  rintro s ⟨hcnt, -⟩
  obtain ⟨hzero, -, htarget⟩ | ⟨hlt, hblocked, hleast, htarget⟩ := State.floor_target_cases hcnt
  · exact ⟨fun _ => htarget, fun ⟨d, hd, hne⟩ => absurd (hzero d hd) hne, fun hpos d hd => hzero d (by omega)⟩
  · exact ⟨fun hall => absurd (hall _ hlt) hblocked, fun _ => by omega, fun hpos d hd => hleast d (by omega)⟩

/-! ARB.BLOCK and ARB.UNBLOCK -/

section BlockUnblock
variable {s : State} {d : Byte}

/-- 41_arbiter.md R82, from either context. -/
theorem exec_arbBlock (hd : d.toNat < s.cfg.nDepth) (hc : (s.cntAt d.toNat).toNat < s.cfg.blockMax) :
    exec (.arbBlock d) s = .next ((s.block d.toNat).completed 0#32) := by
  have hb : commandBody s (.arbBlock d) = .ok ((s.block d.toNat).respond 0#32) := by
    simp [commandBody, arbBlockBody, Nat.not_le_of_lt hd, State.blockFull_eq_false hc]
  exact exec_completed (State.admission_of_allowed rfl rfl) hb

/-- 41_arbiter.md R83, from either context. -/
theorem exec_arbUnblock (hd : d.toNat < s.cfg.nDepth) : exec (.arbUnblock d) s = .next ((s.unblock d.toNat).completed 0#32) := by
  have hb : commandBody s (.arbUnblock d) = .ok ((s.unblock d.toNat).respond 0#32) := by
    simp [commandBody, arbUnblockBody, Nat.not_le_of_lt hd]
  exact exec_completed (State.admission_of_allowed rfl rfl) hb

/-- An admitted command whose rule raises a fault. -/
theorem exec_raises {i : Instr} {f : FaultReport} (ha : s.admission i = none) (hb : commandBody s i = .error f) :
    exec i s = .next (s.raiseFault f) := by
  rw [exec_eq_runCommand, hb, runCommand_error ha]

theorem exec_arbBlock_outOfRange (hd : s.cfg.nDepth ≤ d.toNat) :
    exec (.arbBlock d) s = .next (s.raiseFault (faultHeader .operandRange (Instr.arbBlock d).header)) :=
  exec_raises (State.admission_of_allowed rfl rfl) (by simp [commandBody, arbBlockBody, hd])

theorem exec_arbUnblock_outOfRange (hd : s.cfg.nDepth ≤ d.toNat) :
    exec (.arbUnblock d) s = .next (s.raiseFault (faultHeader .operandRange (Instr.arbUnblock d).header)) :=
  exec_raises (State.admission_of_allowed rfl rfl) (by simp [commandBody, arbUnblockBody, hd])

theorem exec_arbBlock_full (hd : d.toNat < s.cfg.nDepth) (hc : s.cfg.blockMax ≤ (s.cntAt d.toNat).toNat) :
    exec (.arbBlock d) s = .next (s.raiseFault (faultSleepOverflow d.toNat)) :=
  exec_raises (State.admission_of_allowed rfl rfl)
    (by simp [commandBody, arbBlockBody, Nat.not_le_of_lt hd, State.blockFull_eq_true hc])

/-- A block raises a fault, or counts. -/
theorem exec_arbBlock_next {t : State} (h : exec (.arbBlock d) s = .next t) :
    t.faultCode ≠ .noFault ∨
    (d.toNat < s.cfg.nDepth ∧ (s.cntAt d.toNat).toNat < s.cfg.blockMax ∧ t = (s.block d.toNat).completed 0#32) := by
  obtain hd | hd := le_or_gt s.cfg.nDepth d.toNat
  · cases (exec_arbBlock_outOfRange hd).symm.trans h
    exact .inl (by simp [faultHeader])
  · obtain hc | hc := le_or_gt s.cfg.blockMax (s.cntAt d.toNat).toNat
    · cases (exec_arbBlock_full hd hc).symm.trans h
      exact .inl (by simp [faultSleepOverflow])
    · cases (exec_arbBlock hd hc).symm.trans h
      exact .inr ⟨hd, hc, rfl⟩

/-- An unblock raises a fault, or counts. -/
theorem exec_arbUnblock_next {t : State} (h : exec (.arbUnblock d) s = .next t) :
    t.faultCode ≠ .noFault ∨ (d.toNat < s.cfg.nDepth ∧ t = (s.unblock d.toNat).completed 0#32) := by
  obtain hd | hd := le_or_gt s.cfg.nDepth d.toNat
  · cases (exec_arbUnblock_outOfRange hd).symm.trans h
    exact .inl (by simp [faultHeader])
  · cases (exec_arbUnblock hd).symm.trans h
    exact .inr ⟨hd, rfl⟩

end BlockUnblock

/-- 30_encoding.md R59 and R63: the depth is in the low byte of the header. -/
theorem header_arbBlock (d : Byte) : (Instr.arbBlock d).header = 0x11000000#32 ||| d.setWidth 32 := by
  revert d
  decide

theorem header_arbUnblock (d : Byte) : (Instr.arbUnblock d).header = 0x12000000#32 ||| d.setWidth 32 := by
  revert d
  decide

/-- Settles O17: the array has counter `d`, and `State.block_counts`. -/
theorem arbBlockCountsOneMore : Obligations.ArbBlockCountsOneMore := by
  rintro s d hl ⟨hcnt, -⟩ hd hc
  exact ⟨_, exec_arbBlock hd hc, rfl, State.block_counts hl (hcnt ▸ hd) hc rfl⟩

/-- Settles O18: the array has counter `d`, and `State.unblock_counts`. -/
theorem arbUnblockCountsOneLess : Obligations.ArbUnblockCountsOneLess := by
  rintro s d ⟨hcnt, -⟩ hd
  exact ⟨_, exec_arbUnblock hd, s.unblock_eq _, State.unblock_counts (hcnt ▸ hd) rfl⟩

/-- Settles O19: each fault writes the header, or the depth, to the fault register. -/
theorem arbRangeAndOverflowFaults : Obligations.ArbRangeAndOverflowFaults := by
  intro s d
  refine ⟨fun hd => ⟨?_, ?_⟩, fun hd hc => ?_⟩
  · rw [exec_arbBlock_outOfRange hd, State.raiseFault_eq, ← header_arbBlock]
    simp [faultHeader, Instr.header]
  · rw [exec_arbUnblock_outOfRange hd, State.raiseFault_eq, ← header_arbUnblock]
    simp [faultHeader, Instr.header]
  · rw [exec_arbBlock_full hd hc, State.raiseFault_eq]
    simp [faultSleepOverflow]

/-! ARB.ENTER -/

/-- The response and the power-mode transition of ARB.ENTER do not depend on each other. -/
theorem State.respond_sleepAt (s : State) (v : Word) (d : Nat) : (s.respond v).sleepAt d = (s.sleepAt d).respond v := by
  rw [State.sleepAt, State.sleepAt, State.respond_cfg]
  split_ifs <;> rfl

/-- 41_arbiter.md R87. -/
theorem exec_arbEnter {s : State} (hc : s.ctx = .fg) :
    exec .arbEnter s = .next ((s.sleepAt s.target).completed (BitVec.ofNat 32 s.target)) :=
  exec_completed (State.admission_of_fg hc rfl) (congrArg Except.ok (s.respond_sleepAt _ _))

/-- Settles O22: the two branches of the power-mode transition. -/
theorem arbEnterSleepsAtTheTarget : Obligations.ArbEnterSleepsAtTheTarget := by
  intro s hc
  rw [exec_arbEnter hc, State.sleepAt]
  split_ifs <;> rfl

/-! Balanced blocks and unblocks -/

/-- From `s` to `t` the array keeps its shape, and every counter has gone up by the blocks in `is` and down by the unblocks. -/
structure State.CountsBy (s t : State) (is : List Instr) : Prop where
  cfg : t.cfg = s.cfg
  length : t.cnt.length = s.cnt.length
  counts : ∀ d : Byte, (t.cntAt d.toNat).toNat + is.count (.arbUnblock d) = (s.cntAt d.toNat).toNat + is.count (.arbBlock d)

/-- The commands of the arbiter that move one counter. -/
def IsBlockOrUnblock (i : Instr) : Prop := ∃ d, i = .arbBlock d ∨ i = .arbUnblock d

theorem State.CountsBy.cons {s t u : State} {i : Instr} {is : List Instr} (h : s.CountsBy u [i]) (h' : u.CountsBy t is) :
    s.CountsBy t (i :: is) where
  cfg := h'.cfg.trans h.cfg
  length := h'.length.trans h.length
  counts d := by
    have hi := h.counts d
    have his := h'.counts d
    rw [← List.singleton_append, List.count_append, List.count_append]
    omega

theorem State.CountsOneMore.countsBy {s t : State} {d : Byte} (h : s.CountsOneMore t d.toNat) (hcfg : t.cfg = s.cfg)
    (hlen : t.cnt.length = s.cnt.length) : s.CountsBy t [.arbBlock d] where
  cfg := hcfg
  length := hlen
  counts d' := by
    obtain ⟨hsame, hother⟩ := h
    obtain rfl | hne := eq_or_ne d' d
    · simp [hsame]
    · rw [hother d'.toNat (mt BitVec.eq_of_toNat_eq hne)]
      simp [hne.symm]

/-- An unblock of a depth that is blocked gives back one block. -/
theorem State.CountsOneLess.countsBy {s t : State} {d : Byte} (h : s.CountsOneLess t d.toNat) (hcfg : t.cfg = s.cfg)
    (hlen : t.cnt.length = s.cnt.length) (hpos : 1 ≤ (s.cntAt d.toNat).toNat) : s.CountsBy t [.arbUnblock d] where
  cfg := hcfg
  length := hlen
  counts d' := by
    obtain ⟨hsame, hother⟩ := h
    obtain rfl | hne := eq_or_ne d' d
    · simp [hsame, Nat.sub_add_cancel hpos]
    · rw [hother d'.toNat (mt BitVec.eq_of_toNat_eq hne)]
      simp [hne.symm]

theorem State.unblock_cnt_length (s : State) (d : Nat) : (s.unblock d).cnt.length = s.cnt.length := by
  rw [State.unblock_cnt]
  split_ifs <;> simp

/-- One block or unblock without a fault moves its counter, where an unblock finds one. -/
theorem exec_countsBy {i : Instr} {s t : State} (hi : IsBlockOrUnblock i) (hl : s.cfg.legal = true) (hs : s.cnt.length = s.cfg.nDepth)
    (hfound : ∀ d, [i].count (.arbUnblock d) ≤ (s.cntAt d.toNat).toNat) (h : exec i s = .next t) (ht : t.faultCode = .noFault) :
    s.CountsBy t [i] := by
  obtain ⟨d, rfl | rfl⟩ := hi
  · obtain hf | ⟨hd, hc, rfl⟩ := exec_arbBlock_next h
    · exact absurd ht hf
    · have hone : s.CountsOneMore ((s.block d.toNat).completed 0#32) d.toNat := State.block_counts hl (hs ▸ hd) hc rfl
      exact hone.countsBy rfl List.length_set
  · obtain hf | ⟨hd, rfl⟩ := exec_arbUnblock_next h
    · exact absurd ht hf
    · have hone : s.CountsOneLess ((s.unblock d.toNat).completed 0#32) d.toNat := State.unblock_counts (hs ▸ hd) rfl
      exact hone.countsBy (s.unblock_cfg _) (s.unblock_cnt_length _) (by simpa using hfound d)

/-- A block or unblock after a fault leaves a fault in the register. -/
theorem noFault_of_exec {i : Instr} {s t : State} (hi : IsBlockOrUnblock i) (h : exec i s = .next t) (ht : t.faultCode = .noFault) :
    s.faultCode = .noFault := by
  obtain ⟨d, rfl | rfl⟩ := hi
  · obtain hf | ⟨-, -, rfl⟩ := exec_arbBlock_next h
    · exact absurd ht hf
    · exact ht
  · obtain hf | ⟨-, rfl⟩ := exec_arbUnblock_next h
    · exact absurd ht hf
    · exact (s.unblock_faultCode _).symm.trans ht

theorem runCommands_cons_next {i : Instr} {is : List Instr} {s t : State} (h : runCommands (i :: is) s = .next t) :
    ∃ u, exec i s = .next u ∧ runCommands is u = .next t := by
  rw [runCommands] at h
  split at h
  · next u hu => exact ⟨u, hu, h⟩
  · cases h
  · cases h

theorem noFault_of_runCommands {is : List Instr} {s t : State} (his : ∀ i ∈ is, IsBlockOrUnblock i) (h : runCommands is s = .next t)
    (ht : t.faultCode = .noFault) : s.faultCode = .noFault := by
  induction is generalizing s with
  | nil =>
    cases h
    exact ht
  | cons i is ih =>
    obtain ⟨hi, his⟩ := List.forall_mem_cons.1 his
    obtain ⟨u, hu, hrun⟩ := runCommands_cons_next h
    exact noFault_of_exec hi hu (ih his hrun)

/-- A run of blocks and unblocks without a fault, no unblock ahead of the blocks there are, moves every counter by their difference. -/
theorem runCommands_countsBy {is : List Instr} {s t : State} (his : ∀ i ∈ is, IsBlockOrUnblock i) (hl : s.cfg.legal = true)
    (hs : s.cnt.length = s.cfg.nDepth)
    (hahead : ∀ d n, (is.take n).count (.arbUnblock d) ≤ (s.cntAt d.toNat).toNat + (is.take n).count (.arbBlock d))
    (h : runCommands is s = .next t) (ht : t.faultCode = .noFault) : s.CountsBy t is := by
  induction is generalizing s with
  | nil =>
    cases h
    exact ⟨rfl, rfl, fun _ => rfl⟩
  | cons i is ih =>
    obtain ⟨hi, his⟩ := List.forall_mem_cons.1 his
    obtain ⟨u, hu, hrun⟩ := runCommands_cons_next h
    have hfound : ∀ d, [i].count (.arbUnblock d) ≤ (s.cntAt d.toNat).toNat := fun d => by
      have hone := hahead d 1
      obtain ⟨e, rfl | rfl⟩ := hi
      · simp
      · simpa using hone
    have hstep : s.CountsBy u [i] := exec_countsBy hi hl hs hfound hu (noFault_of_runCommands his hrun ht)
    refine hstep.cons (ih his (hstep.cfg ▸ hl) ?_ (fun d n => ?_) hrun)
    · rw [hstep.length, hs, hstep.cfg]
    · have hcounts := hstep.counts d
      have hnext := hahead d (n + 1)
      rw [List.take_succ_cons, ← List.singleton_append, List.count_append, List.count_append] at hnext
      omega

/-- Settles O23: `runCommands_countsBy` from counters 0, with as many unblocks as blocks. -/
theorem balancedBlocksLeaveNothingBlocked : Obligations.BalancedBlocksLeaveNothingBlocked := by
  rintro s t is hl ⟨hs, -⟩ hzero his hbalanced hahead h ht
  have hfrom : ∀ d, s.cntAt d = 0#8 := forall_getD hzero rfl
  obtain ⟨hcfg, hlen, hcounts⟩ :=
    runCommands_countsBy his hl hs (fun d n => (hahead d n).trans (Nat.le_add_left _ _)) h ht
  have hshape : t.cnt.length = t.cfg.nDepth := by rw [hlen, hs, hcfg]
  have hto : ∀ d, d < t.cfg.nDepth → t.cntAt d = 0#8 := fun d hd => by
    obtain ⟨-, -, hdepths, -⟩ := Params.legal_bounds hl
    have hbyte : (BitVec.ofNat 8 d).toNat = d := by
      rw [BitVec.toNat_ofNat, Nat.mod_eq_of_lt (by rw [hcfg] at hd; omega)]
    have hd := hcounts (BitVec.ofNat 8 d)
    rw [hbyte, hfrom, hbalanced] at hd
    exact BitVec.eq_of_toNat_eq (Nat.add_right_cancel hd)
  refine ⟨fun c hc => ?_, State.floor_of_unblocked hshape hto⟩
  obtain ⟨d, hd, rfl⟩ := List.mem_iff_getElem.1 hc
  simpa [State.cntAt, hd] using hto d (hshape ▸ hd)

/-! Who puts the foreground to sleep -/

@[simp] theorem serEffects_fgAsleep (p : Nat) (bytes : List Byte) (s : State) : (serEffects p bytes s).fgAsleep = s.fgAsleep := rfl

theorem arbBlockBody_fgAsleep {h : Word} {d : Nat} {s t : State} (ht : arbBlockBody h d s = .ok t) : t.fgAsleep = s.fgAsleep := by
  unfold arbBlockBody at ht
  split_ifs at ht
  cases ht
  simp

theorem arbUnblockBody_fgAsleep {h : Word} {d : Nat} {s t : State} (ht : arbUnblockBody h d s = .ok t) :
    t.fgAsleep = s.fgAsleep := by
  unfold arbUnblockBody at ht
  split_ifs at ht
  cases ht
  simp

theorem busStartBody_fgAsleep {h : Word} {p : Nat} {addr : BitVec 7} {cmd : Byte} {dir : Dir} {count : BitVec 4} {dest ev : Word}
    {s t : State} (ht : busStartBody h p addr cmd dir count dest ev s = .ok t) : t.fgAsleep = s.fgAsleep := by
  unfold busStartBody at ht
  simp only at ht
  split_ifs at ht
  cases ht
  simp

@[simp] theorem busResetBody_fgAsleep (p : Nat) (s : State) : (busResetBody p s).fgAsleep = s.fgAsleep := by
  simp [busResetBody]

theorem serStartBody_fgAsleep {p : Nat} {bytes : List Byte} {s t : State} (ht : serStartBody p bytes s = .ok t) :
    t.fgAsleep = s.fgAsleep := by
  unfold serStartBody at ht
  split_ifs at ht
  · cases ht
    rfl
  · obtain ⟨-, hb⟩ | ⟨-, hb⟩ := serBegin_cases p bytes s <;> rw [hb] at ht <;> cases ht
    simp

theorem qPushBody_fgAsleep {q : Nat} {payload : List Byte} {s t : State} (ht : qPushBody q payload s = .ok t) :
    t.fgAsleep = s.fgAsleep := by
  unfold qPushBody at ht
  split_ifs at ht
  cases ht
  simp

theorem qPopFrame_fgAsleep {q : Nat} {diag : Bool} {lb : Nat} {s t : State} (ht : qPopFrame q diag lb s = .ok t) :
    t.fgAsleep = s.fgAsleep := by
  unfold qPopFrame at ht
  cases diag
  all_goals
    simp only at ht
    split_ifs at ht
    cases ht
    simp

theorem qPopBody_fgAsleep {q : Nat} {diag : Bool} {s t : State} (ht : qPopBody q diag s = .ok t) : t.fgAsleep = s.fgAsleep := by
  unfold qPopBody at ht
  simp only at ht
  split_ifs at ht
  · cases ht
    simp
  · exact qPopFrame_fgAsleep ht

/-- The rule of every other command leaves the foreground as it is, awake or asleep. -/
theorem commandBody_fgAsleep {i : Instr} {s t : State} (hi : i ≠ .arbEnter) (h : commandBody s i = .ok t) :
    t.fgAsleep = s.fgAsleep := by
  cases i with
  | arbEnter => exact absurd rfl hi
  | arbBlock => exact arbBlockBody_fgAsleep h
  | arbUnblock => exact arbUnblockBody_fgAsleep h
  | busStart => exact busStartBody_fgAsleep h
  | serStart => exact serStartBody_fgAsleep h
  | qPush => exact qPushBody_fgAsleep h
  | qPop => exact qPopBody_fgAsleep h
  | schedOpen | schedPost | schedClear | schedPoll | arbOpen | arbFloor | busBusy | busReset | serBusy | qOpen | qFree =>
    cases h
    simp

/-- 41_arbiter.md R87: a command that puts the foreground to sleep is ARB.ENTER, which only the foreground may issue. -/
theorem exec_sleeps {i : Instr} {s t : State} (h : exec i s = .next t) (hs : s.fgAsleep = false) (ht : t.fgAsleep = true) :
    i = .arbEnter ∧ s.ctx = .fg := by
  rw [exec_eq_runCommand] at h
  obtain ⟨f, -, hr⟩ | ⟨f, -, -, hr⟩ | ⟨u, hadm, hu, hr⟩ := runCommand_cases i s (commandBody s i) <;> rw [hr] at h <;> cases h
  · exact absurd (hs.symm.trans ht) Bool.false_ne_true
  · exact absurd (hs.symm.trans ht) Bool.false_ne_true
  · rw [State.endCommand_fgAsleep, Bool.and_eq_true] at ht
    obtain ⟨hasleep, -⟩ := ht
    have hi : i = .arbEnter := by
      by_contra hi
      have hkept := commandBody_fgAsleep hi hu
      simp [hs, hasleep] at hkept
    exact ⟨hi, State.ctx_fg_of_admission hadm (hi ▸ rfl)⟩

theorem commandStep_sleeps {c : Ctx} {s t : State} (h : commandStep c s = .next t) (hs : s.fgAsleep = false) (ht : t.fgAsleep = true) :
    c = .fg ∧ ∃ rest, decode s.cfg.evtW (s.portWords c) = .ok (.arbEnter, rest) := by
  unfold commandStep at h
  split at h
  · cases h
    exact absurd (hs.symm.trans ht) Bool.false_ne_true
  · cases h
    exact absurd (hs.symm.trans ht) Bool.false_ne_true
  · next i u hf =>
    obtain ⟨-, rest, hd, rfl⟩ := fetchCommand_command hf
    obtain ⟨rfl, hc⟩ := exec_sleeps h ((s.takeFrom_fgAsleep c rest).trans hs) ht
    exact ⟨(s.takeFrom_ctx c rest).symm.trans hc, rest, hd⟩

/-- 60_exceptions.md R140: a handler wakes the foreground; a fault of its transition leaves it as it was. -/
theorem finishHandler_asleep {s t : State} {r : Result} (h : finishHandler s r = .next t) (ht : t.fgAsleep = true) :
    s.fgAsleep = true := by
  obtain ⟨u, -, rfl⟩ | ⟨f, -, rfl⟩ := finishHandler_next h
  · exact absurd ht Bool.false_ne_true
  · exact ht

theorem busHandler_asleep {p : Nat} {k : BusFlag} {s t : State} (h : busHandler p k s = .next t) (ht : t.fgAsleep = true) :
    s.fgAsleep = true := by
  unfold busHandler at h
  split at h
  · exact finishHandler_asleep h ht
  · cases h
    exact ht

theorem serHandler_asleep {p : Nat} {k : SerFlag} {s t : State} (h : serHandler p k s = .next t) (ht : t.fgAsleep = true) :
    s.fgAsleep = true := by
  unfold serHandler at h
  split at h
  · exact finishHandler_asleep h ht
  · cases h
    exact ht

theorem applyEvent_fgAsleep (e : Event) (s : State) : (applyEvent e s).fgAsleep = s.fgAsleep := by
  cases e <;> rfl

theorem eventStep_fgAsleep {s t : State} (h : eventStep s = .next t) : t.fgAsleep = s.fgAsleep := by
  unfold eventStep at h
  split at h
  · cases h
    rfl
  · split at h <;> cases h
    exact applyEvent_fgAsleep _ _

theorem serStartCompletion_fgAsleep (p : Nat) (bytes : List Byte) (s : State) :
    (serStartCompletion p bytes s).fgAsleep = s.fgAsleep := by
  unfold serStartCompletion
  obtain ⟨-, hb⟩ | ⟨-, hb⟩ := serBegin_cases p bytes s <;> rw [hb] <;> rfl

theorem completionStep_fgAsleep (s : State) : (completionStep s).fgAsleep = s.fgAsleep := by
  unfold completionStep
  split
  · rfl
  · split_ifs
    · rfl
    · exact serStartCompletion_fgAsleep _ _ s
  · split_ifs <;> rfl

theorem hostStoreStep_fgAsleep (s : State) : (hostStoreStep s).fgAsleep = s.fgAsleep := by
  unfold hostStoreStep
  split
  · rfl
  · split_ifs <;> rfl

/-- Of all moves only a command step of the foreground, with ARB.ENTER at its port, puts the foreground to sleep. -/
theorem moveStep_sleeps {m : Move} {s t : State} (h : moveStep m s = .next t) (hs : s.fgAsleep = false) (ht : t.fgAsleep = true) :
    m = .command .fg ∧ ∃ rest, decode s.cfg.evtW s.fgPort = .ok (.arbEnter, rest) := by
  have hkept : ¬t.fgAsleep = s.fgAsleep := by simp [hs, ht]
  cases m with
  | command c =>
    obtain ⟨rfl, hd⟩ := commandStep_sleeps h hs ht
    exact ⟨rfl, hd⟩
  | event => exact absurd (eventStep_fgAsleep h) hkept
  | busHandler p k => exact absurd (ht.trans (busHandler_asleep h ht).symm) hkept
  | serHandler p k => exact absurd (ht.trans (serHandler_asleep h ht).symm) hkept
  | completion =>
    cases h
    exact absurd (completionStep_fgAsleep s) hkept
  | hostStore =>
    cases h
    exact absurd (hostStoreStep_fgAsleep s) hkept

/-- Settles O55: a machine at rest stays awake; any other step is the move it names. -/
theorem onlyEnterSleeps : Obligations.OnlyEnterSleeps := by
  intro s t h hs ht
  obtain ⟨-, ⟨-, rfl⟩ | ⟨m, rest, hm, hmove⟩⟩ := step_next h
  · exact absurd (hs.symm.trans ht) Bool.false_ne_true
  · obtain ⟨rfl, hd⟩ := moveStep_sleeps hmove hs ht
    exact ⟨by rw [hm]; rfl, hd⟩

end Sys2Proof.Machine
end

section
/-! The commands of the bus master engine (42_bus_master.md): what BUS.START begins and when it refuses, and BUS.RESET with its
completion. -/

namespace Sys2Proof.Machine

theorem State.otherBusesKept_setBus (s : State) (p : Nat) (u : BusUnit) : s.OtherBusesKept (s.setBus p u) p :=
  ⟨List.length_set, fun _ h => State.busAt_setBus_other h⟩

/-! BUS.START -/

/-- The effects of an accepted BUS.START, without its response (42_bus_master.md R94). -/
def busStartEffects (p : Nat) (addr : BitVec 7) (cmd : Byte) (dest ev : Word) (s : State) : State :=
  ((((s.block s.cfg.busDepth).setBus p ((s.busAt p).start addr cmd .read 2#4 dest ev)).emit (.busAutoackOff p)).emit
    (.busTxdata p (addressByte addr 0#1))).emit (.busStart p)

theorem busStartBody_ok {h : Word} {p : Nat} {addr : BitVec 7} {cmd : Byte} {dest ev : Word} {s : State}
    (hfree : (s.busAt p).busBusy = false) (hidle : (s.busAt p).bpidle = true) (heven : dest.getLsbD 0 = false)
    (hadm : s.cfg.admits dest 2 = true) (hfull : s.blockFull s.cfg.busDepth = false) :
    busStartBody h p addr cmd .read 2#4 dest ev s = .ok ((busStartEffects p addr cmd dest ev s).respond 0#32) := by
  have hlow : dest[0] = false := heven
  simp [busStartBody, busStartEffects, hfree, hidle, hlow, hadm, hfull]

/-- 42_bus_master.md R94: one engine, the counters and the action trace are written. -/
theorem busStartEffects_eq (p : Nat) (addr : BitVec 7) (cmd : Byte) (dest ev : Word) (s : State) :
    busStartEffects p addr cmd dest ev s = { s.setBus p ((s.busAt p).start addr cmd .read 2#4 dest ev) with
      cnt := (s.block s.cfg.busDepth).cnt
      act := s.act ++ [.busAutoackOff p, .busTxdata p (addr ++ 0#1), .busStart p] } := by
  simp [busStartEffects, State.emit, State.setBus, State.block, addressByte]

/-- Settles O24: the machine has the engine and the counter, and both have room. -/
theorem busStartBeginsATransaction : Obligations.BusStartBeginsATransaction := by
  rintro s p addr cmd dest ev hc hl ⟨hcnt, hbus, -⟩ hp hfree hidle heven hadm hev hroom
  have hb : commandBody s (.busStart p addr cmd .read 2#4 dest ev)
      = .ok ((busStartEffects p.toNat addr cmd dest (s.eventMask ev) s).respond 0#32) :=
    busStartBody_ok hfree hidle heven hadm (State.blockFull_eq_false hroom)
  rw [State.eventMask_of_fitsIn hev, busStartEffects_eq] at hb
  obtain ⟨-, -, -, -, hdepth, -⟩ := Params.legal_bounds hl
  exact ⟨_, exec_completed (State.admission_of_fg hc (decide_eq_true hp)) hb, rfl, State.busAt_setBus_same (hbus ▸ hp),
    s.otherBusesKept_setBus _ _, State.block_counts hl (hcnt ▸ hdepth) hroom rfl, rfl⟩

/-- A fault of BUS.START that records its header names unit 2 and the engine (60_exceptions.md R132). -/
theorem faultHeader_busStart (code : FaultCode) (p : BitVec 4) (addr : BitVec 7) (cmd : Byte) (dir : Dir) (count : BitVec 4)
    (dest ev : Word) :
    faultHeader code (Instr.busStart p addr cmd dir count dest ev).header
      = ⟨code, 2#4, p, (Instr.busStart p addr cmd dir count dest ev).header⟩ := by
  simp [faultHeader, Instr.header]

/-- Settles O25: the checks of the rule in their order, each with its fault. -/
theorem busStartFaultsInOrder : Obligations.BusStartFaultsInOrder := by
  intro s p addr cmd dir count dest ev hc hp
  have hadm : s.admission (.busStart p addr cmd dir count dest ev) = none := State.admission_of_fg hc (decide_eq_true hp)
  split_ifs with hbusy hsupp hdest
  · rw [exec_raises hadm (if_pos hbusy), faultHeader_busStart, State.raiseFault_eq]
  · rw [exec_raises hadm ((if_neg hbusy).trans (if_pos hsupp)), faultHeader_busStart, State.raiseFault_eq]
  · rw [exec_raises hadm ((if_neg hbusy).trans ((if_neg hsupp).trans (if_pos hdest))), State.raiseFault_eq]
    simp [faultInfoOf]
  · intro hroom
    rw [exec_raises hadm ((if_neg hbusy).trans ((if_neg hsupp).trans ((if_neg hdest).trans (if_pos (State.blockFull_eq_true hroom))))),
      State.raiseFault_eq]
    simp [faultSleepOverflow]

/-! BUS.RESET -/

theorem State.endCommand_of_fg {s : State} (hc : s.ctx = .fg) : s.endCommand = s := by
  simp [State.endCommand, hc]

/-- 42_bus_master.md R97: one engine, the action trace and the hold are written. -/
theorem busResetBody_eq (p : Nat) (s : State) : busResetBody p s = { s with
    bus := s.bus.set p { s.busAt p with bienSave := (s.busAt p).bien, bien := 0#4 }
    act := s.act ++ [.busAbort p, .busCleartx p, .busStart p, .busStop p]
    fgHeld := .busReset p } := by
  simp [busResetBody, State.emit, State.setBus]

/-- 42_bus_master.md R97, from the foreground. -/
theorem exec_busReset {s : State} {p : BitVec 4} (hc : s.ctx = .fg) (hp : p.toNat < s.cfg.nBus) :
    exec (.busReset p) s = .next (busResetBody p.toNat s) := by
  have hb : commandBody s (.busReset p) = .ok (busResetBody p.toNat s) := rfl
  have hadm : s.admission (.busReset p) = none := State.admission_of_fg hc (decide_eq_true hp)
  have hfg : (busResetBody p.toNat s).ctx = .fg := by rw [busResetBody_eq]; exact hc
  rw [exec_eq_runCommand, hb, runCommand_ok hadm, State.endCommand_of_fg hfg]

/-- Settles O26: the command writes one engine, the action trace and the hold. -/
theorem busResetHolds : Obligations.BusResetHolds := by
  rintro s p hc ⟨-, hbus, -⟩ hp
  refine ⟨_, exec_busReset hc hp, ?_⟩
  rw [busResetBody_eq]
  exact ⟨rfl, State.busAt_setBus_same (hbus ▸ hp), s.otherBusesKept_setBus _ _⟩

/-- Settles O27: the completion step looks at the stop-complete flag alone. -/
theorem busResetCompletes : Obligations.BusResetCompletes := by
  intro s p ms hh hm hheld hp
  have hstep : step s = .next (if s.busResetDone p then busResetCompletion p { s with moves := ms } else { s with moves := ms }) := by
    rw [step_move hh hm]
    simp only [moveStep, completionStep, hheld]
    rfl
  refine ⟨fun hclear => ?_, fun hraised => ?_⟩
  · have hdone : s.busResetDone p = false := hclear
    simp [hstep, hdone]
  · have hdone : s.busResetDone p = true := hraised
    rw [hstep, if_pos hdone]
    rfl

end Sys2Proof.Machine
end

section
/-! The handler steps of the bus master engine (42_bus_master.md): what each pair of R99 leaves, and the fault of every other. -/

namespace Sys2Proof.Machine

/-! The destination word -/

/-- The two bytes of a word at address `a`, the low-order byte first (20_memory.md R41). -/
def Memory.writeWord (m : List Host.Cell) (a : Nat) (lo hi : Byte) : List Host.Cell :=
  Memory.write (Memory.write m a lo) (a + 1) hi

theorem Memory.read_writeWord_low {m : List Host.Cell} {a : Nat} {lo hi : Byte} (hm : Memory.wf m = true) :
    Memory.read (Memory.writeWord m a lo hi) a = lo :=
  (Memory.read_write_other (Nat.ne_of_lt a.lt_succ_self)).trans (Memory.read_write hm)

theorem Memory.read_writeWord_high {m : List Host.Cell} {a : Nat} {lo hi : Byte} (hm : Memory.wf m = true) (ha : a < 2 ^ 32) :
    Memory.read (Memory.writeWord m a lo hi) (a + 1) = hi :=
  Memory.read_write (Memory.wf_write hm ha)

theorem Memory.read_writeWord_other {m : List Host.Cell} {a a' : Nat} {lo hi : Byte} (hlow : a' ≠ a) (hhigh : a' ≠ a + 1) :
    Memory.read (Memory.writeWord m a lo hi) a' = Memory.read m a' :=
  (Memory.read_write_other hhigh).trans (Memory.read_write_other hlow)

theorem Memory.wf_writeWord {m : List Host.Cell} {a : Nat} {lo hi : Byte} (hm : Memory.wf m = true) (ha : a + 1 < 2 ^ 32) :
    Memory.wf (Memory.writeWord m a lo hi) = true :=
  Memory.wf_write (Memory.wf_write hm (Nat.lt_of_succ_lt ha)) ha

/-- 20_memory.md R41, the word given as its two bytes. -/
theorem State.memWrite_bytes {s : State} {addr : Word} (h : s.cfg.admits addr 2 = true) (lo hi : Byte) :
    s.memWrite addr (hi ++ lo) = some { s with dmem := Memory.writeWord s.dmem addr.toNat lo hi } := by
  have hlo : (hi ++ lo).extractLsb' 0 8 = lo := BitVec.extractLsb'_append_eq_right
  have hhi : (hi ++ lo).extractLsb' 8 8 = hi := BitVec.extractLsb'_append_eq_left
  rw [State.memWrite, if_pos h, hlo, hhi, Memory.writeWord]

/-- 20_memory.md R40. -/
theorem State.memRead_bytes {s : State} {addr : Word} (h : s.cfg.admits addr 2 = true) :
    s.memRead addr = some (Memory.read s.dmem (addr.toNat + 1) ++ Memory.read s.dmem addr.toNat) :=
  if_pos h

/-- 42_bus_master.md R104: the first byte is the high-order byte of the word, the low-order byte 0. -/
theorem setWidth_shiftLeft_eq_append (b : Byte) : b.setWidth 16 <<< 8 = b ++ 0#8 := by
  revert b
  decide

/-- 42_bus_master.md R105: the second byte reaches the low-order byte of the word only. -/
theorem append_or_setWidth (hi lo b : Byte) : (hi ++ lo) ||| b.setWidth 16 = hi ++ (lo ||| b) := by
  have hb : b.setWidth 16 = 0#8 ++ b := BitVec.setWidth_eq_append (by decide)
  rw [hb, BitVec.or_append, BitVec.or_zero]

/-! What a handler step leaves, for each pair of R99: `v` is the engine with its flag cleared, `w` the state before the step -/

theorem busHandler_of_enabled {s : State} {p : Nat} {k : BusFlag} (hf : (s.busAt p).bifReg.getLsbD k.bit = true)
    (he : (s.busAt p).bien.getLsbD k.bit = true) :
    busHandler p k s = finishHandler s (busTransition p k (s.setBus p ((s.busAt p).clearFlag k))) := by
  simp [busHandler, BusUnit.enabled, hf, he]

theorem State.unblock_setBus (s : State) (p : Nat) (u : BusUnit) (d : Nat) : (s.setBus p u).unblock d = (s.unblock d).setBus p u := by
  have hc : (s.setBus p u).cntAt d = s.cntAt d := rfl
  unfold State.unblock
  rw [hc]
  split_ifs <;> rfl

section Transitions
variable {s : State} {p : Nat} (w : State) (v : BusUnit)

/-- 42_bus_master.md R100. -/
theorem finish_ack_initSendAddr (hp : p < s.bus.length) (hst : v.busState = .initSendAddr) :
    finishHandler w (busTransition p .ack (s.setBus p v))
      = .next (s.afterBusHandler p { v with busState := .sendCommand } [.busTxdata p v.recCmd]) := by
  simp only [busTransition, busSendCommand, State.busAt_setBus_same hp, hst]
  simp [finishHandler, State.afterBusHandler, State.emit, State.setBus]

/-- 42_bus_master.md R101. -/
theorem finish_ack_sendCommand (hp : p < s.bus.length) (hst : v.busState = .sendCommand) :
    finishHandler w (busTransition p .ack (s.setBus p v))
      = .next (s.afterBusHandler p { v with busState := .sendRptStartAddr } [.busStart p, .busTxdata p (v.recAddr ++ 1#1)]) := by
  simp only [busTransition, busRepeatedStart, State.busAt_setBus_same hp, hst]
  simp [finishHandler, State.afterBusHandler, State.emitRepeatedStart, State.emit, State.setBus, addressByte]

/-- 42_bus_master.md R103. -/
theorem finish_ack_sendRptStartAddr (hp : p < s.bus.length) (hst : v.busState = .sendRptStartAddr) :
    finishHandler w (busTransition p .ack (s.setBus p v))
      = .next (s.afterBusHandler p { v with bien := v.bien ||| 0b0100#4, busState := .readMsByte } []) := by
  simp only [busTransition, busEnableReceive, State.busAt_setBus_same hp, hst]
  simp [finishHandler, State.afterBusHandler, State.setBus, BusUnit.enableFlag, setBit, BusFlag.bit]

/-- 42_bus_master.md R102, below the limit. -/
theorem finish_nack_retry (hp : p < s.bus.length) (hst : v.busState = .sendRptStartAddr)
    (hl : retriesExhausted s.cfg.rptNackLimit v.nackCnt = false) :
    finishHandler w (busTransition p .nack (s.setBus p v))
      = .next (s.afterBusHandler p { v with nackCnt := nackCount v.nackCnt } [.busStart p, .busTxdata p (v.recAddr ++ 1#1)]) := by
  simp only [busTransition, busRetry, State.busAt_setBus_same hp, hst, State.setBus_cfg, hl, Bool.false_eq_true, if_false]
  simp [finishHandler, State.afterBusHandler, State.emitRepeatedStart, State.emit, State.setBus, addressByte]

/-- 42_bus_master.md R102, at the limit. -/
theorem finish_nack_exhausted (hp : p < s.bus.length) (hst : v.busState = .sendRptStartAddr)
    (hl : retriesExhausted s.cfg.rptNackLimit v.nackCnt = true) :
    finishHandler w (busTransition p .nack (s.setBus p v))
      = .next (w.withFault .busRetryExhausted 2#4 (BitVec.ofNat 4 p) v.nackCnt) := by
  simp only [busTransition, busRetry, State.busAt_setBus_same hp, hst, State.setBus_cfg, hl, if_true]
  simp [finishHandler, State.raiseFault_eq, faultInfoOf]

/-- 42_bus_master.md R104. -/
theorem finish_rxdatav_readMsByte (hp : p < s.bus.length) (hst : v.busState = .readMsByte)
    (hadm : s.cfg.admits v.recDest 2 = true) :
    finishHandler w (busTransition p .rxdatav (s.setBus p v))
      = .next { s.afterBusHandler p { v with busState := .readLs } [.busAck p] with
          dmem := Memory.writeWord s.dmem v.recDest.toNat 0#8 v.brxdata } := by
  have hw := State.memWrite_bytes (s := s.setBus p v) hadm 0#8 v.brxdata
  simp only [busTransition, busStoreHigh, State.busAt_setBus_same hp, hst, setWidth_shiftLeft_eq_append, hw]
  simp [finishHandler, State.afterBusHandler, State.emit, State.setBus]

/-- 42_bus_master.md R105. -/
theorem finish_rxdatav_readLs (hp : p < s.bus.length) (hst : v.busState = .readLs) (hadm : s.cfg.admits v.recDest 2 = true) :
    finishHandler w (busTransition p .rxdatav (s.setBus p v))
      = .next { s.afterBusHandler p { v with busState := .stopEnd } [.busNack p, .busStop p] with
          dmem := Memory.writeWord s.dmem v.recDest.toNat (Memory.read s.dmem v.recDest.toNat ||| v.brxdata)
            (Memory.read s.dmem (v.recDest.toNat + 1)) } := by
  have hr := State.memRead_bytes (s := s.setBus p v) hadm
  have hw := State.memWrite_bytes (s := s.setBus p v) hadm
  simp only [busTransition, busMergeLow, State.busAt_setBus_same hp, hst, hr, append_or_setWidth, hw]
  simp [finishHandler, State.afterBusHandler, State.emit, State.setBus]

/-- 42_bus_master.md R106. -/
theorem finish_mstop_stopEnd (hp : p < s.bus.length) (hst : v.busState = .stopEnd) :
    finishHandler w (busTransition p .mstop (s.setBus p v))
      = .next { s.afterBusHandler p { v with busBusy := false, busState := .initSendAddr } [] with
          cnt := (s.unblock s.cfg.busDepth).cnt, pending := s.pending ||| v.recEvt } := by
  simp only [busTransition, busFinish, State.busAt_setBus_same hp, hst]
  rw [State.setBus_cfg, State.unblock_setBus]
  simp [finishHandler, State.afterBusHandler, State.post, State.setBus]

/-- 42_bus_master.md R107. -/
theorem busTransition_unexpected {k : BusFlag} (h : ((s.busAt p).busState, k) ∉ busExpected) :
    busTransition p k s = .raised (faultBusProtocol p k (s.busAt p).busState) := by
  unfold busTransition
  split
  case h_8 => rfl
  all_goals
    next hst => exact absurd (by simp [hst, busExpected]) h

end Transitions

/-! The limit of refusals and the cause of a protocol fault as numbers -/

theorem retriesExhausted_eq_false {limit : Option Nat} {c : Word} (h : ∀ n, limit = some n → c.toNat < n) :
    retriesExhausted limit c = false := by
  cases limit with
  | none => rfl
  | some n => simpa [retriesExhausted] using h n rfl

theorem retriesExhausted_eq_true {limit : Option Nat} {n : Nat} {c : Word} (hn : limit = some n) (hc : n ≤ c.toNat) :
    retriesExhausted limit c = true := by
  simp [retriesExhausted, hn, hc]

/-- 42_bus_master.md R102: the count saturates. -/
theorem nackCount_toNat (c : Word) : (nackCount c).toNat = min (c.toNat + 1) (2 ^ 32 - 1) := by
  unfold nackCount
  split_ifs <;> bv_omega

/-- 60_exceptions.md R132. -/
theorem protocolInfo_bus (k : BusFlag) (st : BusState) :
    protocolInfo k.bit (st.code.setWidth 8) = BitVec.ofNat 32 (256 * k.bit + st.code.toNat) := by
  cases k <;> cases st <;> rfl

/-! The statements of 42_bus_master.md -/

/-- Settles O28: each acknowledge is serviced with its flag cleared. -/
theorem busAckTransitions : Obligations.BusAckTransitions := by
  intro s p hp hf he
  have hclear : (s.busAt p).clearFlag .ack = { s.busAt p with bifReg := (s.busAt p).bifReg &&& 0b1110#4 } := rfl
  rw [busHandler_of_enabled (k := .ack) hf he, hclear]
  exact ⟨fun hst => finish_ack_initSendAddr s _ hp hst, fun hst => finish_ack_sendCommand s _ hp hst,
    fun hst => finish_ack_sendRptStartAddr s _ hp hst⟩

/-- Settles O29: the limit decides between the retry and the fault. -/
theorem busNackRetriesTheRepeatedStart : Obligations.BusNackRetriesTheRepeatedStart := by
  intro s p hp hf he hst
  rw [busHandler_of_enabled (k := .nack) hf he]
  refine ⟨fun hl => ⟨_, nackCount_toNat _, finish_nack_retry s _ hp hst (retriesExhausted_eq_false hl)⟩, fun n hn hc => ?_⟩
  exact finish_nack_exhausted s _ hp hst (retriesExhausted_eq_true hn hc)

/-- Settles O30: each byte is stored with its word, and the memory in canonical form reads back what was stored. -/
theorem busDataBytesReachTheWord : Obligations.BusDataBytesReachTheWord := by
  intro s p hl hm hp hf he hadm
  have hin := Params.admits_lt (Params.legal_map hl) hadm
  rw [busHandler_of_enabled (k := .rxdatav) hf he]
  refine ⟨fun hst => ⟨_, finish_rxdatav_readMsByte s _ hp hst hadm, ?_, ?_, ?_⟩,
    fun hst => ⟨_, finish_rxdatav_readLs s _ hp hst hadm, ?_, ?_⟩⟩
  · exact Memory.read_writeWord_low hm
  · exact Memory.read_writeWord_high hm (by omega)
  · exact fun a => Memory.read_writeWord_other
  · exact Memory.read_writeWord_low hm
  · intro a hlow
    obtain rfl | hhigh := eq_or_ne a ((s.busAt p).recDest.toNat + 1)
    · exact Memory.read_writeWord_high hm (by omega)
    · exact Memory.read_writeWord_other hlow hhigh

/-- Settles O31: the counters are those after one unblock of the dedicated depth. -/
theorem busStopFinishesTheTransaction : Obligations.BusStopFinishesTheTransaction := by
  rintro s p hl ⟨hcnt, -⟩ hp hf he hst
  obtain ⟨-, -, -, -, hdepth, -⟩ := Params.legal_bounds hl
  rw [busHandler_of_enabled (k := .mstop) hf he]
  exact ⟨_, finish_mstop_stopEnd s _ hp hst, rfl, State.unblock_counts (hcnt ▸ hdepth) rfl⟩

/-- Settles O32: clearing the flag leaves the tag, and the fault discards the clearing. -/
theorem busProtocolFaults : Obligations.BusProtocolFaults := by
  intro s p k hf he hk
  have hp : p < s.bus.length := State.enabled_bus_lt (k := k) (by simp [BusUnit.enabled, hf, he])
  have hst : ((s.setBus p ((s.busAt p).clearFlag k)).busAt p).busState = (s.busAt p).busState := by
    rw [State.busAt_setBus_same hp]
    rfl
  rw [busHandler_of_enabled hf he, busTransition_unexpected (hst ▸ hk), hst, ← protocolInfo_bus]
  rfl

end Sys2Proof.Machine
end

section
/-! A read transaction from its first acknowledge to its end (42_bus_master.md R108): each event is serviced as it is raised, so the run is
a chain of services, one per event. -/

namespace Sys2Proof.Machine

/-! Runs -/

theorem run_add {M : Host.Core} {m n : Nat} {s t : M.State} (h : M.run m s = .next t) : M.run (m + n) s = M.run n t := by
  induction m generalizing s with
  | zero =>
    cases h
    rw [Nat.zero_add]
  | succ m ih =>
    rw [Nat.add_right_comm, Host.Core.run]
    rw [Host.Core.run] at h
    split at h
    · exact ih h
    · cases h
    · cases h

theorem run_one {M : Host.Core} (s : M.State) : M.run 1 s = M.step s := by
  rw [Host.Core.run]
  cases M.step s <;> rfl

theorem run_two {s t : State} (h : step s = .next t) : core.run 2 s = step t :=
  (run_add (M := core) (m := 1) ((run_one (M := core) s).trans h)).trans (run_one (M := core) t)

/-! The state amid a transaction -/

/-- `s` after handler steps of bus engine `p` that left the engine `u` and host memory `m` and appended the actions `acts`. -/
def State.amid (s : State) (p : Nat) (u : BusUnit) (acts : List Action) (m : List Host.Cell) : State :=
  { s.afterBusHandler p u acts with dmem := m }

theorem State.busAt_amid {s : State} {p : Nat} {u : BusUnit} {acts : List Action} {m : List Host.Cell} (hp : p < s.bus.length) :
    (s.amid p u acts m).busAt p = u :=
  State.busAt_setBus_same hp

/-- One more handler step of the engine. -/
theorem State.amid_amid (s : State) (p : Nat) (u v : BusUnit) (as bs : List Action) (m m' : List Host.Cell) :
    (s.amid p u as m).amid p v bs m' = s.amid p v (as ++ bs) m' := by
  simp [State.amid, State.afterBusHandler]

/-! One event and its service -/

/-- The event that raises flag `k` of engine `p`, with the byte `b` where it carries one (30_encoding.md R67). -/
def busEvent (p : BitVec 4) (b : Byte) : BusFlag → Event
  | .ack => .busAck p
  | .nack => .busNack p
  | .rxdatav => .busRx p b
  | .mstop => .busMstop p

/-- The engine with the byte of an event received, before its flag is raised. -/
def BusUnit.receive (u : BusUnit) (b : Byte) : BusFlag → BusUnit
  | .rxdatav => { u with brxdata := b }
  | .ack | .nack | .mstop => u

theorem applyEvent_busEvent (p : BitVec 4) (b : Byte) (k : BusFlag) (s : State) :
    applyEvent (busEvent p b k) s = s.setBus p.toNat (((s.busAt p.toNat).receive b k).raiseFlag k) := by
  cases k <;> rfl

theorem decodeEvent_busEvent {c : Params} {p : BitVec 4} (hp : p.toNat < c.nBus) (b : Byte) (k : BusFlag) :
    decodeEvent c (encodeEvent (busEvent p b k)) = some (busEvent p b k) :=
  decodeEvent_eq_some_iff.2 ⟨by cases k <;> exact decide_eq_true hp, rfl⟩

/-- Raising a flag on an engine that has none raised, then clearing it, leaves the engine as it was. -/
theorem BusUnit.clearFlag_raiseFlag {u : BusUnit} (h : u.bifReg = 0#4) (k : BusFlag) : (u.raiseFlag k).clearFlag k = u := by
  have hbits : clearBit (setBit 0#4 k.bit) k.bit = 0#4 := by cases k <;> rfl
  simp only [BusUnit.raiseFlag, BusUnit.clearFlag, h, hbits]
  rw [← h]

theorem BusUnit.enabled_raiseFlag {u : BusUnit} {k : BusFlag} (he : u.bien.getLsbD k.bit = true) : (u.raiseFlag k).enabled k = true := by
  cases k <;> simp_all [BusUnit.enabled, BusUnit.raiseFlag, setBit, BusFlag.bit]

@[simp] theorem BusUnit.receive_bien (u : BusUnit) (b : Byte) (k : BusFlag) : (u.receive b k).bien = u.bien := by cases k <;> rfl

@[simp] theorem BusUnit.receive_bifReg (u : BusUnit) (b : Byte) (k : BusFlag) : (u.receive b k).bifReg = u.bifReg := by cases k <;> rfl

/-- `s` with the events `es` at the event port, and the moves named that take each and service it before the next. -/
def State.expecting (s : State) (p : BitVec 4) (es : List (Event × BusFlag)) : State :=
  { s with evtPort := es.map (fun e => encodeEvent e.1), moves := busServiceMoves p.toNat es }

/-- The machine takes and services events of bus engine `p`: it has the engine, no fault is recorded, and no flag of the engine is
raised. -/
structure State.Listens (s : State) (p : BitVec 4) : Prop where
  noFault : s.faultCode = .noFault
  inRange : p.toNat < s.cfg.nBus
  has : p.toNat < s.bus.length
  noFlag : (s.busAt p.toNat).bifReg = 0#4

theorem State.Listens.amid {s : State} {p : BitVec 4} (h : s.Listens p) {u : BusUnit} (hu : u.bifReg = 0#4) (acts : List Action)
    (m : List Host.Cell) : (s.amid p.toNat u acts m).Listens p where
  noFault := h.noFault
  inRange := h.inRange
  has := by simpa [State.amid, State.afterBusHandler] using h.has
  noFlag := by rw [State.busAt_amid h.has, hu]

/-- An event step takes the move, takes the word and applies the event (30_encoding.md R68). -/
theorem step_event {s : State} {ms : List Move} {x : Word} {ws : List Word} {e : Event} (hh : s.faultCode = .noFault)
    (hm : s.moves = .event :: ms) (hp : s.evtPort = x :: ws) (he : decodeEvent s.cfg x = some e) :
    step s = .next (applyEvent e { s with moves := ms, evtPort := ws }) :=
  (step_move hh hm).trans (eventStep_of_decodeEvent hp he)

theorem step_busHandler {s : State} (hh : s.faultCode = .noFault) (p : Nat) (k : BusFlag) (ms : List Move) :
    step { s with moves := .busHandler p k :: ms } = busHandler p k { s with moves := ms } :=
  step_move (s := { s with moves := .busHandler p k :: ms }) hh rfl

/-- The event step raises the flag, and names the handler step next. -/
theorem step_busEvent {s : State} {p : BitVec 4} (h : s.Listens p) (b : Byte) (k : BusFlag) (es : List (Event × BusFlag)) :
    step (s.expecting p ((busEvent p b k, k) :: es))
      = .next { (s.expecting p es).setBus p.toNat (((s.busAt p.toNat).receive b k).raiseFlag k) with
          moves := .busHandler p.toNat k :: busServiceMoves p.toNat es } := by
  rw [step_event (s := s.expecting p ((busEvent p b k, k) :: es)) h.noFault rfl rfl (decodeEvent_busEvent h.inRange b k),
    applyEvent_busEvent]
  rfl

/-- The handler step of the one flag raised applies its transition to the engine as if the flag had never been raised. -/
theorem busHandler_raiseFlag {s : State} {p : Nat} {v : BusUnit} {k : BusFlag} (hp : p < s.bus.length) (hv : v.bifReg = 0#4)
    (he : v.bien.getLsbD k.bit = true) :
    busHandler p k (s.setBus p (v.raiseFlag k)) = finishHandler (s.setBus p (v.raiseFlag k)) (busTransition p k (s.setBus p v)) := by
  have hat : (s.setBus p (v.raiseFlag k)).busAt p = v.raiseFlag k := State.busAt_setBus_same hp
  have hset : (s.setBus p (v.raiseFlag k)).setBus p v = s.setBus p v := by simp [State.setBus]
  rw [busHandler, hat, if_pos (BusUnit.enabled_raiseFlag he), BusUnit.clearFlag_raiseFlag hv, hset]

/-- One event taken and serviced. -/
theorem run_service {s : State} {p : BitVec 4} (h : s.Listens p) {b : Byte} {k : BusFlag}
    (he : (s.busAt p.toNat).bien.getLsbD k.bit = true) (es : List (Event × BusFlag)) :
    ∃ w, core.run 2 (s.expecting p ((busEvent p b k, k) :: es))
      = finishHandler w (busTransition p.toNat k ((s.expecting p es).setBus p.toNat ((s.busAt p.toNat).receive b k))) := by
  have hserviced := busHandler_raiseFlag (s := s.expecting p es) (v := (s.busAt p.toNat).receive b k) (k := k) h.has
    (by simpa using h.noFlag) (by simpa using he)
  exact ⟨_, (run_two (step_busEvent h b k es)).trans
    ((step_busHandler (s := (s.expecting p es).setBus p.toNat _) h.noFault _ _ _).trans hserviced)⟩

/-! Chains of services -/

/-- Taking and servicing the events `es` brings `s` to `t`, whatever events are still to come. -/
def State.Serves (p : BitVec 4) (es : List (Event × BusFlag)) (s t : State) : Prop :=
  ∀ rest, core.run (busServiceMoves p.toNat es).length (s.expecting p (es ++ rest)) = .next (t.expecting p rest)

theorem State.Serves.append {p : BitVec 4} {es es' : List (Event × BusFlag)} {s t u : State} (h : State.Serves p es s t)
    (h' : State.Serves p es' t u) : State.Serves p (es ++ es') s u := by
  intro rest
  rw [busServiceMoves, List.flatMap_append, List.length_append, List.append_assoc]
  exact (run_add (h _)).trans (h' rest)

/-- One event is a chain, where the end of its handler step leaves the state `t`. -/
theorem State.Listens.serves {s t : State} {p : BitVec 4} (h : s.Listens p) {b : Byte} {k : BusFlag}
    (he : (s.busAt p.toNat).bien.getLsbD k.bit = true)
    (ht : ∀ w es, finishHandler w (busTransition p.toNat k ((s.expecting p es).setBus p.toNat ((s.busAt p.toNat).receive b k)))
      = .next (t.expecting p es)) :
    State.Serves p [(busEvent p b k, k)] s t := by
  intro rest
  obtain ⟨w, hw⟩ := run_service h he rest
  exact hw.trans (ht w rest)

/-- A chain goes on by one event whose transition changes the engine and host memory and appends actions. -/
theorem State.Serves.event {s : State} {p : BitVec 4} {es : List (Event × BusFlag)} {u v : BusUnit} {acts acts' : List Action}
    {m m' : List Host.Cell} (hrun : State.Serves p es s (s.amid p.toNat u acts m)) (h : s.Listens p) (hf : u.bifReg = 0#4) {b : Byte}
    {k : BusFlag} (he : u.bien.getLsbD k.bit = true)
    (ht : ∀ r w : State, r.cfg = s.cfg → r.dmem = m → p.toNat < r.bus.length →
      finishHandler w (busTransition p.toNat k (r.setBus p.toNat (u.receive b k))) = .next (r.amid p.toNat v acts' m')) :
    State.Serves p (es ++ [(busEvent p b k, k)]) s (s.amid p.toNat v (acts ++ acts') m') := by
  have hl : (s.amid p.toNat u acts m).Listens p := h.amid hf acts m
  have hat : (s.amid p.toNat u acts m).busAt p.toNat = u := State.busAt_amid h.has
  rw [← State.amid_amid s p.toNat u]
  refine hrun.append (hl.serves (by rw [hat]; exact he) fun w es => ?_)
  rw [hat]
  exact ht _ w rfl rfl hl.has

/-! The services of a read transaction -/

/-- 42_bus_master.md R100, the first service of the engine. -/
theorem State.Listens.serves_ack {s : State} {p : BitVec 4} {u : BusUnit} (h : s.Listens p) (hu : s.busAt p.toNat = u)
    (he : u.bien.getLsbD 0 = true) (hst : u.busState = .initSendAddr) :
    State.Serves p [(Event.busAck p, BusFlag.ack)] s
      (s.amid p.toNat { u with busState := .sendCommand } [.busTxdata p.toNat u.recCmd] s.dmem) := by
  subst hu
  exact h.serves (b := 0#8) (k := .ack) he fun w _ => finish_ack_initSendAddr w _ h.has hst

namespace State.Serves
variable {s : State} {p : BitVec 4} {es : List (Event × BusFlag)} {u : BusUnit} {acts : List Action} {m : List Host.Cell}
  (hrun : State.Serves p es s (s.amid p.toNat u acts m)) (h : s.Listens p) (hf : u.bifReg = 0#4)
include hrun h hf

/-- 42_bus_master.md R101. -/
theorem ack_sendCommand (he : u.bien.getLsbD 0 = true) (hst : u.busState = .sendCommand) :
    State.Serves p (es ++ [(Event.busAck p, BusFlag.ack)]) s
      (s.amid p.toNat { u with busState := .sendRptStartAddr }
        (acts ++ [Action.busStart p.toNat, Action.busTxdata p.toNat (u.recAddr ++ 1#1)]) m) :=
  hrun.event h hf (b := 0#8) (k := .ack) he fun _ w _ hm hp => hm ▸ finish_ack_sendCommand w u hp hst

/-- 42_bus_master.md R102. -/
theorem nack (he : u.bien.getLsbD 1 = true) (hst : u.busState = .sendRptStartAddr)
    (hl : retriesExhausted s.cfg.rptNackLimit u.nackCnt = false) :
    State.Serves p (es ++ [(Event.busNack p, BusFlag.nack)]) s
      (s.amid p.toNat { u with nackCnt := nackCount u.nackCnt }
        (acts ++ [Action.busStart p.toNat, Action.busTxdata p.toNat (u.recAddr ++ 1#1)]) m) :=
  hrun.event h hf (b := 0#8) (k := .nack) he fun _ w hcfg hm hp => hm ▸ finish_nack_retry w u hp hst (hcfg ▸ hl)

/-- 42_bus_master.md R102: refusals within the limit repeat the START, each once, and change the engine's count alone. -/
theorem nacks (n : Nat) (he : u.bien.getLsbD 1 = true) (hst : u.busState = .sendRptStartAddr)
    (hl : ∀ l, s.cfg.rptNackLimit = some l → u.nackCnt.toNat + n ≤ l) :
    ∃ c, State.Serves p (es ++ List.replicate n (Event.busNack p, BusFlag.nack)) s
      (s.amid p.toNat { u with nackCnt := c }
        (acts ++ (List.replicate n [Action.busStart p.toNat, Action.busTxdata p.toNat (u.recAddr ++ 1#1)]).flatten) m) := by
  induction n generalizing es u acts with
  | zero => exact ⟨u.nackCnt, by simpa using hrun⟩
  | succ n ih =>
    have hone := hrun.nack h hf he hst (retriesExhausted_eq_false fun l hs => by have := hl l hs; omega)
    have hcount : (nackCount u.nackCnt).toNat ≤ u.nackCnt.toNat + 1 := by
      rw [nackCount_toNat]
      exact Nat.min_le_left _ _
    obtain ⟨c, hrest⟩ := ih hone hf he hst fun l hs => (Nat.add_le_add_right hcount n).trans (by have := hl l hs; omega)
    exact ⟨c, by simpa [List.replicate_succ] using hrest⟩

/-- 42_bus_master.md R103. -/
theorem ack_sendRptStartAddr (he : u.bien.getLsbD 0 = true) (hst : u.busState = .sendRptStartAddr) :
    State.Serves p (es ++ [(Event.busAck p, BusFlag.ack)]) s
      (s.amid p.toNat { u with bien := u.bien ||| 0b0100#4, busState := .readMsByte } (acts ++ []) m) :=
  hrun.event h hf (b := 0#8) (k := .ack) he fun _ w _ hm hp => hm ▸ finish_ack_sendRptStartAddr w u hp hst

/-- 42_bus_master.md R104. -/
theorem rx_readMsByte (he : u.bien.getLsbD 2 = true) (hst : u.busState = .readMsByte) (hadm : s.cfg.admits u.recDest 2 = true)
    (b : Byte) :
    State.Serves p (es ++ [(Event.busRx p b, BusFlag.rxdatav)]) s
      (s.amid p.toNat { u with brxdata := b, busState := .readLs } (acts ++ [Action.busAck p.toNat])
        (Memory.writeWord m u.recDest.toNat 0#8 b)) :=
  hrun.event h hf (b := b) (k := .rxdatav) he fun _ w hcfg hm hp => hm ▸ finish_rxdatav_readMsByte w _ hp hst (hcfg ▸ hadm)

/-- 42_bus_master.md R105. -/
theorem rx_readLs (he : u.bien.getLsbD 2 = true) (hst : u.busState = .readLs) (hadm : s.cfg.admits u.recDest 2 = true) (b : Byte) :
    State.Serves p (es ++ [(Event.busRx p b, BusFlag.rxdatav)]) s
      (s.amid p.toNat { u with brxdata := b, busState := .stopEnd } (acts ++ [Action.busNack p.toNat, Action.busStop p.toNat])
        (Memory.writeWord m u.recDest.toNat (Memory.read m u.recDest.toNat ||| b) (Memory.read m (u.recDest.toNat + 1)))) :=
  hrun.event h hf (b := b) (k := .rxdatav) he fun _ w hcfg hm hp => hm ▸ finish_rxdatav_readLs w _ hp hst (hcfg ▸ hadm)

/-- 42_bus_master.md R106, the last service of the engine. -/
theorem mstop (he : u.bien.getLsbD 3 = true) (hst : u.busState = .stopEnd) :
    State.Serves p (es ++ [(Event.busMstop p, BusFlag.mstop)]) s
      { s.amid p.toNat { u with busBusy := false, busState := .initSendAddr } acts m with
        cnt := (s.unblock s.cfg.busDepth).cnt, pending := s.pending ||| u.recEvt } := by
  have hl : (s.amid p.toNat u acts m).Listens p := h.amid hf acts m
  have hat : (s.amid p.toNat u acts m).busAt p.toNat = u := State.busAt_amid h.has
  refine hrun.append (hl.serves (b := 0#8) (k := .mstop) (by rw [hat]; exact he) fun w es => ?_)
  have hcnt : (((s.amid p.toNat u acts m).expecting p es).unblock s.cfg.busDepth).cnt = (s.unblock s.cfg.busDepth).cnt := by
    simp only [State.unblock_cnt]
    rfl
  rw [hat, ← hcnt]
  refine (finish_mstop_stopEnd (s := (s.amid p.toNat u acts m).expecting p es) w u hl.has hst).trans ?_
  simp [State.amid, State.afterBusHandler, State.expecting]

end State.Serves

/-- An engine with the enables of a start and RXDATAV's has every flag enabled (42_bus_master.md R103). -/
theorem BusUnit.enableFlag_rxdatav_bien {u : BusUnit} (h : u.bien &&& 0b1011#4 = 0b1011#4) :
    (u.enableFlag .rxdatav).bien = 0b1111#4 := by
  have hall : ∀ x : BitVec 4, x &&& 0b1011#4 = 0b1011#4 → setBit x 2 = 0b1111#4 := by decide
  exact hall u.bien h

/-- Host memory after both stores of a read: the first byte above a low-order byte 0, then the second merged into the word as it stands
(20_memory.md R45 and R46). -/
def Memory.storeBytes (m : List Host.Cell) (a : Nat) (b1 b2 : Byte) : List Host.Cell :=
  let m1 := Memory.writeWord m a 0#8 b1
  Memory.writeWord m1 a (Memory.read m1 a ||| b2) (Memory.read m1 (a + 1))

theorem Memory.read_storeBytes {m : List Host.Cell} {a : Nat} (hm : Memory.wf m = true) (ha : a + 1 < 2 ^ 32) (b1 b2 : Byte) :
    Memory.read (Memory.storeBytes m a b1 b2) a = b2 ∧ Memory.read (Memory.storeBytes m a b1 b2) (a + 1) = b1 := by
  have hlt : a < 2 ^ 32 := Nat.lt_of_succ_lt ha
  have hwf : Memory.wf (Memory.writeWord m a 0#8 b1) = true := Memory.wf_writeWord hm ha
  constructor
  · rw [Memory.storeBytes, Memory.read_writeWord_low hwf, Memory.read_writeWord_low hm, BitVec.zero_or]
  · rw [Memory.storeBytes, Memory.read_writeWord_high hwf hlt, Memory.read_writeWord_high hm hlt]

/-- An engine with the enables of R159 has those of the acknowledges, and every one after RXDATAV's (42_bus_master.md R103). -/
theorem enables_of_reset {x : BitVec 4} (h : x &&& 0b1011#4 = 0b1011#4) :
    x.getLsbD 0 = true ∧ x.getLsbD 1 = true ∧ (x ||| 0b0100#4).getLsbD 2 = true ∧ (x ||| 0b0100#4).getLsbD 3 = true := by
  revert x
  decide

/-- 42_bus_master.md R108: the services of the whole transaction, one after another. -/
theorem serves_readEvents {s : State} {p : BitVec 4} {u : BusUnit} {n : Nat} (h : s.Listens p) (hu : s.busAt p.toNat = u)
    (hst : u.busState = .initSendAddr) (hbien : u.bien &&& 0b1011#4 = 0b1011#4)
    (hl : ∀ l, s.cfg.rptNackLimit = some l → u.nackCnt.toNat + n ≤ l) (hadm : s.cfg.admits u.recDest 2 = true) (b1 b2 : Byte) :
    ∃ v, v.busBusy = false ∧ v.busState = .initSendAddr ∧ State.Serves p (readEvents p n b1 b2) s
      { s.amid p.toNat v (readActions p.toNat u.recAddr u.recCmd n) (Memory.storeBytes s.dmem u.recDest.toNat b1 b2) with
        cnt := (s.unblock s.cfg.busDepth).cnt, pending := s.pending ||| u.recEvt } := by
  have hf : u.bifReg = 0#4 := hu ▸ h.noFlag
  obtain ⟨hack, hnack, hrx, hmstop⟩ := enables_of_reset hbien
  have hsent := h.serves_ack hu hack hst
  have hstarted := hsent.ack_sendCommand h hf hack rfl
  obtain ⟨c, hretried⟩ := hstarted.nacks h hf n hnack rfl hl
  have haccepted := hretried.ack_sendRptStartAddr h hf hack rfl
  have hfirst := haccepted.rx_readMsByte h hf hrx rfl hadm b1
  have hsecond := hfirst.rx_readLs h hf hrx rfl hadm b2
  have hstopped := hsecond.mstop h hf hmstop rfl
  refine ⟨?v, ?idle, ?init, ?chain⟩
  case chain =>
    simp only [readEvents, readActions, List.replicate_succ, List.flatten_cons, List.append_nil, List.append_assoc, List.cons_append,
      List.nil_append] at hstopped ⊢
    exact hstopped
  case idle | init => rfl

/-- Settles O33: the run is the chain of services that `serves_readEvents` gives, from the events and moves at hand to none. -/
theorem busReadDeliversTheWord : Obligations.BusReadDeliversTheWord := by
  intro s p n b1 b2 hinv hh hp hbusy hst hflags hbien hcount hlimit hport hmoves
  have hs := s.inv_iff_sound.1 hinv
  have hlt : p.toNat < s.bus.length := hs.busLength ▸ hp
  obtain ⟨-, hrec⟩ := hs.busAt p.toNat
  obtain ⟨-, -, -, hadm⟩ := hrec hbusy
  have hin := Params.admits_lt (Params.legal_map hs.legal) hadm
  obtain ⟨hlow, hhigh⟩ := Memory.read_storeBytes hs.memory (show (s.busAt p.toNat).recDest.toNat + 1 < 2 ^ 32 by omega) b1 b2
  obtain ⟨v, hidle, hinit, hserves⟩ := serves_readEvents (n := n) ⟨hh, hp, hlt, hflags⟩ rfl hst hbien
    (fun l hl => by simpa [hcount] using hlimit l hl) hadm b1 b2
  have hat : (s.setBus p.toNat v).busAt p.toNat = v := State.busAt_setBus_same hlt
  have hstart : s.expecting p (readEvents p n b1 b2) = s := by rw [State.expecting, ← hport, ← hmoves]
  have hrun := hserves []
  rw [List.append_nil, hstart, ← hmoves] at hrun
  refine ⟨_, hrun, hh, rfl, rfl, hlow, hhigh, ?_, ?_, rfl, State.unblock_counts hs.busDepth_lt rfl, rfl⟩
  · exact (congrArg BusUnit.busBusy hat).trans hidle
  · exact (congrArg BusUnit.busState hat).trans hinit

end Sys2Proof.Machine
end

section
/-! Who ends a transaction (42_bus_master.md R109): every effect keeps a busy bus engine busy, but for the stop-complete handler in
`STOP_END` and the completion of BUS.RESET. -/

namespace Sys2Proof.Machine

/-- Bus engine `p`, where it is busy in `s`, is busy in `t`. -/
def State.StaysBusy (p : Nat) (s t : State) : Prop := (s.busAt p).busBusy = true → (t.busAt p).busBusy = true

namespace State.StaysBusy
variable {p : Nat} {s t u : State}

theorem of_bus (h : t.bus = s.bus) : StaysBusy p s t := by
  unfold StaysBusy State.busAt
  rw [h]
  exact id

theorem trans (h : StaysBusy p s t) (h' : StaysBusy p t u) : StaysBusy p s u := fun hb => h' (h hb)

/-- A write to another engine, or one that leaves the engine busy where it was. -/
theorem setBus {q : Nat} {v : BusUnit} (hv : q = p → (s.busAt q).busBusy = true → v.busBusy = true) : StaysBusy p s (s.setBus q v) := by
  intro hb
  by_cases hqp : q = p
  · subst hqp
    by_cases hlt : q < s.bus.length
    · rw [State.busAt_setBus_same hlt]
      exact hv rfl hb
    · simp [State.busAt, hlt, BusUnit.reset] at hb
  · rwa [State.busAt_setBus_other (Ne.symm hqp)]

/-! Commands -/

theorem busStartBody {h : Word} {q : Nat} {addr : BitVec 7} {cmd : Byte} {dir : Dir} {count : BitVec 4} {dest ev : Word}
    (ht : busStartBody h q addr cmd dir count dest ev s = .ok t) : StaysBusy p s t := by
  unfold Machine.busStartBody at ht
  simp only at ht
  split_ifs at ht
  cases ht
  refine (setBus (q := q) (v := (s.busAt q).start addr cmd dir count dest ev) fun _ _ => rfl).trans (of_bus ?_)
  simp

theorem busResetBody (q : Nat) (s : State) : StaysBusy p s (busResetBody q s) := by
  rw [busResetBody_eq]
  exact setBus (v := { s.busAt q with bienSave := (s.busAt q).bien, bien := 0#4 }) fun _ => id

end State.StaysBusy

@[simp] theorem serEffects_bus (q : Nat) (bytes : List Byte) (s : State) : (serEffects q bytes s).bus = s.bus := by
  simp [serEffects]

theorem arbBlockBody_bus {h : Word} {d : Nat} {s t : State} (ht : arbBlockBody h d s = .ok t) : t.bus = s.bus := by
  unfold arbBlockBody at ht
  split_ifs at ht
  cases ht
  rfl

theorem arbUnblockBody_bus {h : Word} {d : Nat} {s t : State} (ht : arbUnblockBody h d s = .ok t) : t.bus = s.bus := by
  unfold arbUnblockBody at ht
  split_ifs at ht
  cases ht
  exact s.unblock_bus d

theorem serStartBody_bus {q : Nat} {bytes : List Byte} {s t : State} (ht : serStartBody q bytes s = .ok t) : t.bus = s.bus := by
  unfold serStartBody at ht
  split_ifs at ht
  · cases ht
    rfl
  · obtain ⟨-, hb⟩ | ⟨-, hb⟩ := serBegin_cases q bytes s <;> rw [hb] at ht <;> cases ht
    simp

theorem qPushBody_bus {q : Nat} {payload : List Byte} {s t : State} (ht : qPushBody q payload s = .ok t) : t.bus = s.bus := by
  unfold qPushBody at ht
  split_ifs at ht
  cases ht
  rfl

theorem qPopFrame_bus {q : Nat} {diag : Bool} {lb : Nat} {s t : State} (ht : qPopFrame q diag lb s = .ok t) : t.bus = s.bus := by
  unfold qPopFrame at ht
  cases diag
  all_goals
    simp only at ht
    split_ifs at ht
    cases ht
    simp

theorem qPopBody_bus {q : Nat} {diag : Bool} {s t : State} (ht : qPopBody q diag s = .ok t) : t.bus = s.bus := by
  unfold qPopBody at ht
  simp only at ht
  split_ifs at ht
  · cases ht
    rfl
  · exact qPopFrame_bus ht

/-- 42_bus_master.md R109: the rule of a command ends no transaction, that of BUS.RESET included (R97). -/
theorem commandBody_staysBusy {p : Nat} {i : Instr} {s t : State} (h : commandBody s i = .ok t) : State.StaysBusy p s t := by
  cases i with
  | busStart => exact .busStartBody h
  | busReset q =>
    cases h
    exact .busResetBody _ s
  | arbBlock => exact .of_bus (arbBlockBody_bus h)
  | arbUnblock => exact .of_bus (arbUnblockBody_bus h)
  | serStart => exact .of_bus (serStartBody_bus h)
  | qPush => exact .of_bus (qPushBody_bus h)
  | qPop => exact .of_bus (qPopBody_bus h)
  | arbEnter =>
    cases h
    exact .of_bus (by rw [State.sleepAt_eq]; rfl)
  | schedOpen | schedPost | schedClear | schedPoll | arbOpen | arbFloor | busBusy | serBusy | qOpen | qFree =>
    cases h
    exact .of_bus rfl

theorem exec_staysBusy {p : Nat} {i : Instr} {s t : State} (h : exec i s = .next t) : State.StaysBusy p s t := by
  rw [exec_eq_runCommand] at h
  obtain ⟨f, -, hr⟩ | ⟨f, -, -, hr⟩ | ⟨u, -, hu, hr⟩ := runCommand_cases i s (commandBody s i) <;> rw [hr] at h <;> cases h
  · exact .of_bus rfl
  · exact .of_bus rfl
  · exact (commandBody_staysBusy hu).trans (.of_bus u.endCommand_bus)

theorem commandStep_staysBusy {p : Nat} {c : Ctx} {s t : State} (h : commandStep c s = .next t) : State.StaysBusy p s t := by
  unfold commandStep at h
  split at h
  · cases h
    exact .of_bus rfl
  · cases h
    exact .of_bus rfl
  · next i u hf =>
    obtain ⟨-, rest, -, rfl⟩ := fetchCommand_command hf
    exact (State.StaysBusy.of_bus (s.takeFrom_bus c rest)).trans (exec_staysBusy h)

/-! Handler steps -/

theorem busStoreHigh_staysBusy {p q : Nat} {s t : State} (h : busStoreHigh q s = .ok t) : State.StaysBusy p s t := by
  unfold busStoreHigh at h
  simp only at h
  split at h
  · cases h
  · next u hw =>
    cases h
    obtain ⟨-, rfl⟩ := State.memWrite_eq_some hw
    exact State.StaysBusy.setBus (v := { s.busAt q with busState := .readLs }) fun _ => id

theorem busMergeLow_staysBusy {p q : Nat} {s t : State} (h : busMergeLow q s = .ok t) : State.StaysBusy p s t := by
  unfold busMergeLow at h
  simp only at h
  split at h
  · cases h
  · split at h
    · cases h
    · next u hw =>
      cases h
      obtain ⟨-, rfl⟩ := State.memWrite_eq_some hw
      exact State.StaysBusy.setBus (v := { s.busAt q with busState := .stopEnd }) fun _ => id

theorem busRetry_staysBusy {p q : Nat} {s t : State} (h : busRetry q s = .ok t) : State.StaysBusy p s t := by
  unfold busRetry at h
  simp only at h
  split_ifs at h
  cases h
  exact State.StaysBusy.setBus (v := { s.busAt q with nackCnt := nackCount (s.busAt q).nackCnt }) fun _ => id

/-- Of the transitions of R99 only MSTOP in `STOP_END` clears the busy flag, and of its own engine. -/
theorem busTransition_staysBusy {p q : Nat} {k : BusFlag} {s t : State} (h : busTransition q k s = .ok t) :
    State.StaysBusy p s t ∨ (q = p ∧ k = .mstop ∧ (s.busAt q).busState = .stopEnd) := by
  unfold busTransition at h
  split at h
  case h_1 =>
    cases h
    exact .inl (State.StaysBusy.setBus (v := { s.busAt q with busState := .sendCommand }) fun _ => id)
  case h_2 =>
    cases h
    exact .inl (State.StaysBusy.setBus (v := { s.busAt q with busState := .sendRptStartAddr }) fun _ => id)
  case h_3 =>
    cases h
    exact .inl (State.StaysBusy.setBus (v := { (s.busAt q).enableFlag .rxdatav with busState := .readMsByte }) fun _ => id)
  case h_4 => exact .inl (busRetry_staysBusy h)
  case h_5 => exact .inl (busStoreHigh_staysBusy h)
  case h_6 => exact .inl (busMergeLow_staysBusy h)
  case h_7 hst =>
    cases h
    by_cases hqp : q = p
    · exact .inr ⟨hqp, rfl, hst⟩
    · refine .inl ((State.StaysBusy.setBus (q := q) (v := { s.busAt q with busBusy := false, busState := .initSendAddr })
        fun e => absurd e hqp).trans (.of_bus ?_))
      simp
  case h_8 => cases h

theorem busHandler_staysBusy {p q : Nat} {k : BusFlag} {s t : State} (h : busHandler q k s = .next t) :
    State.StaysBusy p s t ∨ (q = p ∧ k = .mstop ∧ (s.busAt q).busState = .stopEnd) := by
  unfold busHandler at h
  split at h
  · next hk =>
    have hat : (s.setBus q ((s.busAt q).clearFlag k)).busAt q = (s.busAt q).clearFlag k :=
      State.busAt_setBus_same (State.enabled_bus_lt hk)
    have hclear : State.StaysBusy p s (s.setBus q ((s.busAt q).clearFlag k)) := .setBus fun _ => id
    obtain ⟨u, hu, rfl⟩ | ⟨f, -, rfl⟩ := finishHandler_next h
    · obtain hbusy | ⟨hqp, hk, hst⟩ := busTransition_staysBusy (p := p) hu
      · exact .inl (hclear.trans hbusy)
      · rw [hat] at hst
        exact .inr ⟨hqp, hk, hst⟩
    · exact .inl (.of_bus rfl)
  · cases h
    exact .inl (.of_bus rfl)

theorem serTransition_bus {q : Nat} {k : SerFlag} {s t : State} (h : serTransition q k s = .ok t) : t.bus = s.bus := by
  unfold serTransition at h
  split at h
  case h_1 | h_2 | h_3 =>
    cases h
    simp
  case h_4 => cases h

theorem serHandler_bus {q : Nat} {k : SerFlag} {s t : State} (h : serHandler q k s = .next t) : t.bus = s.bus := by
  unfold serHandler at h
  split at h
  · obtain ⟨u, hu, rfl⟩ | ⟨f, -, rfl⟩ := finishHandler_next h
    · have hbus := serTransition_bus hu
      exact hbus
    · rfl
  · cases h
    rfl

/-! The other steps -/

theorem applyEvent_staysBusy (p : Nat) (e : Event) (s : State) : State.StaysBusy p s (applyEvent e s) := by
  cases e with
  | busAck | busNack | busRx | busMstop | busIdle => exact .setBus fun _ => id
  | serTxbl | serTxc => exact .of_bus rfl

theorem eventStep_staysBusy {p : Nat} {s t : State} (h : eventStep s = .next t) : State.StaysBusy p s t := by
  unfold eventStep at h
  split at h
  · cases h
    exact .of_bus rfl
  · next w rest _ =>
    split at h <;> cases h
    exact applyEvent_staysBusy p _ { s with evtPort := rest }

theorem serStartCompletion_bus (q : Nat) (bytes : List Byte) (s : State) : (serStartCompletion q bytes s).bus = s.bus := by
  unfold serStartCompletion
  obtain ⟨-, hb⟩ | ⟨-, hb⟩ := serBegin_cases q bytes s <;> rw [hb] <;> simp

/-- 42_bus_master.md R98: the completion of BUS.RESET writes its own engine. -/
theorem completionStep_staysBusy (p : Nat) (s : State) : State.StaysBusy p s (completionStep s) ∨ s.fgHeld = .busReset p := by
  unfold completionStep
  split
  · exact .inl (.of_bus rfl)
  · split_ifs
    · exact .inl (.of_bus rfl)
    · exact .inl (.of_bus (serStartCompletion_bus _ _ s))
  · next q hheld =>
    split_ifs
    · by_cases hqp : q = p
      · exact .inr (hqp ▸ hheld)
      · exact .inl (State.StaysBusy.setBus (v := { s.busAt q with
          bifReg := 0#4, busBusy := false, busState := .initSendAddr, bien := (s.busAt q).bienSave }) fun e => absurd e hqp)
    · exact .inl (.of_bus rfl)

theorem hostStoreStep_bus (s : State) : (hostStoreStep s).bus = s.bus := by
  unfold hostStoreStep
  split
  · rfl
  · split_ifs <;> rfl

/-- Whatever step a move names, it keeps a busy bus engine busy, or is one of the two that R109 names. -/
theorem moveStep_staysBusy {p : Nat} {m : Move} {s t : State} (h : moveStep m s = .next t) :
    State.StaysBusy p s t ∨ (m = .busHandler p .mstop ∧ (s.busAt p).busState = .stopEnd)
      ∨ (m = .completion ∧ s.fgHeld = .busReset p) := by
  cases m with
  | command c => exact .inl (commandStep_staysBusy h)
  | event => exact .inl (eventStep_staysBusy h)
  | busHandler q k =>
    obtain hbusy | ⟨rfl, rfl, hst⟩ := busHandler_staysBusy (p := p) h
    · exact .inl hbusy
    · exact .inr (.inl ⟨rfl, hst⟩)
  | serHandler q k => exact .inl (.of_bus (serHandler_bus h))
  | completion =>
    cases h
    exact (completionStep_staysBusy p s).imp_right fun hheld => .inr ⟨rfl, hheld⟩
  | hostStore =>
    cases h
    exact .inl (.of_bus (hostStoreStep_bus s))

/-- Settles O34: a step that ends a transaction is one of the two moves that do not keep a busy engine busy. -/
theorem onlyStopOrResetEndsATransaction : Obligations.OnlyStopOrResetEndsATransaction := by
  intro s t p h hbusy hidle
  have hends : ¬State.StaysBusy p s t := fun hstays => Bool.false_ne_true (hidle.symm.trans (hstays hbusy))
  obtain ⟨-, ⟨-, rfl⟩ | ⟨m, rest, hm, hmove⟩⟩ := step_next h
  · exact absurd (.of_bus rfl) hends
  · rw [hm]
    obtain hstays | ⟨rfl, hst⟩ | ⟨rfl, hheld⟩ := moveStep_staysBusy (p := p) hmove
    · exact absurd hstays hends
    · exact .inl ⟨rfl, hst⟩
    · exact .inr ⟨rfl, hheld⟩

end Sys2Proof.Machine
end

section
/-! SER.START (43_serial_tx.md R111 and R112): when it begins a transmission, when it is refused or held, and the completion of a held
one. -/

namespace Sys2Proof.Machine

/-- A payload the buffer takes (43_serial_tx.md R111). -/
theorem badTxLength_eq_false {c : Params} {n : Nat} (hpos : 1 ≤ n) (hcap : n ≤ c.txCap) : badTxLength c n = false := by
  simp [badTxLength]
  omega

theorem badTxLength_eq_true {c : Params} {n : Nat} (h : n = 0 ∨ c.txCap < n) : badTxLength c n = true := by
  simpa [badTxLength] using h

/-- 43_serial_tx.md R112, below the bound of the dedicated depth. -/
theorem serBegin_of_lt {p : Nat} {bytes : List Byte} {s : State} (h : (s.cntAt s.cfg.serDepth).toNat < s.cfg.blockMax) :
    serBegin p bytes s = .ok (serEffects p bytes s) := by
  simp [serBegin, State.blockFull_eq_false h]

/-- 43_serial_tx.md R112, at the bound. -/
theorem serBegin_of_le {p : Nat} {bytes : List Byte} {s : State} (h : s.cfg.blockMax ≤ (s.cntAt s.cfg.serDepth).toNat) :
    serBegin p bytes s = .error (faultSleepOverflow s.cfg.serDepth) := by
  simp [serBegin, State.blockFull_eq_true h]

section Body
variable {p : Nat} {bytes : List Byte} {s : State}

theorem serStartBody_of_badLength (h : badTxLength s.cfg bytes.length = true) :
    serStartBody p bytes s = .error (faultInfoOf .txLength 3#4 p (BitVec.ofNat 32 bytes.length)) :=
  if_pos h

theorem serStartBody_of_busy (h : badTxLength s.cfg bytes.length = false) (hbusy : (s.serAt p).serBusy = true) :
    serStartBody p bytes s = .ok { s with fgHeld := .serStart p bytes } := by
  simp [serStartBody, h, hbusy]

theorem serStartBody_of_idle (h : badTxLength s.cfg bytes.length = false) (hidle : (s.serAt p).serBusy = false) :
    serStartBody p bytes s = (serBegin p bytes s).map (State.respond · 0#32) := by
  rw [serStartBody, h, hidle]
  cases serBegin p bytes s <;> rfl

end Body

/-- Settles O38: the effects of a start are those of `serEffects_effects`, and the record is that of `SerUnit.start_eq`. -/
theorem serStartBeginsATransmission : Obligations.SerStartBeginsATransmission := by
  intro s p bytes hc hl hs hp hidle hpos hcap hroom
  have hb : commandBody s (.serStart p bytes) = .ok ((serEffects p.toNat bytes s).respond 0#32) := by
    rw [commandBody, serStartBody_of_idle (badTxLength_eq_false hpos hcap) hidle, serBegin_of_lt hroom]
    rfl
  obtain ⟨hframe, hat, hothers, hcounts⟩ := serEffects_effects (bytes := bytes) hl hs hp hroom
  exact ⟨_, exec_completed (State.admission_of_fg hc (decide_eq_true hp)) hb, hframe, hat.trans (SerUnit.start_eq _ _), hothers,
    hcounts⟩

/-- Settles O39: the checks of R111 in their order, then the bound of R112. -/
theorem serStartWaitsOrFaults : Obligations.SerStartWaitsOrFaults := by
  intro s p bytes hc hp
  have hadm : s.admission (.serStart p bytes) = none := State.admission_of_fg hc (decide_eq_true hp)
  split_ifs with hlen hbusy
  · rw [exec_raises hadm (serStartBody_of_badLength (badTxLength_eq_true hlen)), State.raiseFault_eq]
    simp [faultInfoOf]
  all_goals
    have hgood : badTxLength s.cfg bytes.length = false := badTxLength_eq_false (by omega) (by omega)
  · rw [exec_eq_runCommand, commandBody, serStartBody_of_busy hgood hbusy, runCommand_ok hadm, State.endCommand_of_fg (by exact hc)]
  · intro hfull
    have hb : commandBody s (.serStart p bytes) = .error (faultSleepOverflow s.cfg.serDepth) := by
      rw [commandBody, serStartBody_of_idle hgood (Bool.eq_false_of_not_eq_true hbusy), serBegin_of_le hfull]
      rfl
    rw [exec_raises hadm hb]
    rfl

theorem serStartCompletion_of_lt {p : Nat} {bytes : List Byte} {s : State} (h : (s.cntAt s.cfg.serDepth).toNat < s.cfg.blockMax) :
    serStartCompletion p bytes s = (serEffects p bytes s).respondTo .fg 0#32 := by
  rw [serStartCompletion, serBegin_of_lt h]

theorem serStartCompletion_of_le {p : Nat} {bytes : List Byte} {s : State} (h : s.cfg.blockMax ≤ (s.cntAt s.cfg.serDepth).toNat) :
    serStartCompletion p bytes s = s.raiseFault (faultSleepOverflow s.cfg.serDepth) := by
  rw [serStartCompletion, serBegin_of_le h]

/-- Settles O40: the completion step looks at the engine's busy flag, then at the counter of the dedicated depth. -/
theorem heldSerStartTakesEffect : Obligations.HeldSerStartTakesEffect := by
  intro s p bytes ms hh hm hheld hl hs hp
  have hstep : step s = .next (if (s.serAt p).serBusy = true then { s with moves := ms }
      else serStartCompletion p bytes { s with moves := ms }) := by
    rw [step_move hh hm]
    simp only [moveStep, completionStep, hheld]
    rfl
  refine ⟨fun hbusy => ?_, fun hidle hfull => ?_, fun hidle hroom => ?_⟩
  · rw [hstep, if_pos hbusy]
  · rw [hstep, if_neg (Bool.eq_false_iff.1 hidle), serStartCompletion_of_le (s := { s with moves := ms }) hfull]
    rfl
  · rw [hstep, if_neg (Bool.eq_false_iff.1 hidle), serStartCompletion_of_lt (s := { s with moves := ms }) hroom]
    obtain ⟨hframe, hat, hothers, hcounts⟩ := serEffects_effects (s := { s with moves := ms }) (bytes := bytes) hl hs hp hroom
    exact ⟨_, rfl, congrArg (State.respondTo · .fg 0#32) hframe, hat.trans (SerUnit.start_eq _ _), hothers, hcounts⟩

end Sys2Proof.Machine
end

section
/-! The handler steps of the serial transmit engine (43_serial_tx.md): what each pair of R114 leaves, and the fault of every other. -/

namespace Sys2Proof.Machine

theorem serHandler_of_enabled {s : State} {p : Nat} {k : SerFlag} (hf : (s.serAt p).sifReg.getLsbD k.bit = true)
    (he : (s.serAt p).sien.getLsbD k.bit = true) :
    serHandler p k s = finishHandler s (serTransition p k (s.setSer p ((s.serAt p).clearFlag k))) := by
  simp [serHandler, SerUnit.enabled, hf, he]

/-! The two ends of a byte's transmission (R116) -/

theorem SerUnit.advance_of_ne {u : SerUnit} (h : u.txIdx + 1#16 ≠ u.txLen) : u.advance = { u with txIdx := u.txIdx + 1#16 } :=
  if_neg h

theorem SerUnit.advance_of_eq {u : SerUnit} (h : u.txIdx + 1#16 = u.txLen) :
    u.advance = { u with txIdx := u.txIdx + 1#16, sien := 0b10#2, serState := .stopClose } := by
  have hsien : ∀ x : BitVec 2, setBit (clearBit x SerFlag.txbl.bit) SerFlag.txc.bit = 0b10#2 := by decide
  simp [SerUnit.advance, SerUnit.disableFlag, SerUnit.enableFlag, h, hsien]

/-! What a handler step leaves, for each pair of R114: `v` is the engine with its flag cleared, `w` the state before the step -/

section Transitions
variable {s : State} {p : Nat} (w : State) (v : SerUnit)

/-- 43_serial_tx.md R115. -/
theorem finish_txbl_init (hp : p < s.ser.length) (hst : v.serState = .init) :
    finishHandler w (serTransition p .txbl (s.setSer p v)) = .next (s.afterSerHandler p { v with serState := .sendData } []) := by
  simp only [serTransition, serArm, State.serAt_setSer_same hp, hst]
  simp [finishHandler, State.afterSerHandler, State.setSer]

theorem finish_txbl_sendData (hp : p < s.ser.length) (hst : v.serState = .sendData) :
    finishHandler w (serTransition p .txbl (s.setSer p v))
      = .next (s.afterSerHandler p v.advance [.serTxdata p (v.txbuf.getD v.txIdx.toNat 0#8)]) := by
  simp only [serTransition, serSendByte, State.serAt_setSer_same hp, hst]
  simp [finishHandler, State.afterSerHandler, State.emit, State.setSer]

/-- 43_serial_tx.md R116, of a byte that is not the last. -/
theorem finish_txbl_sendData_more (hp : p < s.ser.length) (hst : v.serState = .sendData) (hidx : v.txIdx + 1#16 ≠ v.txLen) :
    finishHandler w (serTransition p .txbl (s.setSer p v))
      = .next (s.afterSerHandler p { v with txIdx := v.txIdx + 1#16 } [.serTxdata p (v.txbuf.getD v.txIdx.toNat 0#8)]) := by
  rw [finish_txbl_sendData w v hp hst, SerUnit.advance_of_ne hidx]

/-- 43_serial_tx.md R116, of the last byte. -/
theorem finish_txbl_sendData_last (hp : p < s.ser.length) (hst : v.serState = .sendData) (hidx : v.txIdx + 1#16 = v.txLen) :
    finishHandler w (serTransition p .txbl (s.setSer p v))
      = .next (s.afterSerHandler p { v with txIdx := v.txIdx + 1#16, sien := 0b10#2, serState := .stopClose }
          [.serTxdata p (v.txbuf.getD v.txIdx.toNat 0#8)]) := by
  rw [finish_txbl_sendData w v hp hst, SerUnit.advance_of_eq hidx]

/-- 43_serial_tx.md R117. -/
theorem finish_txc_stopClose (hp : p < s.ser.length) (hst : v.serState = .stopClose) :
    finishHandler w (serTransition p .txc (s.setSer p v))
      = .next { s.afterSerHandler p { v with stxen := false, serBusy := false, serState := .init } [.serTxdis p] with
          cnt := (s.unblock s.cfg.serDepth).cnt, pending := s.pending ||| s.cfg.evtTxDone.getD p 0#32 } := by
  simp only [serTransition, serFinish, State.serAt_setSer_same hp, hst]
  simp [finishHandler, State.afterSerHandler, State.emit, State.post, State.setSer, State.unblock_cnt, State.cntAt]

/-- 43_serial_tx.md R118. -/
theorem serTransition_unexpected {k : SerFlag} (h : ((s.serAt p).serState, k) ∉ serExpected) :
    serTransition p k s = .raised (faultSerProtocol p k (s.serAt p).serState) := by
  unfold serTransition
  split
  case h_4 => rfl
  all_goals
    next hst => exact absurd (by simp [hst, serExpected]) h

end Transitions

/-- 60_exceptions.md R132. -/
theorem protocolInfo_ser (k : SerFlag) (st : SerState) :
    protocolInfo k.bit (st.code.setWidth 8) = BitVec.ofNat 32 (256 * k.bit + st.code.toNat) := by
  cases k <;> cases st <;> rfl

/-- Settles O41: each interrupt is serviced with its flag cleared; the counters at the end are those after one unblock of the dedicated
depth. -/
theorem serHandlerTransitions : Obligations.SerHandlerTransitions := by
  rintro s p hl ⟨hcnt, -⟩ hp
  obtain ⟨-, -, -, -, -, hdepth, -⟩ := Params.legal_bounds hl
  refine ⟨fun hf he => ?_, fun hf he hst => ?_⟩
  · rw [serHandler_of_enabled (k := .txbl) hf he]
    exact ⟨fun hst => finish_txbl_init s _ hp hst, fun hst hidx => finish_txbl_sendData_more s _ hp hst hidx,
      fun hst hidx => finish_txbl_sendData_last s _ hp hst hidx⟩
  · rw [serHandler_of_enabled (k := .txc) hf he]
    exact ⟨_, finish_txc_stopClose s _ hp hst, rfl, State.unblock_counts (hcnt ▸ hdepth) rfl⟩

/-- Settles O42: clearing the flag leaves the tag, and the fault discards the clearing. -/
theorem serProtocolFaults : Obligations.SerProtocolFaults := by
  intro s p k hf he hk
  have hp : p < s.ser.length := State.enabled_ser_lt (k := k) (by simp [SerUnit.enabled, hf, he])
  have hst : ((s.setSer p ((s.serAt p).clearFlag k)).serAt p).serState = (s.serAt p).serState := by
    rw [State.serAt_setSer_same hp]
    rfl
  rw [serHandler_of_enabled hf he, serTransition_unexpected (hst ▸ hk), hst, ← protocolInfo_ser]
  rfl

end Sys2Proof.Machine
end

section
/-! A transmission from its first buffer-empty interrupt to its end (43_serial_tx.md R119): each event is serviced as it is raised, so the
run is a chain of services, one per event. -/

namespace Sys2Proof.Machine

/-- One more handler step of the engine. -/
theorem State.afterSerHandler_afterSerHandler (s : State) (p : Nat) (u v : SerUnit) (as bs : List Action) :
    (s.afterSerHandler p u as).afterSerHandler p v bs = s.afterSerHandler p v (as ++ bs) := by
  simp [State.afterSerHandler]

theorem State.serAt_afterSerHandler {s : State} {p : Nat} {u : SerUnit} {acts : List Action} (hp : p < s.ser.length) :
    (s.afterSerHandler p u acts).serAt p = u :=
  State.serAt_setSer_same hp

/-! One event and its service -/

/-- The event that raises flag `k` of engine `p` (30_encoding.md R67). -/
def serEvent (p : BitVec 4) : SerFlag → Event
  | .txbl => .serTxbl p
  | .txc => .serTxc p

theorem applyEvent_serEvent (p : BitVec 4) (k : SerFlag) (s : State) :
    applyEvent (serEvent p k) s = s.setSer p.toNat ((s.serAt p.toNat).raiseFlag k) := by
  cases k <;> rfl

theorem decodeEvent_serEvent {c : Params} {p : BitVec 4} (hp : p.toNat < c.nSer) (k : SerFlag) :
    decodeEvent c (encodeEvent (serEvent p k)) = some (serEvent p k) :=
  decodeEvent_eq_some_iff.2 ⟨by cases k <;> exact decide_eq_true hp, rfl⟩

/-- Raising a flag on an engine that has none raised, then clearing it, leaves the engine as it was. -/
theorem SerUnit.clearFlag_raiseFlag {u : SerUnit} (h : u.sifReg = 0#2) (k : SerFlag) : (u.raiseFlag k).clearFlag k = u := by
  have hbits : clearBit (setBit 0#2 k.bit) k.bit = 0#2 := by cases k <;> rfl
  simp only [SerUnit.raiseFlag, SerUnit.clearFlag, h, hbits]
  rw [← h]

theorem SerUnit.enabled_raiseFlag {u : SerUnit} {k : SerFlag} (he : u.sien.getLsbD k.bit = true) : (u.raiseFlag k).enabled k = true := by
  cases k <;> simp_all [SerUnit.enabled, SerUnit.raiseFlag, setBit, SerFlag.bit]

/-- `s` with the events `es` at the event port, and the moves named that take each and service it before the next. -/
def State.serExpecting (s : State) (p : BitVec 4) (es : List (Event × SerFlag)) : State :=
  { s with evtPort := es.map (fun e => encodeEvent e.1), moves := serServiceMoves p.toNat es }

/-- The machine takes and services events of serial engine `p`: it has the engine, and no fault is recorded. -/
structure State.Transmits (s : State) (p : BitVec 4) : Prop where
  noFault : s.faultCode = .noFault
  inRange : p.toNat < s.cfg.nSer
  has : p.toNat < s.ser.length

theorem State.Transmits.afterSerHandler {s : State} {p : BitVec 4} (h : s.Transmits p) (u : SerUnit) (acts : List Action) :
    (s.afterSerHandler p.toNat u acts).Transmits p where
  noFault := h.noFault
  inRange := h.inRange
  has := by simpa [State.afterSerHandler] using h.has

/-- The event step raises the flag, and names the handler step next. -/
theorem step_serEvent {s : State} {p : BitVec 4} (h : s.Transmits p) (k : SerFlag) (es : List (Event × SerFlag)) :
    step (s.serExpecting p ((serEvent p k, k) :: es))
      = .next { (s.serExpecting p es).setSer p.toNat ((s.serAt p.toNat).raiseFlag k) with
          moves := .serHandler p.toNat k :: serServiceMoves p.toNat es } := by
  rw [step_event (s := s.serExpecting p ((serEvent p k, k) :: es)) h.noFault rfl rfl (decodeEvent_serEvent h.inRange k),
    applyEvent_serEvent]
  rfl

/-- The handler step of the one flag raised applies its transition to the engine as if the flag had never been raised. -/
theorem serHandler_raiseFlag {s : State} {p : Nat} {v : SerUnit} {k : SerFlag} (hp : p < s.ser.length) (hv : v.sifReg = 0#2)
    (he : v.sien.getLsbD k.bit = true) :
    serHandler p k (s.setSer p (v.raiseFlag k)) = finishHandler (s.setSer p (v.raiseFlag k)) (serTransition p k (s.setSer p v)) := by
  have hat : (s.setSer p (v.raiseFlag k)).serAt p = v.raiseFlag k := State.serAt_setSer_same hp
  have hset : (s.setSer p (v.raiseFlag k)).setSer p v = s.setSer p v := by simp [State.setSer]
  rw [serHandler, hat, if_pos (SerUnit.enabled_raiseFlag he), SerUnit.clearFlag_raiseFlag hv, hset]

/-- One event taken and serviced. -/
theorem run_serService {s : State} {p : BitVec 4} {u : SerUnit} {k : SerFlag} (h : s.Transmits p) (hu : s.serAt p.toNat = u)
    (hf : u.sifReg = 0#2) (he : u.sien.getLsbD k.bit = true) (es : List (Event × SerFlag)) :
    ∃ w, core.run 2 (s.serExpecting p ((serEvent p k, k) :: es))
      = finishHandler w (serTransition p.toNat k ((s.serExpecting p es).setSer p.toNat u)) := by
  subst hu
  have hserviced := serHandler_raiseFlag (s := s.serExpecting p es) h.has hf he
  have hstep := step_move (s := { (s.serExpecting p es).setSer p.toNat ((s.serAt p.toNat).raiseFlag k) with
    moves := .serHandler p.toNat k :: serServiceMoves p.toNat es }) h.noFault rfl
  exact ⟨_, (run_two (step_serEvent h k es)).trans (hstep.trans hserviced)⟩

/-- The head and the tail of the bytes left to send. -/
theorem getD_of_drop_eq_cons {l tl : List Byte} {n : Nat} {b : Byte} (h : l.drop n = b :: tl) :
    l.getD n 0#8 = b ∧ l.drop (n + 1) = tl := by
  constructor
  · rw [List.getD_eq_getElem?_getD, ← List.head?_drop, h]
    rfl
  · rw [← List.tail_drop, h]
    rfl

/-! Chains of services -/

/-- Taking and servicing the events `es` of serial engine `p` brings `s` to `t`, whatever events are still to come. -/
def State.SerServes (p : BitVec 4) (es : List (Event × SerFlag)) (s t : State) : Prop :=
  ∀ rest, core.run (serServiceMoves p.toNat es).length (s.serExpecting p (es ++ rest)) = .next (t.serExpecting p rest)

namespace State.SerServes
variable {s : State} {p : BitVec 4} {u : SerUnit}

theorem append {t r : State} {es es' : List (Event × SerFlag)} (h : SerServes p es s t) (h' : SerServes p es' t r) :
    SerServes p (es ++ es') s r := by
  intro rest
  rw [serServiceMoves, List.flatMap_append, List.length_append, List.append_assoc]
  exact (run_add (h _)).trans (h' rest)

/-- One event is a chain, where the end of its handler step leaves the state `t`. -/
theorem event {t : State} {k : SerFlag} (h : s.Transmits p) (hu : s.serAt p.toNat = u) (hf : u.sifReg = 0#2)
    (he : u.sien.getLsbD k.bit = true)
    (ht : ∀ w es, finishHandler w (serTransition p.toNat k ((s.serExpecting p es).setSer p.toNat u)) = .next (t.serExpecting p es)) :
    SerServes p [(serEvent p k, k)] s t := by
  intro rest
  obtain ⟨w, hw⟩ := run_serService h hu hf he rest
  exact hw.trans (ht w rest)

/-! The services of a transmission -/

section Services
variable (h : s.Transmits p) (hu : s.serAt p.toNat = u) (hf : u.sifReg = 0#2)
include h hu hf

/-- 43_serial_tx.md R115. -/
theorem arm (he : u.sien.getLsbD 0 = true) (hst : u.serState = .init) :
    SerServes p [(.serTxbl p, .txbl)] s (s.afterSerHandler p.toNat { u with serState := .sendData } []) :=
  event (k := .txbl) h hu hf he fun w es => finish_txbl_init (s := s.serExpecting p es) w u h.has hst

/-- 43_serial_tx.md R116, of a byte that is not the last. -/
theorem sendOne (he : u.sien.getLsbD 0 = true) (hst : u.serState = .sendData) (hidx : u.txIdx + 1#16 ≠ u.txLen) :
    SerServes p [(.serTxbl p, .txbl)] s
      (s.afterSerHandler p.toNat { u with txIdx := u.txIdx + 1#16 } [.serTxdata p.toNat (u.txbuf.getD u.txIdx.toNat 0#8)]) :=
  event (k := .txbl) h hu hf he fun w es => finish_txbl_sendData_more (s := s.serExpecting p es) w u h.has hst hidx

/-- 43_serial_tx.md R116, of the last byte. -/
theorem sendLast (he : u.sien.getLsbD 0 = true) (hst : u.serState = .sendData) (hidx : u.txIdx + 1#16 = u.txLen) :
    SerServes p [(.serTxbl p, .txbl)] s
      (s.afterSerHandler p.toNat { u with txIdx := u.txIdx + 1#16, sien := 0b10#2, serState := .stopClose }
        [.serTxdata p.toNat (u.txbuf.getD u.txIdx.toNat 0#8)]) :=
  event (k := .txbl) h hu hf he fun w es => finish_txbl_sendData_last (s := s.serExpecting p es) w u h.has hst hidx

/-- 43_serial_tx.md R116: the bytes left to send are sent one by one, and the last swaps the enables. -/
theorem sendAll {b : Byte} {bs past : List Byte} (he : u.sien.getLsbD 0 = true) (hst : u.serState = .sendData)
    (hlen : u.txLen.toNat = u.txIdx.toNat + bs.length + 1) (hleft : u.txbuf.drop u.txIdx.toNat = b :: bs ++ past) :
    SerServes p (List.replicate (bs.length + 1) (.serTxbl p, .txbl)) s
      (s.afterSerHandler p.toNat { u with txIdx := u.txLen, sien := 0b10#2, serState := .stopClose }
        ((b :: bs).map (Action.serTxdata p.toNat))) := by
  induction bs generalizing s u b with
  | nil =>
    have hlast : u.txIdx + 1#16 = u.txLen := by
      rw [List.length_nil] at hlen
      bv_omega
    have hone := sendLast h hu hf he hst hlast
    rw [(getD_of_drop_eq_cons hleft).1, hlast] at hone
    exact hone
  | cons b' bs ih =>
    rw [List.length_cons] at hlen
    have hmore : u.txIdx + 1#16 ≠ u.txLen := by bv_omega
    have hnext : (u.txIdx + 1#16).toNat = u.txIdx.toNat + 1 := by bv_omega
    obtain ⟨hbyte, htail⟩ := getD_of_drop_eq_cons hleft
    have hone := sendOne h hu hf he hst hmore
    rw [hbyte] at hone
    have hrest := ih (u := { u with txIdx := u.txIdx + 1#16 }) (h.afterSerHandler _ [.serTxdata p.toNat b])
      (State.serAt_afterSerHandler h.has) hf he hst (by simp only [hnext]; omega) (by simp only [hnext]; exact htail)
    have hall := hone.append hrest
    rw [State.afterSerHandler_afterSerHandler] at hall
    exact hall

/-- 43_serial_tx.md R117. -/
theorem finish (he : u.sien.getLsbD 1 = true) (hst : u.serState = .stopClose) :
    SerServes p [(.serTxc p, .txc)] s
      { s.afterSerHandler p.toNat { u with stxen := false, serBusy := false, serState := .init } [.serTxdis p.toNat] with
        cnt := (s.unblock s.cfg.serDepth).cnt, pending := s.pending ||| s.cfg.evtTxDone.getD p.toNat 0#32 } := by
  refine event (k := .txc) h hu hf he fun w es => (finish_txc_stopClose (s := s.serExpecting p es) w u h.has hst).trans ?_
  simp only [State.unblock_cnt]
  rfl

end Services

end State.SerServes

/-- 43_serial_tx.md R119: the services of the whole transmission, one after another. -/
theorem serves_transmitEvents {s : State} {p : BitVec 4} {u : SerUnit} {b : Byte} {bs past : List Byte} (h : s.Transmits p)
    (hu : s.serAt p.toNat = u) (hf : u.sifReg = 0#2) (he : u.sien.getLsbD 0 = true) (hst : u.serState = .init) (hidx : u.txIdx = 0#16)
    (hlen : u.txLen.toNat = bs.length + 1) (hbuf : u.txbuf = b :: bs ++ past) :
    State.SerServes p (transmitEvents p (bs.length + 1)) s
      { s.afterSerHandler p.toNat
          { u with txIdx := u.txLen, sien := 0b10#2, stxen := false, serBusy := false, serState := .init }
          ((b :: bs).map (Action.serTxdata p.toNat) ++ [.serTxdis p.toNat]) with
        cnt := (s.unblock s.cfg.serDepth).cnt, pending := s.pending ||| s.cfg.evtTxDone.getD p.toNat 0#32 } := by
  have harmed := State.SerServes.arm h hu hf he hst
  have hsent := State.SerServes.sendAll (u := { u with serState := .sendData }) (h.afterSerHandler _ [])
    (State.serAt_afterSerHandler h.has) hf he rfl (by simpa [hidx] using hlen) (by simpa [hidx] using hbuf)
  have hchain := harmed.append hsent
  rw [State.afterSerHandler_afterSerHandler] at hchain
  have htxc : (0b10#2).getLsbD 1 = true := by decide
  have hended := hchain.append (State.SerServes.finish (h.afterSerHandler _ _) (State.serAt_afterSerHandler h.has) hf htxc rfl)
  rw [State.afterSerHandler_afterSerHandler] at hended
  simp only [State.unblock_cnt] at hended ⊢
  exact hended

/-- Settles O43: the run is the chain of services that `serves_transmitEvents` gives, from the events and moves at hand to none. -/
theorem transmissionSendsItsBytes : Obligations.TransmissionSendsItsBytes := by
  intro s p bytes hinv hh hp hbusy hst hflags he hcount htake hport hmoves
  have hs := s.inv_iff_sound.1 hinv
  have hlt : p.toNat < s.ser.length := hs.serLength ▸ hp
  obtain ⟨-, -, hlen, hidx, -⟩ := hs.serAt p.toNat
  obtain ⟨hpos, -⟩ := hlen hbusy
  obtain ⟨b, bs, rfl⟩ : ∃ b bs, bytes = b :: bs := List.exists_cons_of_length_pos (hcount ▸ hpos)
  have hbuf := List.take_append_drop (b :: bs).length (s.serAt p.toNat).txbuf
  rw [htake] at hbuf
  have hserves := serves_transmitEvents ⟨hh, hp, hlt⟩ rfl hflags he hst (hidx hbusy hst) hcount hbuf.symm
  have hstart : s.serExpecting p (transmitEvents p (bs.length + 1)) = s := by
    rw [State.serExpecting, ← List.length_cons, ← hport, ← hmoves]
  have hrun := hserves []
  rw [List.append_nil, hstart, ← List.length_cons, ← hmoves] at hrun
  have hat (v : SerUnit) : (s.setSer p.toNat v).serAt p.toNat = v := State.serAt_setSer_same hlt
  exact ⟨_, hrun, hh, rfl, rfl, (List.append_assoc _ _ _).symm, congrArg SerUnit.serBusy (hat _), congrArg SerUnit.serState (hat _),
    congrArg SerUnit.stxen (hat _), rfl, State.unblock_counts hs.serDepth_lt rfl⟩

end Sys2Proof.Machine
end

section
/-! Who ends a transmission (43_serial_tx.md R117, 60_exceptions.md R136): every effect keeps a busy serial engine busy, but for the
transmit-complete handler in `STOP_CLOSE`. -/

namespace Sys2Proof.Machine

/-- Serial engine `p`, where it is busy in `s`, is busy in `t`. -/
def State.StaysTransmitting (p : Nat) (s t : State) : Prop := (s.serAt p).serBusy = true → (t.serAt p).serBusy = true

namespace State.StaysTransmitting
variable {p : Nat} {s t u : State}

/-- An engine is busy only if it is one of the machine's. -/
theorem lt_of_busy (h : (s.serAt p).serBusy = true) : p < s.ser.length := by
  by_contra hp
  simp [State.serAt, hp, SerUnit.reset] at h

theorem of_ser (h : t.ser = s.ser) : StaysTransmitting p s t := by
  intro hb
  have hlt := lt_of_busy hb
  unfold State.serAt at hb ⊢
  rw [h]
  simpa [hlt] using hb

theorem trans (h : StaysTransmitting p s t) (h' : StaysTransmitting p t u) : StaysTransmitting p s u := fun hb => h' (h hb)

/-- A write to another engine, or one that leaves the engine busy where it was. -/
theorem setSer {q : Nat} {v : SerUnit} (hv : q = p → (s.serAt q).serBusy = true → v.serBusy = true) :
    StaysTransmitting p s (s.setSer q v) := by
  intro hb
  by_cases hqp : q = p
  · subst hqp
    rw [State.serAt_setSer_same (lt_of_busy hb)]
    exact hv rfl hb
  · rwa [State.serAt_setSer_other (Ne.symm hqp)]

/-- 43_serial_tx.md R112: a start leaves its engine busy. -/
theorem serEffects (q : Nat) (bytes : List Byte) (s : State) : StaysTransmitting p s (serEffects q bytes s) :=
  (setSer (q := q) (v := (s.serAt q).start bytes) fun _ _ => rfl).trans (of_ser rfl)

/-! Commands -/

theorem serStartBody {q : Nat} {bytes : List Byte} (ht : serStartBody q bytes s = .ok t) : StaysTransmitting p s t := by
  unfold Machine.serStartBody at ht
  split_ifs at ht
  · cases ht
    exact of_ser rfl
  · obtain ⟨-, hb⟩ | ⟨-, hb⟩ := serBegin_cases q bytes s <;> rw [hb] at ht <;> cases ht
    exact (serEffects q bytes s).trans (of_ser (State.respond_ser _ _))

theorem qPopFrame {q : Nat} {diag : Bool} {lb : Nat} (ht : qPopFrame q diag lb s = .ok t) : StaysTransmitting p s t := by
  unfold Machine.qPopFrame at ht
  cases diag with
  | false =>
    simp only at ht
    split_ifs at ht
    cases ht
    exact ((of_ser (s.setQueue_ser q _)).trans (serEffects q _ (s.setQueue q _))).trans (of_ser (State.respond_ser _ _))
  | true =>
    simp only at ht
    split_ifs at ht
    cases ht
    exact of_ser rfl

theorem qPopBody {q : Nat} {diag : Bool} (ht : qPopBody q diag s = .ok t) : StaysTransmitting p s t := by
  unfold Machine.qPopBody at ht
  simp only at ht
  split_ifs at ht
  · cases ht
    exact of_ser rfl
  · exact qPopFrame ht

end State.StaysTransmitting

theorem arbBlockBody_ser {h : Word} {d : Nat} {s t : State} (ht : arbBlockBody h d s = .ok t) : t.ser = s.ser := by
  unfold arbBlockBody at ht
  split_ifs at ht
  cases ht
  rfl

theorem arbUnblockBody_ser {h : Word} {d : Nat} {s t : State} (ht : arbUnblockBody h d s = .ok t) : t.ser = s.ser := by
  unfold arbUnblockBody at ht
  split_ifs at ht
  cases ht
  exact s.unblock_ser d

theorem busStartBody_ser {h : Word} {q : Nat} {addr : BitVec 7} {cmd : Byte} {dir : Dir} {count : BitVec 4} {dest ev : Word}
    {s t : State} (ht : busStartBody h q addr cmd dir count dest ev s = .ok t) : t.ser = s.ser := by
  unfold busStartBody at ht
  simp only at ht
  split_ifs at ht
  cases ht
  simp

theorem qPushBody_ser {q : Nat} {payload : List Byte} {s t : State} (ht : qPushBody q payload s = .ok t) : t.ser = s.ser := by
  unfold qPushBody at ht
  split_ifs at ht
  cases ht
  rfl

/-- 60_exceptions.md R136: the rule of a command ends no transmission. -/
theorem commandBody_staysTransmitting {p : Nat} {i : Instr} {s t : State} (h : commandBody s i = .ok t) :
    State.StaysTransmitting p s t := by
  cases i with
  | serStart => exact .serStartBody h
  | qPop => exact .qPopBody h
  | busStart => exact .of_ser (busStartBody_ser h)
  | arbBlock => exact .of_ser (arbBlockBody_ser h)
  | arbUnblock => exact .of_ser (arbUnblockBody_ser h)
  | qPush => exact .of_ser (qPushBody_ser h)
  | arbEnter =>
    cases h
    exact .of_ser (by rw [State.sleepAt_eq]; rfl)
  | busReset =>
    cases h
    exact .of_ser (by rw [busResetBody_eq])
  | schedOpen | schedPost | schedClear | schedPoll | arbOpen | arbFloor | busBusy | serBusy | qOpen | qFree =>
    cases h
    exact .of_ser rfl

theorem exec_staysTransmitting {p : Nat} {i : Instr} {s t : State} (h : exec i s = .next t) : State.StaysTransmitting p s t := by
  rw [exec_eq_runCommand] at h
  obtain ⟨f, -, hr⟩ | ⟨f, -, -, hr⟩ | ⟨u, -, hu, hr⟩ := runCommand_cases i s (commandBody s i) <;> rw [hr] at h <;> cases h
  · exact .of_ser rfl
  · exact .of_ser rfl
  · exact (commandBody_staysTransmitting hu).trans (.of_ser u.endCommand_ser)

theorem commandStep_staysTransmitting {p : Nat} {c : Ctx} {s t : State} (h : commandStep c s = .next t) :
    State.StaysTransmitting p s t := by
  unfold commandStep at h
  split at h
  · cases h
    exact .of_ser rfl
  · cases h
    exact .of_ser rfl
  · next i u hf =>
    obtain ⟨-, rest, -, rfl⟩ := fetchCommand_command hf
    exact (State.StaysTransmitting.of_ser (s.takeFrom_ser c rest)).trans (exec_staysTransmitting h)

/-! Handler steps -/

/-- 43_serial_tx.md R116. -/
theorem SerUnit.advance_serBusy (u : SerUnit) : u.advance.serBusy = u.serBusy := by
  by_cases h : u.txIdx + 1#16 = u.txLen
  · rw [SerUnit.advance_of_eq h]
  · rw [SerUnit.advance_of_ne h]

/-- Of the transitions of R114 only TXC in `STOP_CLOSE` clears the busy flag, and of its own engine. -/
theorem serTransition_staysTransmitting {p q : Nat} {k : SerFlag} {s t : State} (h : serTransition q k s = .ok t) :
    State.StaysTransmitting p s t ∨ (q = p ∧ k = .txc ∧ (s.serAt q).serState = .stopClose) := by
  unfold serTransition at h
  split at h
  case h_1 =>
    cases h
    exact .inl (.setSer fun _ => id)
  case h_2 =>
    cases h
    exact .inl (.trans (.of_ser (s.emit_ser _)) (.setSer fun _ => (SerUnit.advance_serBusy _).trans))
  case h_3 hst =>
    cases h
    by_cases hqp : q = p
    · exact .inr ⟨hqp, rfl, hst⟩
    · refine .inl ((State.StaysTransmitting.setSer (q := q) (v := { s.serAt q with stxen := false, serBusy := false, serState := .init })
        fun e => absurd e hqp).trans (.of_ser ?_))
      simp
  case h_4 => cases h

theorem serHandler_staysTransmitting {p q : Nat} {k : SerFlag} {s t : State} (h : serHandler q k s = .next t) :
    State.StaysTransmitting p s t ∨ (q = p ∧ k = .txc ∧ (s.serAt q).serState = .stopClose) := by
  unfold serHandler at h
  split at h
  · next hk =>
    have hat : (s.setSer q ((s.serAt q).clearFlag k)).serAt q = (s.serAt q).clearFlag k :=
      State.serAt_setSer_same (State.enabled_ser_lt hk)
    have hclear : State.StaysTransmitting p s (s.setSer q ((s.serAt q).clearFlag k)) := .setSer fun _ => id
    obtain ⟨u, hu, rfl⟩ | ⟨f, -, rfl⟩ := finishHandler_next h
    · obtain hbusy | ⟨hqp, hk, hst⟩ := serTransition_staysTransmitting (p := p) hu
      · exact .inl (hclear.trans hbusy)
      · rw [hat] at hst
        exact .inr ⟨hqp, hk, hst⟩
    · exact .inl (.of_ser rfl)
  · cases h
    exact .inl (.of_ser rfl)

theorem busStoreHigh_ser {q : Nat} {s t : State} (h : busStoreHigh q s = .ok t) : t.ser = s.ser := by
  unfold busStoreHigh at h
  simp only at h
  split at h
  · cases h
  · next u hw =>
    cases h
    obtain ⟨-, rfl⟩ := State.memWrite_eq_some hw
    rfl

theorem busMergeLow_ser {q : Nat} {s t : State} (h : busMergeLow q s = .ok t) : t.ser = s.ser := by
  unfold busMergeLow at h
  simp only at h
  split at h
  · cases h
  · split at h
    · cases h
    · next u hw =>
      cases h
      obtain ⟨-, rfl⟩ := State.memWrite_eq_some hw
      rfl

theorem busRetry_ser {q : Nat} {s t : State} (h : busRetry q s = .ok t) : t.ser = s.ser := by
  unfold busRetry at h
  simp only at h
  split_ifs at h
  cases h
  rfl

theorem busTransition_ser {q : Nat} {k : BusFlag} {s t : State} (h : busTransition q k s = .ok t) : t.ser = s.ser := by
  unfold busTransition at h
  split at h
  case h_1 | h_2 | h_3 =>
    cases h
    rfl
  case h_4 => exact busRetry_ser h
  case h_5 => exact busStoreHigh_ser h
  case h_6 => exact busMergeLow_ser h
  case h_7 =>
    cases h
    exact s.unblock_ser _
  case h_8 => cases h

theorem busHandler_ser {q : Nat} {k : BusFlag} {s t : State} (h : busHandler q k s = .next t) : t.ser = s.ser := by
  unfold busHandler at h
  split at h
  · obtain ⟨u, hu, rfl⟩ | ⟨f, -, rfl⟩ := finishHandler_next h
    · have hser := busTransition_ser hu
      exact hser
    · rfl
  · cases h
    rfl

/-! The other steps -/

theorem applyEvent_staysTransmitting (p : Nat) (e : Event) (s : State) : State.StaysTransmitting p s (applyEvent e s) := by
  cases e with
  | busAck | busNack | busRx | busMstop | busIdle => exact .of_ser rfl
  | serTxbl | serTxc => exact .setSer fun _ => id

theorem eventStep_staysTransmitting {p : Nat} {s t : State} (h : eventStep s = .next t) : State.StaysTransmitting p s t := by
  unfold eventStep at h
  split at h
  · cases h
    exact .of_ser rfl
  · next w rest _ =>
    split at h <;> cases h
    exact applyEvent_staysTransmitting p _ { s with evtPort := rest }

/-- 43_serial_tx.md R112: the completion of SER.START leaves its engine busy, or raises a fault. -/
theorem serStartCompletion_staysTransmitting (p q : Nat) (bytes : List Byte) (s : State) :
    State.StaysTransmitting p s (serStartCompletion q bytes s) := by
  unfold serStartCompletion
  obtain ⟨-, hb⟩ | ⟨-, hb⟩ := serBegin_cases q bytes s <;> rw [hb]
  · exact .of_ser rfl
  · exact (State.StaysTransmitting.serEffects q bytes s).trans (.of_ser (State.respondTo_ser _ _ _))

theorem completionStep_staysTransmitting (p : Nat) (s : State) : State.StaysTransmitting p s (completionStep s) := by
  unfold completionStep
  split
  · exact .of_ser rfl
  · split_ifs
    · exact .of_ser rfl
    · exact serStartCompletion_staysTransmitting p _ _ s
  · split_ifs <;> exact .of_ser rfl

theorem hostStoreStep_ser (s : State) : (hostStoreStep s).ser = s.ser := by
  unfold hostStoreStep
  split
  · rfl
  · split_ifs <;> rfl

/-- Whatever step a move names, it keeps a busy serial engine busy, or is the one that R117 names. -/
theorem moveStep_staysTransmitting {p : Nat} {m : Move} {s t : State} (h : moveStep m s = .next t) :
    State.StaysTransmitting p s t ∨ (m = .serHandler p .txc ∧ (s.serAt p).serState = .stopClose) := by
  cases m with
  | command c => exact .inl (commandStep_staysTransmitting h)
  | event => exact .inl (eventStep_staysTransmitting h)
  | busHandler q k => exact .inl (.of_ser (busHandler_ser h))
  | serHandler q k =>
    obtain hbusy | ⟨rfl, rfl, hst⟩ := serHandler_staysTransmitting (p := p) h
    · exact .inl hbusy
    · exact .inr ⟨rfl, hst⟩
  | completion =>
    cases h
    exact .inl (completionStep_staysTransmitting p s)
  | hostStore =>
    cases h
    exact .inl (.of_ser (hostStoreStep_ser s))

/-- Settles O44: a step that ends a transmission is the one move that does not keep a busy engine busy. -/
theorem onlyTransmitCompleteEndsATransmission : Obligations.OnlyTransmitCompleteEndsATransmission := by
  intro s t p h hbusy hidle
  have hends : ¬State.StaysTransmitting p s t := fun hstays => Bool.false_ne_true (hidle.symm.trans (hstays hbusy))
  obtain ⟨-, ⟨-, rfl⟩ | ⟨m, rest, hm, hmove⟩⟩ := step_next h
  · exact absurd (.of_ser rfl) hends
  · rw [hm]
    obtain hstays | ⟨rfl, hst⟩ := moveStep_staysTransmitting (p := p) hmove
    · exact absurd hstays hends
    · exact ⟨rfl, hst⟩

end Sys2Proof.Machine
end

section
/-! The ring of a framed queue (44_framed_queue.md R121 and R122): its bytes from an index, what a push writes of them, and how many are
used. -/

namespace Sys2Proof.Machine

/-- `QCAP` is a power of two, so that masking with `QMASK` is the remainder modulo `QCAP` (10_state.md R35). -/
theorem Params.and_qmask {c : Params} (hl : c.legal = true) (n : Nat) : n &&& (c.qcap - 1) = n % c.qcap := by
  simp only [Params.legal, Bool.and_eq_true, isQueueCapacity, List.any_eq_true, decide_eq_true_eq] at hl
  obtain ⟨k, -, -, hk⟩ : ∃ k, k ∈ List.range 17 ∧ 1 ≤ k ∧ c.qcap = 2 ^ k := by tauto
  rw [hk, Nat.and_two_pow_sub_one_eq_mod]

theorem State.qmask_eq (s : State) : s.qmask = s.cfg.qcap - 1 := rfl

theorem length_frame (payload : List Byte) : (frame payload).length = payload.length + 1 := rfl

/-- The length byte tells the length of every payload that Q.PUSH takes (R124). -/
theorem toNat_lengthByte {payload : List Byte} (h : payload.length ≤ 254) :
    (BitVec.ofNat 8 (payload.length + 1)).toNat = payload.length + 1 := by
  rw [BitVec.toNat_ofNat, Nat.mod_eq_of_lt (by omega)]

/-! Bytes of the ring -/

/-- The byte of the ring at index `i`, modulo the capacity. -/
def QueueUnit.ringAt (cap : Nat) (u : QueueUnit) (i : Nat) : Byte := u.qbuf.getD (i % cap) 0#8

/-- The `n` bytes of the ring from index `r`. -/
def QueueUnit.ringFrom (cap : Nat) (u : QueueUnit) (r n : Nat) : List Byte := (List.range n).map fun i => u.ringAt cap (r + i)

section Ring
variable {cap : Nat} {u v : QueueUnit}

theorem QueueUnit.ringAt_mod (i : Nat) : u.ringAt cap (i % cap) = u.ringAt cap i := by
  rw [ringAt, ringAt, Nat.mod_mod]

theorem QueueUnit.ringAt_mod_add (i j : Nat) : u.ringAt cap (i % cap + j) = u.ringAt cap (i + j) := by
  rw [← ringAt_mod, Nat.mod_add_mod, ringAt_mod]

theorem QueueUnit.ringAt_add_cap (i : Nat) : u.ringAt cap (i + cap) = u.ringAt cap i := by
  rw [ringAt, ringAt, Nat.add_mod_right]

theorem QueueUnit.ringFrom_mod (r n : Nat) : u.ringFrom cap (r % cap) n = u.ringFrom cap r n := by
  simp only [ringFrom, ringAt_mod_add]

@[simp] theorem QueueUnit.length_ringFrom (r n : Nat) : (u.ringFrom cap r n).length = n := by
  simp [ringFrom]

theorem QueueUnit.ringFrom_add (r m n : Nat) : u.ringFrom cap r (m + n) = u.ringFrom cap r m ++ u.ringFrom cap (r + m) n := by
  simp [ringFrom, List.range_add, Nat.add_assoc]

theorem QueueUnit.ringFrom_succ (r n : Nat) : u.ringFrom cap r (n + 1) = u.ringAt cap r :: u.ringFrom cap (r + 1) n := by
  rw [Nat.add_comm n 1, ringFrom_add]
  simp [ringFrom]

theorem QueueUnit.ringFrom_congr {r n : Nat} (h : ∀ i, i < n → v.ringAt cap (r + i) = u.ringAt cap (r + i)) :
    v.ringFrom cap r n = u.ringFrom cap r n :=
  List.map_congr_left fun i hi => h i (List.mem_range.1 hi)

theorem QueueUnit.ringFrom_eq {r : Nat} {bytes : List Byte} (h : ∀ i, i < bytes.length → u.ringAt cap (r + i) = bytes.getD i 0#8) :
    u.ringFrom cap r bytes.length = bytes := by
  refine List.ext_getElem (length_ringFrom _ _) fun i hi hi' => ?_
  simp [ringFrom, h i hi', hi']

end Ring

/-- R125 reads the payload after the length byte. -/
theorem QueueUnit.payloadAt_eq {c : Params} (hl : c.legal = true) (u : QueueUnit) (r n : Nat) :
    u.payloadAt (c.qcap - 1) r n = u.ringFrom c.qcap (r + 1) n := by
  simp only [payloadAt, ringFrom, ringAt, Params.and_qmask hl]

/-! The bytes a push writes -/

section Put
variable {c : Params} {u : QueueUnit}

/-- The write of one byte: `r` is any index that lands on the write index. -/
theorem QueueUnit.ringAt_put (h : u.Sound c) (b : Byte) {r : Nat} (hr : r % c.qcap = u.qwr) (i : Nat) :
    (u.put (c.qcap - 1) b).ringAt c.qcap i = if i % c.qcap = r % c.qcap then b else u.ringAt c.qcap i := by
  obtain ⟨⟨hlen, -⟩, -, hwr, -⟩ := h
  have hlt : u.qwr < u.qbuf.length := hlen ▸ hwr
  simp only [ringAt, put, List.getD_eq_getElem?_getD, List.getElem?_set, hr, if_pos hlt, eq_comm (a := u.qwr)]
  split_ifs <;> rfl

/-- Bytes written in turn change the ring and the write index, which moves past them. -/
theorem QueueUnit.foldl_put_eq (hl : c.legal = true) (h : u.Sound c) (bytes : List Byte) :
    bytes.foldl (put (c.qcap - 1)) u = { u with
      qbuf := (bytes.foldl (put (c.qcap - 1)) u).qbuf, qwr := (u.qwr + bytes.length) % c.qcap } := by
  obtain ⟨-, -, hwr, -⟩ := h
  induction bytes using List.reverseRecOn with
  | nil => simp [Nat.mod_eq_of_lt hwr]
  | append_singleton bytes b ih =>
    rw [List.foldl_append, List.foldl_cons, List.foldl_nil, ih]
    simp [put, Params.and_qmask hl, Nat.add_assoc]

theorem QueueUnit.Sound.foldl_put (h : u.Sound c) (bytes : List Byte) : (bytes.foldl (QueueUnit.put (c.qcap - 1)) u).Sound c :=
  List.foldlRecOn bytes _ h fun _ hu b _ => hu.put b

/-- Bytes written in turn are read back from the old write index on; no other byte of the ring changes. -/
theorem QueueUnit.ringAt_foldl_put (hl : c.legal = true) (h : u.Sound c) {bytes : List Byte} (hb : bytes.length ≤ c.qcap) {i : Nat}
    (hi : i < c.qcap) :
    (bytes.foldl (put (c.qcap - 1)) u).ringAt c.qcap (u.qwr + i)
      = if i < bytes.length then bytes.getD i 0#8 else u.ringAt c.qcap (u.qwr + i) := by
  induction bytes using List.reverseRecOn with
  | nil => simp
  | append_singleton bytes b ih =>
    rw [List.length_append, List.length_singleton] at hb
    have hqwr : (bytes.foldl (put (c.qcap - 1)) u).qwr = (u.qwr + bytes.length) % c.qcap := by rw [foldl_put_eq hl h]
    rw [List.foldl_append, List.foldl_cons, List.foldl_nil, ringAt_put (Sound.foldl_put h bytes) b hqwr.symm, ih (by omega)]
    have hsame : (u.qwr + i) % c.qcap = (u.qwr + bytes.length) % c.qcap ↔ i = bytes.length :=
      ⟨fun he => Nat.ModEq.eq_of_lt_of_lt (Nat.ModEq.add_left_cancel' _ he) hi hb, fun he => he ▸ rfl⟩
    obtain hlt | rfl | hgt := Nat.lt_trichotomy i bytes.length
    · simp [hsame, hlt, hlt.ne, Nat.lt_succ_of_lt hlt]
    · simp
    · simp [hsame, hgt.ne', Nat.not_lt_of_lt hgt, Nat.not_lt_of_le hgt]

/-! The frame of a push, and the ring after it (R124) -/

theorem QueueUnit.putFrame_eq (hl : c.legal = true) (h : u.Sound c) (payload : List Byte) :
    u.putFrame (c.qcap - 1) payload = { u with
      qbuf := (u.putFrame (c.qcap - 1) payload).qbuf, qwr := (u.qwr + (payload.length + 1)) % c.qcap } :=
  foldl_put_eq hl h (frame payload)

theorem QueueUnit.ringAt_putFrame (hl : c.legal = true) (h : u.Sound c) {payload : List Byte} (hp : payload.length + 1 ≤ c.qcap) {i : Nat}
    (hi : i < c.qcap) :
    (u.putFrame (c.qcap - 1) payload).ringAt c.qcap (u.qwr + i)
      = if i < payload.length + 1 then (frame payload).getD i 0#8 else u.ringAt c.qcap (u.qwr + i) :=
  ringAt_foldl_put hl h (bytes := frame payload) hp hi

end Put

/-! Used bytes -/

/-- The used bytes (R122): the difference of the indices modulo the capacity. -/
def QueueUnit.usedLength (cap : Nat) (u : QueueUnit) : Nat := (u.qwr + (cap - u.qrd)) % cap

theorem State.used_eq {s : State} (hl : s.cfg.legal = true) (q : Nat) : s.used q = (s.queueAt q).usedLength s.cfg.qcap :=
  Params.and_qmask hl _

theorem QueueUnit.usedBytes_eq (cap : Nat) (u : QueueUnit) : u.usedBytes cap = u.ringFrom cap u.qrd (u.usedLength cap) := rfl

section Used
variable {c : Params} {u : QueueUnit}

theorem QueueUnit.Sound.usedLength_lt (h : u.Sound c) : u.usedLength c.qcap < c.qcap := by
  obtain ⟨-, hrd, -, -⟩ := h
  exact Nat.mod_lt _ (Nat.zero_lt_of_lt hrd)

/-- The used bytes lead from the read index to the write index. -/
theorem QueueUnit.Sound.qrd_add_usedLength (h : u.Sound c) : (u.qrd + u.usedLength c.qcap) % c.qcap = u.qwr := by
  obtain ⟨-, hrd, hwr, -⟩ := h
  have hsum : u.qrd + (u.qwr + (c.qcap - u.qrd)) = u.qwr + c.qcap := by omega
  rw [QueueUnit.usedLength, Nat.add_mod_mod, hsum, Nat.add_mod_right, Nat.mod_eq_of_lt hwr]

/-- An index counted from the read index, counted from the write index. -/
theorem QueueUnit.Sound.ringAt_qrd_add (h : u.Sound c) (v : QueueUnit) (i : Nat) :
    v.ringAt c.qcap (u.qrd + i) = v.ringAt c.qcap (u.qwr + (c.qcap - u.usedLength c.qcap + i)) := by
  have hlt := h.usedLength_lt
  have hsum : u.qrd + u.usedLength c.qcap + (c.qcap - u.usedLength c.qcap + i) = u.qrd + i + c.qcap := by omega
  rw [← h.qrd_add_usedLength, QueueUnit.ringAt_mod_add, hsum, QueueUnit.ringAt_add_cap]

/-- Whatever leads from the read index to the write index is the used bytes, modulo the capacity. -/
theorem QueueUnit.Sound.usedLength_eq (h : u.Sound c) {n : Nat} (hn : (u.qrd + n) % c.qcap = u.qwr) :
    u.usedLength c.qcap = n % c.qcap := by
  obtain ⟨-, hrd, -, -⟩ := h
  have hsum : u.qrd + n + (c.qcap - u.qrd) = n + c.qcap := by omega
  rw [QueueUnit.usedLength, ← hn, Nat.mod_add_mod, hsum, Nat.add_mod_right]

theorem QueueUnit.usedLength_putFrame (hl : c.legal = true) (h : u.Sound c) (payload : List Byte) :
    (u.putFrame (c.qcap - 1) payload).usedLength c.qcap = (u.usedLength c.qcap + (payload.length + 1)) % c.qcap := by
  refine (h.putFrame payload).usedLength_eq ?_
  rw [putFrame_eq hl h, ← Nat.add_assoc, ← Nat.mod_add_mod, h.qrd_add_usedLength]

end Used

/-! A frame leaves the queue at the read index (R125 and R128) -/

/-- The queue whose read index has passed `n` more bytes (R125). -/
def QueueUnit.discard (cap n : Nat) (u : QueueUnit) : QueueUnit := { u with qrd := (u.qrd + n) % cap }

section Discard
variable {c : Params} {u : QueueUnit}

theorem QueueUnit.Sound.discard (h : u.Sound c) (n : Nat) : (u.discard c.qcap n).Sound c := by
  obtain ⟨hlen, hrd, hwr, hdiag⟩ := h
  exact ⟨hlen, Nat.mod_lt _ (Nat.zero_lt_of_lt hrd), hwr, hdiag⟩

theorem QueueUnit.usedBytes_discard (h : u.Sound c) {n : Nat} (hn : n ≤ u.usedLength c.qcap) :
    (u.discard c.qcap n).usedBytes c.qcap = u.ringFrom c.qcap (u.qrd + n) (u.usedLength c.qcap - n) := by
  have hlead : ((u.qrd + n) % c.qcap + (u.usedLength c.qcap - n)) % c.qcap = u.qwr := by
    rw [Nat.mod_add_mod, Nat.add_assoc, Nat.add_sub_cancel' hn, h.qrd_add_usedLength]
  have hlt := h.usedLength_lt
  have hused : (u.discard c.qcap n).usedLength c.qcap = u.usedLength c.qcap - n := by
    rw [(h.discard n).usedLength_eq hlead, Nat.mod_eq_of_lt (by omega)]
  rw [usedBytes_eq, hused]
  exact ringFrom_mod _ _

/-- The frame at the read index of a queue that holds one (R121), and what the queue holds without it. -/
theorem QueueUnit.Holds.oldest (h : u.Sound c) {payload : List Byte} {rest : List (List Byte)}
    (hh : u.Holds c.qcap (payload :: rest)) :
    payload.length ≤ 254 ∧ payload.length + 1 ≤ u.usedLength c.qcap
      ∧ u.ringAt c.qcap u.qrd = BitVec.ofNat 8 (payload.length + 1) ∧ u.ringFrom c.qcap (u.qrd + 1) payload.length = payload
      ∧ (u.discard c.qcap (payload.length + 1)).Holds c.qcap rest := by
  obtain ⟨hbytes, hmax⟩ := hh
  rw [usedBytes_eq, List.flatMap_cons] at hbytes
  have hle : payload.length + 1 ≤ u.usedLength c.qcap := by
    have hlen := congrArg List.length hbytes
    rw [length_ringFrom, List.length_append, length_frame] at hlen
    omega
  rw [← Nat.add_sub_cancel' hle, ringFrom_add] at hbytes
  obtain ⟨hframe, hrest⟩ := List.append_inj hbytes (by rw [length_ringFrom, length_frame])
  rw [ringFrom_succ, frame, List.cons.injEq] at hframe
  obtain ⟨hlb, hpayload⟩ := hframe
  refine ⟨hmax _ List.mem_cons_self, hle, hlb, hpayload, ?_, fun p hp => hmax p (List.mem_cons_of_mem _ hp)⟩
  rw [usedBytes_discard h hle, hrest]

end Discard

/-! A frame joins the queue at the write index (R124 and R128) -/

/-- Where room is to spare, the used bytes after a push are those before it and the frame (R128). -/
theorem QueueUnit.Holds.putFrame {c : Params} {u : QueueUnit} (hl : c.legal = true) (h : u.Sound c) {held : List (List Byte)}
    (hh : u.Holds c.qcap held) {payload : List Byte} (hp : payload.length ≤ 254)
    (hroom : u.usedLength c.qcap + (payload.length + 1) < c.qcap) : (u.putFrame (c.qcap - 1) payload).Holds c.qcap (held ++ [payload]) := by
  obtain ⟨hbytes, hlen⟩ := hh
  have hqrd : (u.putFrame (c.qcap - 1) payload).qrd = u.qrd := by rw [putFrame_eq hl h]
  have hused : (u.putFrame (c.qcap - 1) payload).usedLength c.qcap = u.usedLength c.qcap + (payload.length + 1) := by
    rw [usedLength_putFrame hl h, Nat.mod_eq_of_lt hroom]
  have hold : (u.putFrame (c.qcap - 1) payload).ringFrom c.qcap u.qrd (u.usedLength c.qcap) = held.flatMap frame := by
    rw [← hbytes, usedBytes_eq]
    refine ringFrom_congr fun i hi => ?_
    rw [h.ringAt_qrd_add _ i, h.ringAt_qrd_add u i, ringAt_putFrame hl h (by omega) (by omega), if_neg (by omega)]
  have hnew : (u.putFrame (c.qcap - 1) payload).ringFrom c.qcap (u.qrd + u.usedLength c.qcap) (payload.length + 1) = frame payload := by
    rw [← ringFrom_mod, h.qrd_add_usedLength]
    refine ringFrom_eq (bytes := frame payload) fun i hi => ?_
    rw [length_frame] at hi
    rw [ringAt_putFrame hl h (by omega) (by omega), if_pos hi]
  refine ⟨?_, ?_⟩
  · rw [usedBytes_eq, hqrd, hused, ringFrom_add, hold, hnew, List.flatMap_append, List.flatMap_singleton]
  · simpa [or_imp, forall_and] using ⟨hlen, hp⟩

end Sys2Proof.Machine
end

section
/-! The commands of the framed queue (44_framed_queue.md): what Q.PUSH writes, what Q.POP takes, what Q.FREE responds, and when each
refuses. -/

namespace Sys2Proof.Machine

/-! The queue and its free space -/

/-- A queue the machine has meets the invariant's clauses on queues where its lengths and indices do. -/
theorem State.queueAt_sound {s : State} (hs : s.ShapeOk) (hi : s.IndicesInRange) {q : Nat} (hq : q < s.cfg.nSer) :
    (s.queueAt q).Sound s.cfg := by
  obtain ⟨-, -, -, hqueue, -, hlen⟩ := hs
  have hmem := State.queueAt_mem (hqueue ▸ hq)
  exact ⟨hlen _ hmem, hi _ hmem⟩

theorem State.free_eq {s : State} (hl : s.cfg.legal = true) (q : Nat) :
    s.free q = s.cfg.qcap - (s.queueAt q).usedLength s.cfg.qcap := by
  rw [State.free, State.used_eq hl]

/-- The mask keeps the used bytes below the capacity, whatever the state. -/
theorem State.used_le (s : State) (q : Nat) : s.used q ≤ s.cfg.qcap := Nat.and_le_right.trans (Nat.sub_le _ _)

@[simp] theorem State.completed_queueAt (s : State) (v : Word) (q : Nat) : (s.completed v).queueAt q = s.queueAt q := rfl

@[simp] theorem State.completed_free (s : State) (v : Word) (q : Nat) : (s.completed v).free q = s.free q := rfl

/-! Q.FREE -/

/-- 44_framed_queue.md R126, from either context. -/
theorem exec_qFree {s : State} {q : BitVec 4} (hq : q.toNat < s.cfg.nSer) :
    exec (.qFree q) s = .next (s.completed (BitVec.ofNat 32 (s.free q.toNat))) :=
  exec_query rfl (decide_eq_true hq) rfl

/-- The difference of the indices as an integer (R122). -/
theorem QueueUnit.Sound.cast_usedLength {c : Params} {u : QueueUnit} (h : u.Sound c) :
    (u.usedLength c.qcap : Int) = ((u.qwr : Int) - u.qrd) % c.qcap := by
  obtain ⟨-, hrd, -, -⟩ := h
  have hsum : (u.qwr : Int) + (c.qcap - u.qrd) = u.qwr - u.qrd + c.qcap := by ring
  rw [QueueUnit.usedLength, Int.natCast_emod, Int.natCast_add, Int.natCast_sub hrd.le, hsum, Int.add_emod_right]

/-- Settles O51: the used bytes are below the capacity. -/
theorem qFreeRespondsTheFreeSpace : Obligations.QFreeRespondsTheFreeSpace := by
  intro s q hl hs hi hq
  have h := State.queueAt_sound hs hi hq
  have hlt := h.usedLength_lt
  refine ⟨_, exec_qFree hq, ?_⟩
  rw [State.free_eq hl, Nat.sub_sub_self hlt.le, h.cast_usedLength]
  exact ⟨by omega, Nat.sub_le _ _, rfl⟩

/-! Q.PUSH -/

section Push
variable {q : Nat} {payload : List Byte} {s : State}

theorem qPushBody_of_long (h : 254 < payload.length) :
    qPushBody q payload s = .error (faultInfoOf .frameLength 4#4 q (BitVec.ofNat 32 payload.length)) :=
  if_pos h

theorem qPushBody_of_full (h : payload.length ≤ 254) (hfull : s.free q < payload.length + 1) :
    qPushBody q payload s = .error (faultInfoOf .queueOverflow 4#4 q (BitVec.ofNat 32 payload.length)) := by
  rw [qPushBody, if_neg (Nat.not_lt_of_le h), if_pos hfull]

theorem qPushBody_of_fits (h : payload.length ≤ 254) (hroom : payload.length + 1 ≤ s.free q) :
    qPushBody q payload s = .ok ((s.setQueue q ((s.queueAt q).putFrame (s.cfg.qcap - 1) payload)).respond 0#32) := by
  rw [qPushBody, if_neg (Nat.not_lt_of_le h), if_neg (Nat.not_lt_of_le hroom), State.qmask_eq]

end Push

/-- 44_framed_queue.md R124, of a payload that fits. -/
theorem exec_qPush {s : State} {q : BitVec 4} {payload : List Byte} (hc : s.ctx = .fg) (hq : q.toNat < s.cfg.nSer)
    (h : payload.length ≤ 254) (hroom : payload.length + 1 ≤ s.free q.toNat) :
    exec (.qPush q payload) s
      = .next ((s.setQueue q.toNat ((s.queueAt q.toNat).putFrame (s.cfg.qcap - 1) payload)).completed 0#32) :=
  exec_completed (State.admission_of_fg hc (decide_eq_true hq)) (qPushBody_of_fits h hroom)

/-- Settles O45: the ring after a push, byte by byte, is that of `QueueUnit.ringAt_putFrame`. -/
theorem qPushWritesTheFrame : Obligations.QPushWritesTheFrame := by
  intro s q pay hc hl hs hi hq hlen hroom
  have h := State.queueAt_sound hs hi hq
  have hfit : pay.length + 1 ≤ s.cfg.qcap := hroom.trans (Nat.sub_le _ _)
  obtain ⟨-, -, -, hqueue, -⟩ := hs
  refine ⟨_, exec_qPush hc hq hlen hroom, rfl, s.otherQueuesKept_setQueue _ _, ?_⟩
  rw [State.queueAt_setQueue_same (hqueue ▸ hq)]
  refine ⟨QueueUnit.putFrame_eq hl h pay, (h.putFrame pay).1.1, fun i hi => ?_, fun i hlt hi => ?_⟩
  · exact (QueueUnit.ringAt_putFrame hl h hfit (by omega)).trans (if_pos (by omega))
  · exact (QueueUnit.ringAt_putFrame hl h hfit hi).trans (if_neg (by omega))

/-- Settles O52: the ring after a push holds what `QueueUnit.Holds.putFrame` says. -/
theorem pushAppendsToTheHeldPayloads : Obligations.PushAppendsToTheHeldPayloads := by
  intro s t q pay held hinv hc hq hheld hlen hroom ht
  have hs := (State.inv_iff_sound s).1 hinv
  cases (exec_qPush hc hq hlen hroom.le).symm.trans ht
  rw [State.free_eq hs.legal] at hroom
  have hput := hheld.putFrame hs.legal (hs.queueAt q.toNat) hlen (by omega)
  rwa [State.completed_queueAt, State.queueAt_setQueue_same (hs.queueLength ▸ hq)]

/-! Q.POP -/

theorem qPopBody_of_nothing {q : Nat} {diag : Bool} {s : State} (h : (s.serAt q).serBusy = true ∨ s.free q = s.cfg.qcap) :
    qPopBody q diag s = .ok (s.respond 0#32) :=
  if_pos h

/-- Settles O47: the rule of a pop of nothing is a response alone. -/
theorem qPopOfNothingChangesNothing : Obligations.QPopOfNothingChangesNothing :=
  fun _ _ _ hc hq h => exec_completed (State.admission_of_fg hc (decide_eq_true hq)) (qPopBody_of_nothing h)

/-- Settles O46: the used bytes are then the capacity, which is 0 modulo the capacity. -/
theorem exactFillReadsAsEmpty : Obligations.ExactFillReadsAsEmpty := by
  intro s q pay hc hinv hq hlen hfill
  have hs := (State.inv_iff_sound s).1 hinv
  have h := hs.queueAt q.toNat
  have hlt := h.usedLength_lt
  have hempty : (s.setQueue q.toNat ((s.queueAt q.toNat).putFrame (s.cfg.qcap - 1) pay)).free q.toNat = s.cfg.qcap := by
    rw [State.free_eq hs.legal] at hfill
    have hsum : (s.queueAt q.toNat).usedLength s.cfg.qcap + (pay.length + 1) = s.cfg.qcap := by omega
    rw [State.free_eq (by exact hs.legal), State.queueAt_setQueue_same (hs.queueLength ▸ hq), State.setQueue_cfg,
      QueueUnit.usedLength_putFrame hs.legal h, hsum, Nat.mod_self, Nat.sub_zero]
  refine ⟨_, exec_qPush hc hq hlen hfill.le, hempty, ?_, fun diag => ?_⟩
  · exact (exec_qFree (by exact hq)).trans (by rw [State.completed_free, hempty]; rfl)
  · exact qPopOfNothingChangesNothing _ _ _ hc hq (.inr hempty)

theorem qPopBody_of_corrupt {q : Nat} {diag : Bool} {s : State} {lb : Byte} (hidle : (s.serAt q).serBusy = false)
    (hfree : s.free q ≠ s.cfg.qcap) (hlb : lb = (s.queueAt q).qbuf.getD (s.queueAt q).qrd 0#8)
    (h : lb = 0#8 ∨ s.cfg.qcap < s.free q + lb.toNat) :
    qPopBody q diag s = .error (faultInfoOf .corruptFrame 4#4 q (lb.setWidth 32)) := by
  have hbad : lb.toNat = 0 ∨ lb.toNat > s.used q := by
    have hused := s.used_le q
    rw [State.free] at h
    obtain h0 | hlt := h
    · exact .inl (congrArg BitVec.toNat h0)
    · exact .inr (by omega)
  have hsome : ¬((s.serAt q).serBusy = true ∨ s.free q = s.cfg.qcap) := by simp [hidle, hfree]
  rw [qPopBody, if_neg hsome]
  simp only [← hlb, if_pos hbad, BitVec.ofNat_toNat]

section Held
variable {q : Nat} {s : State} {payload : List Byte} {rest : List (List Byte)}

/-- A pop finds the oldest frame of a queue that holds one (R125, R128). -/
theorem qPopBody_of_holds (hs : s.Sound) (hidle : (s.serAt q).serBusy = false)
    (hh : (s.queueAt q).Holds s.cfg.qcap (payload :: rest)) (diag : Bool) :
    qPopBody q diag s = qPopFrame q diag (payload.length + 1) s := by
  have h := hs.queueAt q
  obtain ⟨hlen, hle, hlb, -, -⟩ := hh.oldest h
  have hlt := h.usedLength_lt
  have hsome : ¬((s.serAt q).serBusy = true ∨ s.free q = s.cfg.qcap) := by
    simp only [State.free_eq hs.legal, hidle, Bool.false_eq_true, false_or]
    omega
  obtain ⟨-, hrd, -, -⟩ := h
  rw [QueueUnit.ringAt, Nat.mod_eq_of_lt hrd] at hlb
  have hgood : ¬(payload.length + 1 = 0 ∨ payload.length + 1 > s.used q) := by
    rw [State.used_eq hs.legal]
    omega
  rw [qPopBody, if_neg hsome]
  simp only [hlb, toNat_lengthByte hlen, if_neg hgood]

/-- A normal pop of the oldest frame (R125, 43_serial_tx.md R112). -/
theorem qPopBody_normal (hs : s.Sound) (hidle : (s.serAt q).serBusy = false)
    (hh : (s.queueAt q).Holds s.cfg.qcap (payload :: rest)) :
    qPopBody q false s =
      if badTxLength s.cfg payload.length then .error (faultInfoOf .txLength 4#4 q (BitVec.ofNat 32 payload.length))
      else if s.blockFull s.cfg.serDepth then .error (faultSleepOverflow s.cfg.serDepth)
      else .ok ((serEffects q payload (s.setQueue q ((s.queueAt q).discard s.cfg.qcap (payload.length + 1)))).respond 1#32) := by
  obtain ⟨-, -, -, hpayload, -⟩ := hh.oldest (hs.queueAt q)
  rw [qPopBody_of_holds hs hidle hh]
  simp only [qPopFrame, Nat.add_sub_cancel, State.qmask_eq, QueueUnit.payloadAt_eq hs.legal, hpayload, Params.and_qmask hs.legal]
  rfl

/-- A diagnostic pop of the oldest frame (R125). -/
theorem qPopBody_diag (hs : s.Sound) (hidle : (s.serAt q).serBusy = false)
    (hh : (s.queueAt q).Holds s.cfg.qcap (payload :: rest)) :
    qPopBody q true s =
      if s.cfg.diagCap < payload.length then .error (faultInfoOf .diagOverflow 4#4 q (BitVec.ofNat 32 payload.length))
      else .ok ((s.setQueue q (((s.queueAt q).discard s.cfg.qcap (payload.length + 1)).capture payload)).respond 1#32) := by
  obtain ⟨-, -, -, hpayload, -⟩ := hh.oldest (hs.queueAt q)
  rw [qPopBody_of_holds hs hidle hh]
  simp only [qPopFrame, Nat.add_sub_cancel, State.qmask_eq, QueueUnit.payloadAt_eq hs.legal, hpayload, Params.and_qmask hs.legal]
  rfl

end Held

/-- Settles O48: the capture writes neither the ring nor its indices. -/
theorem diagnosticPopCapturesTheOldestFrame : Obligations.DiagnosticPopCapturesTheOldestFrame := by
  intro s q pay rest hc hinv hq hidle hh hcap
  have hs := (State.inv_iff_sound s).1 hinv
  obtain ⟨-, -, -, -, hrest⟩ := hh.oldest (hs.queueAt q.toNat)
  have hb := (qPopBody_diag hs hidle hh).trans (if_neg (Nat.not_lt_of_le hcap))
  refine ⟨_, exec_completed (State.admission_of_fg hc (decide_eq_true hq)) hb, rfl, s.otherQueuesKept_setQueue _ _, ?_⟩
  rw [State.queueAt_setQueue_same (hs.queueLength ▸ hq)]
  exact ⟨rfl, hrest⟩

/-! The start of a transmission writes no queue -/

theorem serEffects_queue (p : Nat) (bytes : List Byte) (s : State) : (serEffects p bytes s).queue = s.queue := by
  simp [serEffects]

theorem serEffects_queueAt (p : Nat) (bytes : List Byte) (s : State) (q : Nat) : (serEffects p bytes s).queueAt q = s.queueAt q := by
  simp [serEffects, State.queueAt]

theorem State.OtherQueuesKept.serEffects {s t : State} {p q : Nat} {bytes : List Byte} (h : s.OtherQueuesKept t q) :
    s.OtherQueuesKept (serEffects p bytes t) q := by
  simpa only [State.OtherQueuesKept, serEffects_queue, serEffects_queueAt] using h

/-- Settles O49: the effects of the start are those of `serEffects_effects` on the state without the frame. -/
theorem normalPopTransmitsTheOldestFrame : Obligations.NormalPopTransmitsTheOldestFrame := by
  intro s q pay rest hc hinv hq hidle hh hpos hcap hroom
  have hs := (State.inv_iff_sound s).1 hinv
  have h := hs.queueAt q.toNat
  obtain ⟨-, -, -, -, hrest⟩ := hh.oldest h
  have hb := qPopBody_normal hs hidle hh
  rw [badTxLength_eq_false hpos hcap, State.blockFull_eq_false hroom] at hb
  have hread := State.queueAt_setQueue_same (u := (s.queueAt q.toNat).discard s.cfg.qcap (pay.length + 1)) (hs.queueLength ▸ hq)
  obtain ⟨hl, hshape, -⟩ := (State.inv_iff_sound _).2 (hs.setQueue (q := q.toNat) (h.discard (pay.length + 1)))
  obtain ⟨hframe, hat, hothers, hcounts⟩ := serEffects_effects (bytes := pay) hl hshape hq hroom
  refine ⟨_, exec_completed (State.admission_of_fg hc (decide_eq_true hq)) hb, hframe,
    State.OtherQueuesKept.serEffects (s.otherQueuesKept_setQueue _ _), hothers, hcounts, ?_⟩
  rw [serEffects_queueAt, hread]
  exact ⟨rfl, hrest, hat.trans (SerUnit.start_eq _ _)⟩

/-- A fault of unit 4 names the queue (60_exceptions.md R132). -/
theorem State.raiseFault_queueFault (s : State) (code : FaultCode) (q : BitVec 4) (info : Word) :
    s.raiseFault (faultInfoOf code 4#4 q.toNat info) = s.withFault code 4#4 q info := by
  simp [State.raiseFault_eq, faultInfoOf]

/-- Settles O50: each fault is that of the command's own rule. -/
theorem queueFaults : Obligations.QueueFaults := by
  intro s q pay hc hq
  have hpush : s.admission (.qPush q pay) = none := State.admission_of_fg hc (decide_eq_true hq)
  have hpop : ∀ diag, s.admission (.qPop q diag) = none := fun _ => State.admission_of_fg hc (decide_eq_true hq)
  simp only [← State.raiseFault_queueFault]
  refine ⟨fun hlong => exec_raises hpush (qPushBody_of_long hlong), fun hlen hfull => exec_raises hpush (qPushBody_of_full hlen hfull),
    fun diag lb hidle hfree hlb hbad => exec_raises (hpop diag) (qPopBody_of_corrupt hidle hfree hlb hbad), ?_⟩
  rintro hinv hidle ⟨rest, hh⟩
  have hs := (State.inv_iff_sound s).1 hinv
  have hnormal := qPopBody_normal hs hidle hh
  refine ⟨fun hover => ?_, fun hbad => ?_, fun hpos hcap hfull => ?_⟩
  · exact exec_raises (hpop true) ((qPopBody_diag hs hidle hh).trans (if_pos hover))
  · exact exec_raises (hpop false) (hnormal.trans (if_pos (badTxLength_eq_true hbad)))
  · rw [badTxLength_eq_false hpos hcap, State.blockFull_eq_true hfull] at hnormal
    exact exec_raises (hpop false) hnormal

end Sys2Proof.Machine
end

section
/-! Who wakes the foreground (60_exceptions.md R140, 41_arbiter.md R89): a fault names a code other than 0, so a step after which none is
recorded is one that ran to its end; and no rule of a command changes the context tag of the command or takes words from the port. -/

namespace Sys2Proof.Machine

/-! Every fault has a code -/

theorem State.code_of_admission {s : State} {i : Instr} {f : FaultReport} (h : s.admission i = some f) : f.code ≠ .noFault := by
  unfold State.admission at h
  split_ifs at h <;> cases h <;> exact FaultCode.noConfusion

theorem code_of_arbBlockBody {w : Word} {d : Nat} {s : State} {f : FaultReport} (h : arbBlockBody w d s = .error f) :
    f.code ≠ .noFault := by
  unfold arbBlockBody at h
  split_ifs at h <;> cases h <;> exact FaultCode.noConfusion

theorem code_of_arbUnblockBody {w : Word} {d : Nat} {s : State} {f : FaultReport} (h : arbUnblockBody w d s = .error f) :
    f.code ≠ .noFault := by
  unfold arbUnblockBody at h
  split_ifs at h
  cases h
  exact FaultCode.noConfusion

theorem code_of_busStartBody {w : Word} {p : Nat} {addr : BitVec 7} {cmd : Byte} {dir : Dir} {count : BitVec 4} {dest ev : Word}
    {s : State} {f : FaultReport} (h : busStartBody w p addr cmd dir count dest ev s = .error f) : f.code ≠ .noFault := by
  unfold busStartBody at h
  simp only at h
  split_ifs at h <;> cases h <;> exact FaultCode.noConfusion

theorem code_of_serStartBody {p : Nat} {bytes : List Byte} {s : State} {f : FaultReport} (h : serStartBody p bytes s = .error f) :
    f.code ≠ .noFault := by
  unfold serStartBody at h
  split_ifs at h
  · cases h
    exact FaultCode.noConfusion
  · obtain ⟨-, hb⟩ | ⟨-, hb⟩ := serBegin_cases p bytes s <;> rw [hb] at h <;> cases h
    exact FaultCode.noConfusion

theorem code_of_qPushBody {q : Nat} {payload : List Byte} {s : State} {f : FaultReport} (h : qPushBody q payload s = .error f) :
    f.code ≠ .noFault := by
  unfold qPushBody at h
  split_ifs at h <;> cases h <;> exact FaultCode.noConfusion

theorem code_of_qPopFrame {q : Nat} {diag : Bool} {lb : Nat} {s : State} {f : FaultReport} (h : qPopFrame q diag lb s = .error f) :
    f.code ≠ .noFault := by
  unfold qPopFrame at h
  cases diag
  all_goals
    simp only at h
    split_ifs at h <;> cases h <;> exact FaultCode.noConfusion

theorem code_of_qPopBody {q : Nat} {diag : Bool} {s : State} {f : FaultReport} (h : qPopBody q diag s = .error f) :
    f.code ≠ .noFault := by
  unfold qPopBody at h
  simp only at h
  split_ifs at h
  · cases h
    exact FaultCode.noConfusion
  · exact code_of_qPopFrame h

theorem code_of_commandBody {i : Instr} {s : State} {f : FaultReport} (h : commandBody s i = .error f) : f.code ≠ .noFault := by
  cases i with
  | arbBlock => exact code_of_arbBlockBody h
  | arbUnblock => exact code_of_arbUnblockBody h
  | busStart => exact code_of_busStartBody h
  | serStart => exact code_of_serStartBody h
  | qPush => exact code_of_qPushBody h
  | qPop => exact code_of_qPopBody h
  | schedOpen | schedPost | schedClear | schedPoll | arbOpen | arbFloor | arbEnter | busBusy | busReset | serBusy | qOpen | qFree => cases h

theorem code_of_busRetry {p : Nat} {s : State} {f : FaultReport} (h : busRetry p s = .raised f) : f.code ≠ .noFault := by
  unfold busRetry at h
  simp only at h
  split_ifs at h
  cases h
  exact FaultCode.noConfusion

theorem busStoreHigh_not_raised {p : Nat} {s : State} {f : FaultReport} : busStoreHigh p s ≠ .raised f := by
  unfold busStoreHigh
  simp only
  split <;> exact Result.noConfusion

theorem busMergeLow_not_raised {p : Nat} {s : State} {f : FaultReport} : busMergeLow p s ≠ .raised f := by
  unfold busMergeLow
  simp only
  split
  · exact Result.noConfusion
  · split <;> exact Result.noConfusion

theorem code_of_busTransition {p : Nat} {k : BusFlag} {s : State} {f : FaultReport} (h : busTransition p k s = .raised f) :
    f.code ≠ .noFault := by
  unfold busTransition at h
  split at h
  case h_1 | h_2 | h_3 | h_7 => cases h
  case h_4 => exact code_of_busRetry h
  case h_5 => exact absurd h busStoreHigh_not_raised
  case h_6 => exact absurd h busMergeLow_not_raised
  case h_8 =>
    cases h
    exact FaultCode.noConfusion

theorem code_of_serTransition {p : Nat} {k : SerFlag} {s : State} {f : FaultReport} (h : serTransition p k s = .raised f) :
    f.code ≠ .noFault := by
  unfold serTransition at h
  split at h <;> cases h
  exact FaultCode.noConfusion

/-! What stands at the command port -/

/-- The context tag of the command in execution and the words the foreground has presented are as they were. -/
def State.SamePort (s t : State) : Prop := t.ctx = s.ctx ∧ t.fgPort = s.fgPort

theorem State.SamePort.trans {s t u : State} (h : s.SamePort t) (h' : t.SamePort u) : s.SamePort u :=
  ⟨h'.1.trans h.1, h'.2.trans h.2⟩

theorem State.samePort_unblock (s : State) (d : Nat) : s.SamePort (s.unblock d) := by
  simp [State.SamePort]

theorem State.samePort_endCommand (s : State) : s.SamePort s.endCommand := by
  simp [State.SamePort]

theorem State.samePort_sleepAt (s : State) (d : Nat) : s.SamePort (s.sleepAt d) := by
  rw [State.sleepAt_eq]
  exact ⟨rfl, rfl⟩

theorem State.samePort_memWrite {s t : State} {addr : Word} {v : BitVec 16} (h : s.memWrite addr v = some t) : s.SamePort t := by
  obtain ⟨-, rfl⟩ := State.memWrite_eq_some h
  exact ⟨rfl, rfl⟩

theorem samePort_serEffects (p : Nat) (bytes : List Byte) (s : State) : s.SamePort (serEffects p bytes s) := by
  simp [State.SamePort, serEffects]

theorem samePort_busResetBody (p : Nat) (s : State) : s.SamePort (busResetBody p s) := by
  rw [busResetBody_eq]
  exact ⟨rfl, rfl⟩

theorem samePort_arbBlockBody {w : Word} {d : Nat} {s t : State} (h : arbBlockBody w d s = .ok t) : s.SamePort t := by
  unfold arbBlockBody at h
  split_ifs at h
  cases h
  simp [State.SamePort]

theorem samePort_arbUnblockBody {w : Word} {d : Nat} {s t : State} (h : arbUnblockBody w d s = .ok t) : s.SamePort t := by
  unfold arbUnblockBody at h
  split_ifs at h
  cases h
  exact s.samePort_unblock d

theorem samePort_busStartBody {w : Word} {p : Nat} {addr : BitVec 7} {cmd : Byte} {dir : Dir} {count : BitVec 4} {dest ev : Word}
    {s t : State} (h : busStartBody w p addr cmd dir count dest ev s = .ok t) : s.SamePort t := by
  unfold busStartBody at h
  simp only at h
  split_ifs at h
  cases h
  simp [State.SamePort]

theorem samePort_serStartBody {p : Nat} {bytes : List Byte} {s t : State} (h : serStartBody p bytes s = .ok t) : s.SamePort t := by
  unfold serStartBody at h
  split_ifs at h
  · cases h
    simp [State.SamePort]
  · obtain ⟨-, hb⟩ | ⟨-, hb⟩ := serBegin_cases p bytes s <;> rw [hb] at h <;> cases h
    simpa [State.SamePort] using samePort_serEffects p bytes s

theorem samePort_qPushBody {q : Nat} {payload : List Byte} {s t : State} (h : qPushBody q payload s = .ok t) : s.SamePort t := by
  unfold qPushBody at h
  split_ifs at h
  cases h
  simp [State.SamePort]

theorem samePort_qPopFrame {q : Nat} {diag : Bool} {lb : Nat} {s t : State} (h : qPopFrame q diag lb s = .ok t) : s.SamePort t := by
  unfold qPopFrame at h
  cases diag
  all_goals
    simp only at h
    split_ifs at h
    cases h
    simp [State.SamePort, serEffects]

theorem samePort_qPopBody {q : Nat} {diag : Bool} {s t : State} (h : qPopBody q diag s = .ok t) : s.SamePort t := by
  unfold qPopBody at h
  simp only at h
  split_ifs at h
  · cases h
    simp [State.SamePort]
  · exact samePort_qPopFrame h

/-- The rule of a command takes no words from the port: the fetch has taken them. -/
theorem samePort_commandBody {i : Instr} {s t : State} (h : commandBody s i = .ok t) : s.SamePort t := by
  cases i with
  | arbBlock => exact samePort_arbBlockBody h
  | arbUnblock => exact samePort_arbUnblockBody h
  | busStart => exact samePort_busStartBody h
  | serStart => exact samePort_serStartBody h
  | qPush => exact samePort_qPushBody h
  | qPop => exact samePort_qPopBody h
  | busReset =>
    cases h
    exact samePort_busResetBody _ s
  | arbEnter =>
    cases h
    exact State.SamePort.trans (by simp [State.SamePort]) (State.samePort_sleepAt _ _)
  | schedOpen | schedPost | schedClear | schedPoll | arbOpen | arbFloor | busBusy | serBusy | qOpen | qFree =>
    cases h
    simp [State.SamePort]

/-! The statement of 60_exceptions.md -/

/-- 60_exceptions.md R140: a handler step after which no fault is recorded ran its transition to the end. -/
theorem finishHandler_wakes {s t : State} {r : Result} (hr : ∀ f, r = .raised f → f.code ≠ .noFault) (h : finishHandler s r = .next t)
    (ht : t.faultCode = .noFault) : t.fgAsleep = false := by
  obtain ⟨u, -, rfl⟩ | ⟨f, hf, rfl⟩ := finishHandler_next h
  · rfl
  · exact absurd ht (hr f hf)

theorem busHandler_wakes {p : Nat} {k : BusFlag} {s t : State} (h : busHandler p k s = .next t) (ht : t.faultCode = .noFault) :
    if (s.busAt p).enabled k then t.fgAsleep = false else t = s := by
  unfold busHandler at h
  split_ifs at h ⊢
  · exact finishHandler_wakes (fun _ => code_of_busTransition) h ht
  · cases h
    rfl

theorem serHandler_wakes {p : Nat} {k : SerFlag} {s t : State} (h : serHandler p k s = .next t) (ht : t.faultCode = .noFault) :
    if (s.serAt p).enabled k then t.fgAsleep = false else t = s := by
  unfold serHandler at h
  split_ifs at h ⊢
  · exact finishHandler_wakes (fun _ => code_of_serTransition) h ht
  · cases h
    rfl

/-- A command after which no fault is recorded passed its checks and ran its rule. -/
theorem exec_of_noFault {i : Instr} {s t : State} (h : exec i s = .next t) (ht : t.faultCode = .noFault) :
    ∃ u, s.admission i = none ∧ commandBody s i = .ok u ∧ t = u.endCommand := by
  rw [exec_eq_runCommand] at h
  obtain ⟨f, hf, hr⟩ | ⟨f, -, hf, hr⟩ | ⟨u, ha, hu, hr⟩ := runCommand_cases i s (commandBody s i) <;> rw [hr] at h <;> cases h
  · exact absurd ht (State.code_of_admission hf)
  · exact absurd ht (code_of_commandBody hf)
  · exact ⟨u, ha, hu, rfl⟩

/-- 41_arbiter.md R89: the tag of the command is still that of interrupt context where the command ends. -/
theorem exec_wakes {i : Instr} {s t : State} (hc : s.ctx = .irq) (h : exec i s = .next t) (ht : t.faultCode = .noFault) :
    t.fgAsleep = false := by
  obtain ⟨u, -, hu, rfl⟩ := exec_of_noFault h ht
  obtain ⟨hctx, -⟩ := samePort_commandBody hu
  rw [State.endCommand_fgAsleep, hctx, hc]
  exact Bool.and_false _

/-- Settles O54: a handler step or a command that leaves no fault recorded ran to its end, which wakes. -/
theorem interruptsWakeTheForeground : Obligations.InterruptsWakeTheForeground :=
  fun _ _ _ ht => ⟨fun _ _ h => busHandler_wakes h ht, fun _ _ h => serHandler_wakes h ht, fun _ hc h => exec_wakes hc h ht⟩

end Sys2Proof.Machine
end

section
/-! The words at the port of the foreground: a foreground command step takes the words of one command, and no other step touches them. -/

namespace Sys2Proof.Machine

theorem exec_samePort {i : Instr} {s t : State} (h : exec i s = .next t) : s.SamePort t := by
  rw [exec_eq_runCommand] at h
  obtain ⟨f, -, hr⟩ | ⟨f, -, -, hr⟩ | ⟨u, -, hu, hr⟩ := runCommand_cases i s (commandBody s i) <;> rw [hr] at h <;> cases h
  · exact ⟨rfl, rfl⟩
  · exact ⟨rfl, rfl⟩
  · exact (samePort_commandBody hu).trans u.samePort_endCommand

theorem length_lt_of_decode {evtW : Nat} {ws rest : List Word} {i : Instr} (h : decode evtW ws = .ok (i, rest)) :
    rest.length < ws.length := by
  obtain ⟨-, rfl⟩ := decode_eq_ok_iff.1 h
  simp [encode]

/-- A foreground command step is no step, reports illegal words, or takes the words of a command. -/
theorem commandStep_fg {s t : State} (h : commandStep .fg s = .next t) :
    t = s ∨ (t.faultCode ≠ .noFault ∧ t.fgPort = s.fgPort) ∨ t.fgPort.length < s.fgPort.length := by
  unfold commandStep at h
  split at h
  · cases h
    exact .inl rfl
  · cases h
    exact .inr (.inl ⟨FaultCode.noConfusion, rfl⟩)
  · next hf =>
    obtain ⟨-, rest, hd, rfl⟩ := fetchCommand_command hf
    obtain ⟨-, hport⟩ := exec_samePort h
    rw [hport]
    exact .inr (.inr (length_lt_of_decode hd))

/-- A command step of interrupt context takes its words from the other port. -/
theorem commandStep_irq_fgPort {s t : State} (h : commandStep .irq s = .next t) : t.fgPort = s.fgPort := by
  unfold commandStep at h
  split at h
  · cases h
    rfl
  · cases h
    rfl
  · next hf =>
    obtain ⟨-, rest, -, rfl⟩ := fetchCommand_command hf
    exact (exec_samePort h).2

theorem State.samePort_setBus (s : State) (p : Nat) (u : BusUnit) : s.SamePort (s.setBus p u) := ⟨rfl, rfl⟩

theorem State.samePort_setSer (s : State) (p : Nat) (u : SerUnit) : s.SamePort (s.setSer p u) := ⟨rfl, rfl⟩

theorem samePort_busRetry {p : Nat} {s t : State} (h : busRetry p s = .ok t) : s.SamePort t := by
  unfold busRetry at h
  simp only at h
  split_ifs at h
  cases h
  simp [State.SamePort]

theorem samePort_busStoreHigh {p : Nat} {s t : State} (h : busStoreHigh p s = .ok t) : s.SamePort t := by
  unfold busStoreHigh at h
  simp only at h
  split at h
  · cases h
  · next hw =>
    cases h
    exact (State.samePort_memWrite hw).trans (by simp [State.SamePort])

theorem samePort_busMergeLow {p : Nat} {s t : State} (h : busMergeLow p s = .ok t) : s.SamePort t := by
  unfold busMergeLow at h
  simp only at h
  split at h
  · cases h
  · split at h
    · cases h
    · next hw =>
      cases h
      exact (State.samePort_memWrite hw).trans (by simp [State.SamePort])

theorem samePort_busTransition {p : Nat} {k : BusFlag} {s t : State} (h : busTransition p k s = .ok t) : s.SamePort t := by
  unfold busTransition at h
  split at h
  case h_1 | h_2 | h_3 | h_7 =>
    cases h
    simp [State.SamePort]
  case h_4 => exact samePort_busRetry h
  case h_5 => exact samePort_busStoreHigh h
  case h_6 => exact samePort_busMergeLow h
  case h_8 => cases h

theorem samePort_serTransition {p : Nat} {k : SerFlag} {s t : State} (h : serTransition p k s = .ok t) : s.SamePort t := by
  unfold serTransition at h
  split at h <;> cases h <;> simp [State.SamePort]

theorem finishHandler_samePort {s t : State} {r : Result} (hr : ∀ u, r = .ok u → s.SamePort u) (h : finishHandler s r = .next t) :
    s.SamePort t := by
  obtain ⟨u, hu, rfl⟩ | ⟨f, -, rfl⟩ := finishHandler_next h
  · exact hr u hu
  · exact ⟨rfl, rfl⟩

theorem busHandler_samePort {p : Nat} {k : BusFlag} {s t : State} (h : busHandler p k s = .next t) : s.SamePort t := by
  unfold busHandler at h
  split_ifs at h
  · exact finishHandler_samePort (fun u hu => (s.samePort_setBus p _).trans (samePort_busTransition hu)) h
  · cases h
    exact ⟨rfl, rfl⟩

theorem serHandler_samePort {p : Nat} {k : SerFlag} {s t : State} (h : serHandler p k s = .next t) : s.SamePort t := by
  unfold serHandler at h
  split_ifs at h
  · exact finishHandler_samePort (fun u hu => (s.samePort_setSer p _).trans (samePort_serTransition hu)) h
  · cases h
    exact ⟨rfl, rfl⟩

theorem applyEvent_samePort (e : Event) (s : State) : s.SamePort (applyEvent e s) := by
  cases e <;> exact ⟨rfl, rfl⟩

theorem eventStep_samePort {s t : State} (h : eventStep s = .next t) : s.SamePort t := by
  unfold eventStep at h
  split at h
  · cases h
    exact ⟨rfl, rfl⟩
  · split at h <;> cases h
    exact State.SamePort.trans ⟨rfl, rfl⟩ (applyEvent_samePort _ _)

theorem serStartCompletion_samePort (p : Nat) (bytes : List Byte) (s : State) : s.SamePort (serStartCompletion p bytes s) := by
  unfold serStartCompletion
  obtain ⟨-, hb⟩ | ⟨-, hb⟩ := serBegin_cases p bytes s <;> rw [hb]
  · exact ⟨rfl, rfl⟩
  · exact (samePort_serEffects p bytes s).trans (by simp [State.SamePort])

theorem completionStep_samePort (s : State) : s.SamePort (completionStep s) := by
  unfold completionStep
  split
  · exact ⟨rfl, rfl⟩
  · split_ifs
    · exact ⟨rfl, rfl⟩
    · exact serStartCompletion_samePort _ _ s
  · split_ifs <;> exact ⟨rfl, rfl⟩

/-- 20_memory.md R48: a store of the host writes its memory and what it has yet to store, and keeps the memory's canonical form. -/
theorem hostStoreStep_eq {s : State} (hm : Memory.wf s.dmem = true) :
    Memory.wf (hostStoreStep s).dmem = true
      ∧ hostStoreStep s = { s with dmem := (hostStoreStep s).dmem, hostStores := (hostStoreStep s).hostStores } := by
  unfold hostStoreStep
  split
  · exact ⟨hm, rfl⟩
  · split_ifs with hmay
    · simp only [State.hostMayStore, Bool.and_eq_true, decide_eq_true_eq] at hmay
      exact ⟨Memory.wf_write hm hmay.1.1, rfl⟩
    · exact ⟨hm, rfl⟩

theorem hostStoreStep_samePort (s : State) : s.SamePort (hostStoreStep s) := by
  unfold hostStoreStep
  split
  · exact ⟨rfl, rfl⟩
  · split_ifs <;> exact ⟨rfl, rfl⟩

theorem moveStep_fgPort_length {m : Move} {s t : State} (h : moveStep m s = .next t) : t.fgPort.length ≤ s.fgPort.length := by
  cases m with
  | command c =>
    cases c with
    | fg =>
      obtain rfl | ⟨-, hsame⟩ | hlt := commandStep_fg h
      · exact le_rfl
      · exact (congrArg List.length hsame).le
      · exact hlt.le
    | irq => exact (congrArg List.length (commandStep_irq_fgPort h)).le
  | event => exact (congrArg List.length (eventStep_samePort h).2).le
  | busHandler p k => exact (congrArg List.length (busHandler_samePort h).2).le
  | serHandler p k => exact (congrArg List.length (serHandler_samePort h).2).le
  | completion =>
    cases h
    exact (congrArg List.length (completionStep_samePort s).2).le
  | hostStore =>
    cases h
    exact (congrArg List.length (hostStoreStep_samePort s).2).le

/-- No step gives words back to the port of the foreground. -/
theorem step_fgPort_length {s t : State} (h : step s = .next t) : t.fgPort.length ≤ s.fgPort.length := by
  obtain ⟨-, ⟨-, rfl⟩ | ⟨m, rest, -, hs⟩⟩ := step_next h
  · exact le_rfl
  · have hlen := moveStep_fgPort_length hs
    exact hlen

end Sys2Proof.Machine
end

section
/-! The boot sequence (70_reset_and_hazards.md R160 and R161): the states it passes through from a state right after reset, and the step
from each to the next. -/

namespace Sys2Proof.Machine

/-! The commands of the boot -/

/-- 00_scope.md R9: the number of every bus engine fits the field of a header. -/
theorem Params.nBus_le {c : Params} (h : c.legal = true) : c.nBus ≤ 16 := by
  simp [Params.legal] at h
  omega

theorem Params.nSer_le {c : Params} (h : c.legal = true) : c.nSer ≤ 16 := by
  simp [Params.legal] at h
  omega

theorem toNat_ofNat_of_lt {k n : Nat} (hk : k < n) (hn : n ≤ 16) : (BitVec.ofNat 4 k).toNat = k := by
  rw [BitVec.toNat_ofNat]
  omega

theorem length_bootCommands (c : Params) : (bootCommands c).length = 2 + c.nSer + c.nBus := by
  simp [bootCommands]
  omega

/-- The commands of R160 that open a unit, with a number in range. -/
def OpensUnit (c : Params) (i : Instr) : Prop := i = .schedOpen ∨ i = .arbOpen ∨ ∃ q, q < c.nSer ∧ i = .qOpen (BitVec.ofNat 4 q)

/-- The command after the first `done` of the boot: an open while there are any, then the reset of the next bus engine. -/
theorem bootCommands_cases {c : Params} {done todo : List Instr} {i : Instr} (h : bootCommands c = done ++ i :: todo) :
    (done.length < 2 + c.nSer ∧ OpensUnit c i) ∨
    ∃ m, m < c.nBus ∧ done.length = 2 + c.nSer + m ∧ i = .busReset (BitVec.ofNat 4 m) := by
  have hi : (bootCommands c)[done.length]? = some i := by simp [h]
  rw [bootCommands] at hi
  by_cases hlt : done.length < 2 + c.nSer
  · rw [List.getElem?_append_left (by simp; omega)] at hi
    have hmem := List.mem_of_getElem? hi
    simp only [List.mem_append, List.mem_cons, List.not_mem_nil, or_false, List.mem_map, List.mem_range] at hmem
    refine .inl ⟨hlt, ?_⟩
    obtain (hi | hi) | ⟨q, hq, hi⟩ := hmem
    · exact .inl hi
    · exact .inr (.inl hi)
    · exact .inr (.inr ⟨q, hq, hi.symm⟩)
  · rw [List.getElem?_append_right (by simp; omega), List.getElem?_map] at hi
    obtain ⟨m, hm, hi⟩ := Option.map_eq_some_iff.1 hi
    obtain ⟨hlt', rfl⟩ := List.getElem?_eq_some_iff.1 hm
    simp at hlt' hi
    exact .inr ⟨_, by omega, by omega, hi.symm⟩

theorem wellFormed_of_mem_bootCommands {c : Params} {i : Instr} (h : i ∈ bootCommands c) : i.wellFormed c.evtW = true := by
  obtain ⟨done, todo, h⟩ := List.append_of_mem h
  obtain ⟨-, rfl | rfl | ⟨q, -, rfl⟩⟩ | ⟨m, -, -, rfl⟩ := bootCommands_cases h <;> rfl

/-! A state right after reset -/

namespace State.AfterReset
variable {r : State}

/-- What R159 says of the elements outside the units. -/
theorem core (h : r.AfterReset) :
    r.faultCode = .noFault ∧ r.fgAsleep = false ∧ r.fgHeld = .none ∧ r.act = [] ∧ r.resp = [] ∧ r.ctx = .fg ∧ r.pending = 0#32
      ∧ r.cnt = List.replicate r.cfg.nDepth 0#8 := by
  obtain ⟨hr, -⟩ := h
  rw [hr]
  exact ⟨rfl, rfl, rfl, rfl, rfl, rfl, rfl, rfl⟩

/-- Host memory and what waits at the ports are the host's (R159): only the canonical form of memory is asked for. -/
theorem amid (h : r.AfterReset) {m : List Host.Cell} (hm : Memory.wf m = true) (fp ip ep : List Word) (hs : List Host.Cell) (ms : List Move) :
    { r with dmem := m, fgPort := fp, irqPort := ip, evtPort := ep, hostStores := hs, moves := ms }.AfterReset := by
  obtain ⟨hr, hshape, -, hbus, hser, hqueue⟩ := h
  exact ⟨congrArg (fun x => { x with dmem := m, fgPort := fp, irqPort := ip, evtPort := ep, hostStores := hs, moves := ms }) hr, hshape, hm,
    hbus, hser, hqueue⟩

theorem noFault (h : r.AfterReset) : r.faultCode = .noFault := by
  obtain ⟨hcode, -⟩ := h.core
  exact hcode

theorem memory (h : r.AfterReset) : Memory.wf r.dmem = true := by
  obtain ⟨-, -, hmem, -⟩ := h
  exact hmem

theorem cntLength (h : r.AfterReset) : r.cnt.length = r.cfg.nDepth := by
  obtain ⟨-, ⟨hcnt, -⟩, -⟩ := h
  exact hcnt

theorem busLength (h : r.AfterReset) : r.bus.length = r.cfg.nBus := by
  obtain ⟨-, ⟨-, hbus, -⟩, -⟩ := h
  exact hbus

end State.AfterReset

/-! The states of the boot -/

/-- A bus engine whose enables a completed BUS.RESET has saved and restored (42_bus_master.md R97 and R98). -/
def BusUnit.rebooted (u : BusUnit) : BusUnit := { u with bienSave := 0b1011#4 }

/-- A bus engine amid its BUS.RESET, with its stop-complete flag raised or not yet (42_bus_master.md R97). -/
def BusUnit.resetting (raised : Bool) (u : BusUnit) : BusUnit :=
  { u with bienSave := 0b1011#4, bien := 0#4, bifReg := if raised then 0b1000#4 else 0#4 }

/-- The first `m` bus engines rebooted. -/
def rebootBelow (m : Nat) (us : List BusUnit) : List BusUnit := us.mapIdx fun p u => if p < m then u.rebooted else u

/-- The actions of the first `m` resets (70_reset_and_hazards.md R161). -/
def resetActions (m : Nat) : List Action :=
  (List.range m).flatMap fun p => [.busAbort p, .busCleartx p, .busStart p, .busStop p]

/-- `r` after the first `n` commands of the boot, `m` of them resets of bus engines. -/
def State.booted (r : State) (n m : Nat) : State :=
  { r with act := resetActions m, resp := List.replicate n ⟨.fg, 0#32⟩, bus := rebootBelow m r.bus }

/-- `r` after the first `n` commands of the boot, with the reset of bus engine `m` held. -/
def State.holding (r : State) (n m : Nat) (raised : Bool) : State :=
  { r.booted n m with
    act := resetActions (m + 1), bus := (rebootBelow m r.bus).set m ((r.busAt m).resetting raised), fgHeld := .busReset m }

theorem resetActions_succ (m : Nat) :
    resetActions (m + 1) = resetActions m ++ [.busAbort m, .busCleartx m, .busStart m, .busStop m] := by
  simp [resetActions, List.range_succ]

@[simp] theorem length_rebootBelow (m : Nat) (us : List BusUnit) : (rebootBelow m us).length = us.length := by
  simp [rebootBelow]

theorem rebootBelow_zero (us : List BusUnit) : rebootBelow 0 us = us :=
  List.ext_getElem (by simp) (by simp [rebootBelow])

theorem rebootBelow_length (us : List BusUnit) : rebootBelow us.length us = us.map BusUnit.rebooted := by
  refine List.ext_getElem (by simp) fun p hp _ => ?_
  have hlt : p < us.length := by simpa using hp
  simp [rebootBelow, hlt]

theorem rebootBelow_set {m : Nat} {us : List BusUnit} (hm : m < us.length) :
    (rebootBelow m us).set m us[m].rebooted = rebootBelow (m + 1) us := by
  refine List.ext_getElem (by simp) fun p hp _ => ?_
  obtain hpm | rfl | hpm := Nat.lt_trichotomy p m
  · simp [rebootBelow, hpm, Nat.ne_of_gt hpm, Nat.le_of_lt hpm]
  · simp [rebootBelow]
  · simp [rebootBelow, Nat.ne_of_lt hpm, Nat.not_lt_of_lt hpm, Nat.not_le_of_lt hpm]

theorem forall_mem_rebootBelow {P : BusUnit → Prop} {us : List BusUnit} (h : ∀ u ∈ us, P u ∧ P u.rebooted) (m : Nat) :
    ∀ u ∈ rebootBelow m us, P u := by
  intro u hu
  obtain ⟨p, hp, rfl⟩ := List.mem_mapIdx.1 hu
  obtain ⟨hfresh, hdone⟩ := h us[p] (List.getElem_mem hp)
  split_ifs
  · exact hdone
  · exact hfresh

theorem State.AfterReset.booted_zero {r : State} (h : r.AfterReset) : r.booted 0 0 = r := by
  obtain ⟨-, -, -, hact, hresp, -⟩ := h.core
  simp only [State.booted, rebootBelow_zero, resetActions, List.range_zero, List.flatMap_nil, List.replicate_zero]
  rw [← hact, ← hresp]

/-! The step of each boot command -/

section Commands
variable {r : State} {n m : Nat}

theorem State.setQueue_queueAt (s : State) (q : Nat) : s.setQueue q (s.queueAt q) = s := by
  have hset : s.queue.set q (s.queueAt q) = s.queue := by
    by_cases h : q < s.queue.length
    · simp [State.queueAt, h]
    · exact List.set_eq_of_length_le (Nat.le_of_not_lt h)
  rw [State.setQueue, hset]

/-- R159: an opened queue is a queue after reset. -/
theorem State.AfterReset.queueAt_opened (h : r.AfterReset) (q : Nat) :
    { r.queueAt q with qrd := 0, qwr := 0, diagLen := 0#16 } = r.queueAt q := by
  obtain ⟨-, -, -, -, -, hqueue⟩ := h
  refine forall_getD (P := fun u : QueueUnit => { u with qrd := 0, qwr := 0, diagLen := 0#16 } = u) (fun u hu => ?_) rfl q
  rw [hqueue u hu]
  rfl

/-- R159: but for the acknowledge mode every element of a bus engine has one value. -/
theorem State.AfterReset.busAt (h : r.AfterReset) (p : Nat) : ∃ b, r.busAt p = { BusUnit.reset with bautoack := b } := by
  obtain ⟨-, -, -, hbus, -⟩ := h
  exact forall_getD (P := fun u : BusUnit => ∃ b, u = { BusUnit.reset with bautoack := b }) (fun u hu => ⟨_, hbus u hu⟩) ⟨_, rfl⟩ p

theorem State.AfterReset.completed_booted (h : r.AfterReset) : (r.booted n m).completed 0#32 = r.booted (n + 1) m := by
  obtain ⟨-, hawake, -, -, -, hctx, -⟩ := h.core
  simp [State.completed, State.booted, List.replicate_succ', hctx, hawake]

/-- R160: after reset the opens change nothing but the list of responses. -/
theorem State.AfterReset.exec_opens (h : r.AfterReset) (hl : r.cfg.legal = true) {i : Instr} (hi : OpensUnit r.cfg i) :
    exec i (r.booted n m) = .next (r.booted (n + 1) m) := by
  obtain ⟨-, -, -, -, -, hctx, hpend, hcnt⟩ := h.core
  have hctx' : (r.booted n m).ctx = .fg := hctx
  rw [← h.completed_booted]
  obtain rfl | rfl | ⟨q, hq, rfl⟩ := hi
  · have hsame : { r.booted n m with pending := 0#32 } = r.booted n m := by rw [← hpend]; rfl
    rw [exec_schedOpen hctx', hsame]
  · have hsame : { r.booted n m with cnt := List.replicate r.cfg.nDepth 0#8 } = r.booted n m := by rw [← hcnt]; rfl
    rw [exec_arbOpen hctx' h.cntLength]
    exact congrArg (fun s => Host.Outcome.next (State.completed s 0#32)) hsame
  · have hlt : (BitVec.ofNat 4 q).toNat < (r.booted n m).cfg.nSer := by
      rw [toNat_ofNat_of_lt hq (Params.nSer_le hl)]
      exact hq
    have hopened : { (r.booted n m).queueAt (BitVec.ofNat 4 q).toNat with qrd := 0, qwr := 0, diagLen := 0#16 }
        = (r.booted n m).queueAt (BitVec.ofNat 4 q).toNat := h.queueAt_opened _
    rw [exec_qOpen hctx' hlt, hopened, State.setQueue_queueAt]

theorem State.busAt_booted (hm : m < r.bus.length) : (r.booted n m).busAt m = r.busAt m := by
  simp [State.busAt, State.booted, rebootBelow, hm]

theorem State.busAt_holding (hm : m < r.bus.length) (raised : Bool) : (r.holding n m raised).busAt m = (r.busAt m).resetting raised := by
  simp [State.busAt, State.holding, hm]

/-- 42_bus_master.md R97, from the state after the commands before. -/
theorem State.AfterReset.exec_reset (h : r.AfterReset) (hl : r.cfg.legal = true) (hm : m < r.cfg.nBus) :
    exec (.busReset (BitVec.ofNat 4 m)) (r.booted n m) = .next (r.holding n m false) := by
  obtain ⟨-, -, -, -, -, hctx, -⟩ := h.core
  obtain ⟨b, hb⟩ := h.busAt m
  have hp : (BitVec.ofNat 4 m).toNat = m := toNat_ofNat_of_lt hm (Params.nBus_le hl)
  have hunit : { r.busAt m with bienSave := (r.busAt m).bien, bien := 0#4 } = (r.busAt m).resetting false := by rw [hb]; rfl
  rw [exec_busReset (s := r.booted n m) hctx (by rw [hp]; exact hm), hp, busResetBody_eq, State.busAt_booted (h.busLength ▸ hm), hunit]
  simp [State.holding, State.booted, resetActions_succ]

/-- The stop-complete event of the held reset (30_encoding.md R67). -/
theorem State.AfterReset.applyEvent_mstop (h : r.AfterReset) (hl : r.cfg.legal = true) (hm : m < r.cfg.nBus) :
    applyEvent (.busMstop (BitVec.ofNat 4 m)) (r.holding n m false) = r.holding n m true := by
  have hp : (BitVec.ofNat 4 m).toNat = m := toNat_ofNat_of_lt hm (Params.nBus_le hl)
  have hflag : ((r.busAt m).resetting false).raiseFlag .mstop = (r.busAt m).resetting true := by
    simp [BusUnit.raiseFlag, BusUnit.resetting, setBit, BusFlag.bit]
  rw [applyEvent, hp, State.busAt_holding (h.busLength ▸ hm), hflag]
  simp [State.setBus, State.holding]

/-- 42_bus_master.md R98, from the state with the flag raised. -/
theorem State.AfterReset.completion (h : r.AfterReset) (hm : m < r.cfg.nBus) :
    busResetCompletion m (r.holding n m true) = r.booted (n + 1) (m + 1) := by
  obtain ⟨-, -, hheld, -⟩ := h.core
  obtain ⟨b, hb⟩ := h.busAt m
  have hlt : m < r.bus.length := h.busLength ▸ hm
  have hget : r.bus[m] = r.busAt m := by simp [State.busAt, hlt]
  have hunit : { (r.busAt m).resetting true with
      bifReg := 0#4, busBusy := false, busState := .initSendAddr, bien := ((r.busAt m).resetting true).bienSave }
        = (r.busAt m).rebooted := by rw [hb]; rfl
  have hset : (rebootBelow m r.bus).set m (r.busAt m).rebooted = rebootBelow (m + 1) r.bus := hget ▸ rebootBelow_set hlt
  simp only [busResetCompletion, State.busAt_holding hlt, hunit]
  simp [State.setBus, State.holding, State.booted, State.respondTo, List.replicate_succ', hset, hheld]

end Commands

end Sys2Proof.Machine
end

section
/-! The boot run (60_exceptions.md R157): whatever the boot admits, the machine stays on the way of the boot commands, or it can no longer
end in a clean entry; and the way can be gone to its end. -/

namespace Sys2Proof.Machine

/-! Steps that change nothing -/

/-- No handler step is enabled. -/
def State.Quiet (s : State) : Prop := (∀ p k, (s.busAt p).enabled k = false) ∧ ∀ p k, (s.serAt p).enabled k = false

theorem BusUnit.enabled_of_noFlag {u : BusUnit} (h : u.bifReg = 0#4) (k : BusFlag) : u.enabled k = false := by
  simp [BusUnit.enabled, h]

section Quiet
variable {r : State} {n m : Nat}

theorem State.AfterReset.ser_disabled (h : r.AfterReset) (p : Nat) (k : SerFlag) : (r.serAt p).enabled k = false := by
  obtain ⟨-, -, -, -, hser, -⟩ := h
  refine forall_getD (P := fun u : SerUnit => u.enabled k = false) (fun u hu => ?_) (by simp [SerUnit.enabled, SerUnit.reset]) p
  rw [hser u hu]
  simp [SerUnit.enabled, SerUnit.reset]

/-- The boot leaves every bus engine at its reset value, but for the enables its reset saved (70_reset_and_hazards.md R161). -/
theorem State.AfterReset.bus_booted (h : r.AfterReset) :
    ∀ u ∈ rebootBelow m r.bus, ∃ b e, u = { BusUnit.reset with bautoack := b, bienSave := e } := by
  obtain ⟨-, -, -, hbus, -⟩ := h
  refine forall_mem_rebootBelow (fun u hu => ?_) m
  rw [hbus u hu]
  exact ⟨⟨_, _, rfl⟩, ⟨_, _, rfl⟩⟩

theorem State.AfterReset.noFlag_booted (h : r.AfterReset) : ∀ u ∈ rebootBelow m r.bus, u.bifReg = 0#4 := by
  intro u hu
  obtain ⟨b, e, rfl⟩ := h.bus_booted u hu
  rfl

theorem State.AfterReset.quiet_booted (h : r.AfterReset) : (r.booted n m).Quiet :=
  ⟨fun p k => BusUnit.enabled_of_noFlag (forall_getD (P := fun u : BusUnit => u.bifReg = 0#4) h.noFlag_booted rfl p) k, h.ser_disabled⟩

/-- 42_bus_master.md R97: the engine whose reset is held has its interrupts disabled. -/
theorem State.AfterReset.quiet_holding (h : r.AfterReset) (raised : Bool) : (r.holding n m raised).Quiet := by
  refine ⟨fun p k => ?_, h.ser_disabled⟩
  refine forall_getD (P := fun u : BusUnit => u.enabled k = false) (forall_mem_set (fun u hu => ?_) ?_) (by cases k <;> rfl) p
  · exact BusUnit.enabled_of_noFlag (h.noFlag_booted u hu) k
  · simp [BusUnit.enabled, BusUnit.resetting]

end Quiet

theorem busHandler_of_quiet {s : State} (h : s.Quiet) (p : Nat) (k : BusFlag) : busHandler p k s = .next s := by
  simp [busHandler, h.1 p k]

theorem serHandler_of_quiet {s : State} (h : s.Quiet) (p : Nat) (k : SerFlag) : serHandler p k s = .next s := by
  simp [serHandler, h.2 p k]

/-! The way of the boot -/

/-- `r` after the boot commands `done`: after the opens each is a reset. -/
def State.bootedBy (c : Params) (done : List Instr) (r : State) : State := r.booted done.length (done.length - (2 + c.nSer))

section BootedBy
variable {c : Params} {done : List Instr}

theorem State.bootedBy_nil {r : State} (h : r.AfterReset) : r.bootedBy c [] = r := by
  rw [State.bootedBy, List.length_nil, Nat.zero_sub, h.booted_zero]

theorem State.bootedBy_reset {m : Nat} (h : done.length = 2 + c.nSer + m) (r : State) : r.bootedBy c done = r.booted done.length m := by
  rw [State.bootedBy, h, Nat.add_sub_cancel_left]

theorem State.bootedBy_opened (h : done.length < 2 + c.nSer) (i : Instr) (r : State) :
    r.bootedBy c (done ++ [i]) = r.booted (done.length + 1) (done.length - (2 + c.nSer)) := by
  have hcount : done.length + 1 - (2 + c.nSer) = done.length - (2 + c.nSer) := by omega
  rw [State.bootedBy, List.length_append, List.length_singleton, hcount]

theorem State.bootedBy_completed {m : Nat} (h : done.length = 2 + c.nSer + m) (i : Instr) (r : State) :
    r.bootedBy c (done ++ [i]) = r.booted (done.length + 1) (m + 1) := by
  have hlen : (done ++ [i]).length = 2 + c.nSer + (m + 1) := by rw [List.length_append, h]; rfl
  rw [State.bootedBy_reset hlen, List.length_append, List.length_singleton]

theorem State.bootedBy_bootCommands (c : Params) (r : State) :
    r.bootedBy c (bootCommands c) = r.booted (2 + c.nSer + c.nBus) c.nBus := by
  rw [State.bootedBy, length_bootCommands, Nat.add_sub_cancel_left]

theorem State.AfterReset.quiet_bootedBy {r : State} (h : r.AfterReset) : (r.bootedBy c done).Quiet := h.quiet_booted

end BootedBy

/-- `r` is right after reset, with the parameters `c`, the commands `todo` and then the words `rest` at the port of the foreground. -/
structure State.Presents (c : Params) (rest : List Word) (todo : List Instr) (r : State) : Prop where
  reset : r.AfterReset
  cfg : r.cfg = c
  port : r.fgPort = todo.flatMap encode ++ rest

theorem State.Presents.amid {c : Params} {rest : List Word} {todo : List Instr} {r : State} (h : r.Presents c rest todo)
    {x : List Host.Cell} (hx : Memory.wf x = true) (ep : List Word) (hs : List Host.Cell) (ms : List Move) :
    { r with dmem := x, evtPort := ep, hostStores := hs, moves := ms }.Presents c rest todo :=
  ⟨h.reset.amid hx r.fgPort r.irqPort ep hs ms, h.cfg, h.port⟩

theorem State.Presents.next {c : Params} {rest : List Word} {i : Instr} {todo : List Instr} {r : State} (h : r.Presents c rest (i :: todo))
    (ms : List Move) : { r with moves := ms, fgPort := todo.flatMap encode ++ rest }.Presents c rest todo :=
  ⟨h.reset.amid h.reset.memory _ r.irqPort r.evtPort r.hostStores ms, h.cfg, rfl⟩

/-- The states on the way of a boot run that begins with the boot commands and then the words `rest` at the port: between two boot commands,
or amid a reset, with its stop-complete flag raised or not yet. -/
inductive State.Booting (c : Params) (rest : List Word) : State → Prop
  | between {r : State} {done todo : List Instr} (hcmds : bootCommands c = done ++ todo) (hr : r.Presents c rest todo) :
      Booting c rest (r.bootedBy c done)
  | amid {r : State} {done todo : List Instr} {m : Nat} (raised : Bool)
      (hcmds : bootCommands c = done ++ .busReset (BitVec.ofNat 4 m) :: todo) (hdone : done.length = 2 + c.nSer + m) (hm : m < c.nBus)
      (hr : r.Presents c rest todo) : Booting c rest (r.holding done.length m raised)

/-- A state from which a boot run ends in no clean entry with the words `rest` left: a fault is recorded, or one of these words taken. -/
def State.OffTheWay (rest : List Word) (s : State) : Prop := s.faultCode ≠ .noFault ∨ s.fgPort.length < rest.length

theorem State.OffTheWay.step {rest : List Word} {s t : State} (h : s.OffTheWay rest) (ht : step s = .next t) : t.OffTheWay rest := by
  obtain hcode | hlen := h
  · exact absurd (step_next ht).1 hcode
  · exact .inr ((step_fgPort_length ht).trans_lt hlen)

section Steps
variable {c : Params} {rest : List Word} {s t : State}

/-- Host memory, the words at the event port and the moves named next have no part in it. -/
theorem State.Booting.surroundings (h : s.Booting c rest) {x : List Host.Cell} (hx : Memory.wf s.dmem = true → Memory.wf x = true)
    (ep : List Word) (hs : List Host.Cell) (ms : List Move) :
    { s with dmem := x, evtPort := ep, hostStores := hs, moves := ms }.Booting c rest := by
  cases h with
  | between hcmds hr => exact .between hcmds (hr.amid (hx hr.reset.memory) ep hs ms)
  | amid raised hcmds hdone hm hr => exact .amid raised hcmds hdone hm (hr.amid (hx hr.reset.memory) ep hs ms)

theorem State.Booting.setMoves (h : s.Booting c rest) (ms : List Move) : { s with moves := ms }.Booting c rest :=
  h.surroundings id s.evtPort s.hostStores ms

/-- The command step of the next boot command. -/
theorem step_booted {r : State} {n m : Nat} {i : Instr} {ms : List Move} {ws : List Word} (h : r.AfterReset)
    (hi : i.wellFormed r.cfg.evtW = true) (hm : r.moves = .command .fg :: ms) (hp : r.fgPort = encode i ++ ws) :
    step (r.booted n m) = exec i ({ r with moves := ms, fgPort := ws }.booted n m) := by
  obtain ⟨hcode, hawake, hheld, -, -, hctx, -⟩ := h.core
  have hrun := stepRunsTheDecodedCommand (r.booted n m) .fg ms i ws hcode hm (fun _ => ⟨hheld, hawake⟩)
    (decode_eq_ok_iff.2 ⟨hi, hp⟩)
  rw [hrun]
  simp [State.booted, ← hctx]

/-- The command step of the next boot command leads on. -/
theorem State.Presents.step_command (hl : c.legal = true) {r : State} {i : Instr} {done todo : List Instr} {ms : List Move}
    (hcmds : bootCommands c = done ++ i :: todo) (h : r.Presents c rest (i :: todo)) (hm : r.moves = .command .fg :: ms) :
    (OpensUnit c i ∧ step (r.bootedBy c done)
        = .next ({ r with moves := ms, fgPort := todo.flatMap encode ++ rest }.bootedBy c (done ++ [i]))) ∨
    ∃ m, m < c.nBus ∧ done.length = 2 + c.nSer + m ∧ i = .busReset (BitVec.ofNat 4 m) ∧
      step (r.bootedBy c done) = .next ({ r with moves := ms, fgPort := todo.flatMap encode ++ rest }.holding done.length m false) := by
  have hreset := h.reset
  have hafter := (h.next ms).reset
  have hwords : r.fgPort = encode i ++ (todo.flatMap encode ++ rest) := by simpa using h.port
  obtain rfl := h.cfg
  have hwf : i.wellFormed r.cfg.evtW = true := wellFormed_of_mem_bootCommands (by simp [hcmds])
  obtain ⟨hlt, hi⟩ | ⟨m, hmb, hlen, rfl⟩ := bootCommands_cases hcmds
  · rw [State.bootedBy_opened hlt]
    exact .inl ⟨hi, (step_booted hreset hwf hm hwords).trans (hafter.exec_opens hl hi)⟩
  · rw [State.bootedBy_reset hlen]
    exact .inr ⟨m, hmb, hlen, rfl, (step_booted hreset hwf hm hwords).trans (hafter.exec_reset hl hmb)⟩

theorem State.Booting.quiet (h : s.Booting c rest) : s.Quiet := by
  cases h with
  | between _ hr => exact hr.reset.quiet_bootedBy
  | amid raised _ _ _ hr => exact hr.reset.quiet_holding raised

theorem State.Booting.memory (h : s.Booting c rest) : Memory.wf s.dmem = true := by
  cases h with
  | between _ hr => exact hr.reset.memory
  | amid _ _ _ _ hr => exact hr.reset.memory

/-- A move that changes nothing is no step along the way. -/
theorem State.Booting.still (h : s.Booting c rest) {x : Move} {ms : List Move} (hm : s.moves = x :: ms)
    (hstill : moveStep x { s with moves := ms } = .next { s with moves := ms }) (ht : Machine.step s = .next t) : t.Booting c rest := by
  cases ((step_move (step_next ht).1 hm).trans hstill).symm.trans ht
  exact h.setMoves ms

/-- With no boot command left, a command step of the foreground is no step, or leads off the way. -/
theorem State.Booting.command_between (hl : c.legal = true) {r : State} {done todo : List Instr} (hcmds : bootCommands c = done ++ todo)
    (hr : r.Presents c rest todo) {ms : List Move} (hm : r.moves = .command .fg :: ms)
    (ht : Machine.step (r.bootedBy c done) = .next t) : t.Booting c rest ∨ t.OffTheWay rest := by
  cases todo with
  | nil =>
    have hport : r.fgPort = rest := hr.port
    have hs := (step_move (s := r.bootedBy c done) hr.reset.noFault hm).symm.trans ht
    obtain rfl | ⟨hcode, -⟩ | hlt := commandStep_fg hs
    · exact .inl ((State.Booting.between hcmds hr).setMoves ms)
    · exact .inr (.inl hcode)
    · exact .inr (.inr (hport ▸ hlt))
  | cons i todo =>
    have hcmds' : bootCommands c = (done ++ [i]) ++ todo := by simpa using hcmds
    obtain ⟨-, hs⟩ | ⟨m, hmb, hdone, rfl, hs⟩ := hr.step_command hl hcmds hm <;> cases hs.symm.trans ht
    · exact .inl (.between hcmds' (hr.next ms))
    · exact .inl (.amid false hcmds hdone hmb (hr.next ms))

/-- 00_scope.md R14: while a command is held the port of the foreground takes nothing. -/
theorem commandStep_of_held {p : Nat} (h : s.fgHeld = .busReset p) : commandStep .fg s = .next s :=
  commandStep_of_not_accepts (by simp [State.accepts, h])

theorem State.Booting.command (hl : c.legal = true) (h : s.Booting c rest) {ms : List Move} (hm : s.moves = .command .fg :: ms)
    (ht : Machine.step s = .next t) : t.Booting c rest ∨ t.OffTheWay rest := by
  cases h with
  | between hcmds hr => exact command_between hl hcmds hr hm ht
  | @amid r done _ m raised hcmds hdone hmb hr =>
    have hclosed := commandStep_of_held (s := { r.holding done.length m raised with moves := ms }) (p := m) rfl
    exact .inl ((State.Booting.amid raised hcmds hdone hmb hr).still hm hclosed ht)

/-- An event that the boot admits is the one a held reset waits for. -/
theorem State.bootAdmits_event {ms : List Move} (hm : s.moves = .event :: ms) (h : s.bootAdmits = true) :
    s.evtPort = [] ∨ ∃ w ws, s.evtPort = w :: ws ∧ s.bootEvent = some w := by
  rw [State.bootAdmits, hm] at h
  cases hp : s.evtPort with
  | nil => exact .inl rfl
  | cons w ws => exact .inr ⟨w, ws, rfl, by simpa [hp, eq_comm] using h⟩

theorem State.busResetDone_holding {r : State} {n m : Nat} (hm : m < r.bus.length) (raised : Bool) :
    (r.holding n m raised).busResetDone m = raised := by
  rw [State.busResetDone, State.busAt_holding hm]
  cases raised <;> simp [BusUnit.resetting, BusFlag.bit]

theorem State.bootEvent_holding {r : State} {n m : Nat} (hm : m < r.bus.length) (raised : Bool) :
    (r.holding n m raised).bootEvent = if raised then none else some (encodeEvent (.busMstop (BitVec.ofNat 4 m))) := by
  have hdone := State.busResetDone_holding (n := n) hm raised
  have hheld : (r.holding n m raised).fgHeld = .busReset m := rfl
  simp [State.bootEvent, hheld, hdone]

/-- The stop-complete of the held reset arrives. -/
theorem State.Presents.step_mstop (hl : c.legal = true) {r : State} {todo : List Instr} (h : r.Presents c rest todo) {n m : Nat}
    (hm : m < c.nBus) {ms : List Move} (hms : r.moves = .event :: ms) {ws : List Word}
    (hws : r.evtPort = encodeEvent (.busMstop (BitVec.ofNat 4 m)) :: ws) :
    Machine.step (r.holding n m false) = .next ({ r with moves := ms, evtPort := ws }.holding n m true) := by
  have hreset := (h.amid h.reset.memory ws r.hostStores ms).reset
  obtain rfl := h.cfg
  have hp : (BitVec.ofNat 4 m).toNat < r.cfg.nBus := by
    rw [toNat_ofNat_of_lt hm (Params.nBus_le hl)]
    exact hm
  have hd : decodeEvent (r.holding n m false).cfg (encodeEvent (.busMstop (BitVec.ofNat 4 m))) = some (.busMstop (BitVec.ofNat 4 m)) :=
    decodeEvent_busEvent hp 0#8 .mstop
  rw [step_event (s := r.holding n m false) h.reset.noFault hms hws hd]
  exact congrArg Host.Outcome.next (hreset.applyEvent_mstop hl hm)

theorem State.Booting.event (hl : c.legal = true) (h : s.Booting c rest) (hadm : s.bootAdmits = true) {ms : List Move}
    (hm : s.moves = .event :: ms) (ht : Machine.step s = .next t) : t.Booting c rest := by
  obtain hempty | ⟨w, ws, hws, hw⟩ := State.bootAdmits_event hm hadm
  · exact h.still hm (by simp [moveStep, eventStep, hempty]) ht
  · cases h with
    | between hcmds hr =>
      obtain ⟨-, -, hheld, -⟩ := hr.reset.core
      simp [State.bootEvent, State.bootedBy, State.booted, hheld] at hw
    | @amid r _ _ m raised hcmds hdone hmb hr =>
      have hlt : m < r.bus.length := by rwa [hr.reset.busLength, hr.cfg]
      rw [State.bootEvent_holding hlt] at hw
      cases raised with
      | true => simp at hw
      | false =>
        obtain rfl : encodeEvent (.busMstop (BitVec.ofNat 4 m)) = w := by simpa using hw
        cases (hr.step_mstop hl hmb hm hws).symm.trans ht
        exact .amid true hcmds hdone hmb (hr.amid hr.reset.memory ws r.hostStores ms)

/-- The held reset completes. -/
theorem State.Presents.step_completion {r : State} {todo : List Instr} (h : r.Presents c rest todo) {n m : Nat} (hm : m < c.nBus)
    {ms : List Move} (hms : r.moves = .completion :: ms) :
    Machine.step (r.holding n m true) = .next ({ r with moves := ms }.booted (n + 1) (m + 1)) := by
  have hreset := (h.amid h.reset.memory r.evtPort r.hostStores ms).reset
  obtain rfl := h.cfg
  have hdone := State.busResetDone_holding (r := { r with moves := ms }) (n := n) (m := m) (by rwa [hreset.busLength]) true
  have hcompletes : completionStep ({ r with moves := ms }.holding n m true)
      = busResetCompletion m ({ r with moves := ms }.holding n m true) :=
    if_pos hdone
  rw [step_move (s := r.holding n m true) h.reset.noFault hms]
  exact congrArg Host.Outcome.next (hcompletes.trans (hreset.completion hm))

theorem completionStep_of_none (h : s.fgHeld = .none) : completionStep s = s := by
  simp [completionStep, h]

theorem completionStep_of_waiting {p : Nat} (h : s.fgHeld = .busReset p) (hd : s.busResetDone p = false) : completionStep s = s := by
  simp [completionStep, h, hd]

theorem State.Booting.completion (h : s.Booting c rest) {ms : List Move} (hm : s.moves = .completion :: ms)
    (ht : Machine.step s = .next t) : t.Booting c rest := by
  cases h with
  | between hcmds hr =>
    obtain ⟨-, -, hheld, -⟩ := hr.reset.core
    exact (State.Booting.between hcmds hr).still hm (congrArg Host.Outcome.next (completionStep_of_none hheld)) ht
  | @amid r done todo m raised hcmds hdone hmb hr =>
    cases raised with
    | false =>
      have hlt : m < r.bus.length := by rwa [hr.reset.busLength, hr.cfg]
      have hwaits := State.busResetDone_holding (n := done.length) hlt false
      exact (State.Booting.amid false hcmds hdone hmb hr).still hm
        (congrArg Host.Outcome.next (completionStep_of_waiting rfl hwaits)) ht
    | true =>
      cases (hr.step_completion hmb hm).symm.trans ht
      have hcmds' : bootCommands c = (done ++ [.busReset (BitVec.ofNat 4 m)]) ++ todo := by simpa using hcmds
      rw [← State.bootedBy_completed hdone (.busReset (BitVec.ofNat 4 m))]
      exact .between hcmds' (hr.amid hr.reset.memory r.evtPort r.hostStores ms)

/-- A step the boot admits stays on the way, or leads off it. -/
theorem State.Booting.step (hl : c.legal = true) (h : s.Booting c rest) (hadm : s.bootAdmits = true) (ht : Machine.step s = .next t) :
    t.Booting c rest ∨ t.OffTheWay rest := by
  obtain ⟨hcode, ⟨-, rfl⟩ | ⟨m, ms, hm, hs⟩⟩ := step_next ht
  · exact .inl h
  · have hkept := h.setMoves ms
    cases m with
    | command x =>
      cases x with
      | fg => exact h.command hl hm ht
      | irq => simp [State.bootAdmits, hm] at hadm
    | event => exact .inl (h.event hl hadm hm ht)
    | busHandler p k => exact .inl (h.still hm (busHandler_of_quiet hkept.quiet p k) ht)
    | serHandler p k => exact .inl (h.still hm (serHandler_of_quiet hkept.quiet p k) ht)
    | completion => exact .inl (h.completion hm ht)
    | hostStore =>
      cases hs
      obtain ⟨hmem, hstore⟩ := hostStoreStep_eq hkept.memory
      rw [hstore]
      exact .inl (hkept.surroundings (fun _ => hmem) s.evtPort _ ms)

end Steps

end Sys2Proof.Machine
end

section
/-! A clean entry (60_exceptions.md R157): it exists, it is the reset state booted (70_reset_and_hazards.md R161), and what every run from it
keeps (10_state.md R38). -/

namespace Sys2Proof.Machine

/-! A clean entry is the reset state booted -/

section Entry
variable {c : Params} {rest : List Word} {s : State}

theorem State.Booting.bootRun (hl : c.legal = true) {n : Nat} {t : State} (h : s.bootRun n = some t) (hs : s.Booting c rest) :
    t.Booting c rest ∨ t.OffTheWay rest := by
  refine State.bootRun_keeps (P := fun u => u.Booting c rest ∨ u.OffTheWay rest) (fun u v hadm hstep hu => ?_) h (.inl hs)
  obtain hu | hu := hu
  · exact hu.step hl hadm hstep
  · exact .inr (hu.step hstep)

theorem State.AfterReset.booting (h : s.AfterReset) (hport : s.fgPort = bootWords s.cfg ++ rest) : s.Booting s.cfg rest := by
  have hstart := State.Booting.between (c := s.cfg) (rest := rest) (done := []) rfl ⟨h, rfl, hport⟩
  rwa [State.bootedBy_nil h] at hstart

theorem flatMap_encode_eq_nil {is : List Instr} : is.flatMap encode = [] ↔ is = [] := by
  cases is <;> simp [encode]

/-- On the way with the words `rest` left and nothing held, the boot commands are done. -/
theorem State.Booting.eq_booted (h : s.Booting c rest) (hport : s.fgPort = rest) (hheld : s.fgHeld = .none) :
    ∃ r : State, r.AfterReset ∧ r.cfg = c ∧ s = r.booted (2 + c.nSer + c.nBus) c.nBus := by
  cases h with
  | amid => exact absurd hheld Held.noConfusion
  | @between r done todo hcmds hr =>
    have hwords : todo.flatMap encode ++ rest = rest := hr.port.symm.trans hport
    obtain rfl : todo = [] := flatMap_encode_eq_nil.1 (by simpa using hwords)
    obtain rfl : done = bootCommands c := by rw [hcmds, List.append_nil]
    exact ⟨r, hr.reset, hr.cfg, State.bootedBy_bootCommands c r⟩

/-- 70_reset_and_hazards.md R161. -/
theorem State.CleanEntry.eq_booted (h : s.CleanEntry) :
    ∃ r : State, r.AfterReset ∧ r.cfg.legal = true ∧ s = r.booted (2 + r.cfg.nSer + r.cfg.nBus) r.cfg.nBus := by
  obtain ⟨start, n, hl, hreset, hport, hrun, hheld, hcode⟩ := h
  obtain hway | hoff | hoff := (hreset.booting hport).bootRun hl hrun
  · obtain ⟨r, hr, hc, hs⟩ := hway.eq_booted rfl hheld
    refine ⟨r, hr, hc ▸ hl, ?_⟩
    rw [hc]
    exact hs
  · exact absurd hcode hoff
  · exact absurd hoff (Nat.lt_irrefl _)

theorem State.AfterReset.booted_eq {r : State} (h : r.AfterReset) : r.booted (2 + r.cfg.nSer + r.cfg.nBus) r.cfg.nBus = { r with
    act := bootActions r.cfg
    resp := List.replicate (2 + r.cfg.nSer + r.cfg.nBus) ⟨.fg, 0#32⟩
    bus := r.bus.map fun u => { u with bienSave := 0b1011#4 } } := by
  have hbus : rebootBelow r.cfg.nBus r.bus = r.bus.map BusUnit.rebooted := h.busLength ▸ rebootBelow_length r.bus
  rw [State.booted, hbus]
  rfl

end Entry

/-! A clean entry exists -/

/-- The moves that take a boot command and, for a reset, its stop-complete and its completion. -/
def bootMoves : Instr → List Move
  | .busReset _ => [.command .fg, .event, .completion]
  | _ => [.command .fg]

/-- The event words that complete a boot command. -/
def bootEvents : Instr → List Word
  | .busReset p => [encodeEvent (.busMstop p)]
  | _ => []

/-- `r` with the boot commands `todo` to do, and the moves and events that do them. -/
structure State.WillBoot (c : Params) (todo : List Instr) (r : State) : Prop extends r.Presents c [] todo where
  moves : r.moves = todo.flatMap bootMoves
  events : r.evtPort = todo.flatMap bootEvents

theorem OpensUnit.moves_events {c : Params} {i : Instr} (h : OpensUnit c i) : bootMoves i = [.command .fg] ∧ bootEvents i = [] := by
  obtain rfl | rfl | ⟨q, -, rfl⟩ := h <;> exact ⟨rfl, rfl⟩

theorem bootMoves_eq_cons (i : Instr) (ms : List Move) : ∃ ms', bootMoves i ++ ms = .command .fg :: ms' := by
  cases i <;> exact ⟨_, rfl⟩

theorem State.bootRun_one {s t : State} (hadm : s.bootAdmits = true) (ht : step s = .next t) : s.bootRun 1 = some t :=
  State.bootRun_succ.2 ⟨hadm, t, ht, rfl⟩

/-- Every move but a command of interrupt context and an event is one the boot admits. -/
theorem State.bootAdmits_of_head {s : State} {x : Move} {ms : List Move} (hm : s.moves = x :: ms) (hirq : x ≠ .command .irq)
    (hevent : x ≠ .event) : s.bootAdmits = true := by
  unfold State.bootAdmits
  split
  · simp_all
  · simp_all
  · rfl

/-- The boot admits the event that completes the held reset. -/
theorem State.bootAdmits_mstop {r : State} {n m : Nat} (hm : m < r.bus.length) {ms : List Move} (hms : r.moves = .event :: ms)
    {ws : List Word} (hws : r.evtPort = encodeEvent (.busMstop (BitVec.ofNat 4 m)) :: ws) : (r.holding n m false).bootAdmits = true := by
  have hmoves : (r.holding n m false).moves = .event :: ms := hms
  have hport : (r.holding n m false).evtPort = encodeEvent (.busMstop (BitVec.ofNat 4 m)) :: ws := hws
  simp [State.bootAdmits, hmoves, hport, State.bootEvent_holding hm]

section WillBoot
variable {c : Params} {done todo : List Instr}

/-- A held reset ends with its stop-complete event and its completion. -/
theorem State.Presents.bootRun_held (hl : c.legal = true) {rest : List Word} {r : State} (h : r.Presents c rest todo) {n m : Nat}
    (hm : m < c.nBus) {ms : List Move} (hms : r.moves = .event :: .completion :: ms) {ws : List Word}
    (hws : r.evtPort = encodeEvent (.busMstop (BitVec.ofNat 4 m)) :: ws) :
    (r.holding n m false).bootRun 2 = some ({ r with moves := ms, evtPort := ws }.booted (n + 1) (m + 1)) := by
  have hlt : m < r.bus.length := by rwa [h.reset.busLength, h.cfg]
  have hraised := h.amid h.reset.memory ws r.hostStores (.completion :: ms)
  have hevent := State.bootRun_one (State.bootAdmits_mstop (n := n) hlt hms hws) (h.step_mstop hl hm hms hws)
  refine State.bootRun_add hevent (State.bootRun_one ?_ (hraised.step_completion hm rfl))
  exact State.bootAdmits_of_head (x := .completion) rfl (by simp) (by simp)

/-- One boot command is done by the moves and events that wait for it. -/
theorem State.WillBoot.bootRun_command (hl : c.legal = true) {i : Instr} (hcmds : bootCommands c = done ++ i :: todo) {r : State}
    (h : r.WillBoot c (i :: todo)) :
    ∃ (k : Nat) (r' : State), r'.WillBoot c todo ∧ (r.bootedBy c done).bootRun k = some (r'.bootedBy c (done ++ [i])) := by
  have hmoves : r.moves = bootMoves i ++ todo.flatMap bootMoves := h.moves
  have hevents : r.evtPort = bootEvents i ++ todo.flatMap bootEvents := h.events
  obtain ⟨ms, hm⟩ : ∃ ms, r.moves = .command .fg :: ms := by
    rw [hmoves]
    exact bootMoves_eq_cons i _
  have hfirst : (r.bootedBy c done).bootAdmits = true := State.bootAdmits_of_head (s := r.bootedBy c done) hm (by simp) (by simp)
  obtain ⟨hi, hs⟩ | ⟨m, hmb, hdone, rfl, hs⟩ := h.step_command hl hcmds hm
  · obtain ⟨him, hie⟩ := hi.moves_events
    refine ⟨1, _, ⟨h.next ms, ?_, ?_⟩, State.bootRun_one hfirst hs⟩
    · simpa [him, hm] using hmoves
    · simpa [hie] using hevents
  · obtain rfl : ms = .event :: .completion :: todo.flatMap bootMoves := by simpa [bootMoves, hm] using hmoves
    have hheld := h.next (.event :: .completion :: todo.flatMap bootMoves)
    have hrest := hheld.bootRun_held hl (n := done.length) hmb rfl hevents
    have hnext := hheld.amid hheld.reset.memory (todo.flatMap bootEvents) r.hostStores (todo.flatMap bootMoves)
    rw [← State.bootedBy_completed hdone (.busReset (BitVec.ofNat 4 m))] at hrest
    exact ⟨_, _, ⟨hnext, rfl, rfl⟩, State.bootRun_add (State.bootRun_one hfirst hs) hrest⟩

theorem State.WillBoot.bootRun (hl : c.legal = true) (hcmds : bootCommands c = done ++ todo) {r : State} (h : r.WillBoot c todo) :
    ∃ (k : Nat) (r' : State), r'.WillBoot c [] ∧ (r.bootedBy c done).bootRun k = some (r'.bootedBy c (bootCommands c)) := by
  induction todo generalizing done r with
  | nil =>
    rw [hcmds, List.append_nil]
    exact ⟨0, r, h, rfl⟩
  | cons i todo ih =>
    obtain ⟨k, u, hu, hfirst⟩ := h.bootRun_command hl hcmds
    have hcmds' : bootCommands c = (done ++ [i]) ++ todo := by simpa using hcmds
    obtain ⟨k', r', hr', hrest⟩ := ih hcmds' hu
    exact ⟨k + k', r', hr', State.bootRun_add hfirst hrest⟩

end WillBoot

theorem State.afterReset_resetOf (c : Params) : (State.resetOf c).AfterReset := by
  have hbus : ∀ u ∈ (State.resetOf c).bus, u = BusUnit.reset := fun u => List.eq_of_mem_replicate
  have hser : ∀ u ∈ (State.resetOf c).ser, u = SerUnit.reset c := fun u => List.eq_of_mem_replicate
  have hqueue : ∀ u ∈ (State.resetOf c).queue, u = QueueUnit.reset c := fun u => List.eq_of_mem_replicate
  refine ⟨rfl, ⟨List.length_replicate, List.length_replicate, List.length_replicate, List.length_replicate, ?_, ?_⟩,
    rfl, fun u hu => by rw [hbus u hu], fun u hu => by rw [hser u hu]; rfl, fun u hu => by rw [hqueue u hu]; rfl⟩
  · intro u hu
    rw [hser u hu]
    exact List.length_replicate
  · intro u hu
    rw [hqueue u hu]
    exact ⟨List.length_replicate, List.length_replicate⟩

/-- The machine right after reset, with the boot sequence and its events presented, and the moves that take them (R160). -/
def State.bootStart (c : Params) : State :=
  { State.resetOf c with
    fgPort := bootWords c, evtPort := (bootCommands c).flatMap bootEvents, moves := (bootCommands c).flatMap bootMoves }

theorem State.willBoot_bootStart (c : Params) : (State.bootStart c).WillBoot c (bootCommands c) where
  reset := (State.afterReset_resetOf c).amid rfl _ [] _ [] _
  cfg := rfl
  port := (List.append_nil _).symm
  moves := rfl
  events := rfl

theorem exists_cleanEntry {c : Params} (hl : c.legal = true) : ∃ s : State, s.cfg = c ∧ s.CleanEntry := by
  have hstart := State.willBoot_bootStart c
  obtain ⟨k, r, hr, hrun⟩ := hstart.bootRun (done := []) hl rfl
  rw [State.bootedBy_nil hstart.reset] at hrun
  have hport : bootWords c = bootWords c ++ r.fgPort := by simp [hr.port]
  obtain ⟨hcode, -, hheld, -⟩ := hr.reset.core
  exact ⟨r.bootedBy c _, hr.cfg, State.bootStart c, k, hl, hstart.reset, hport, hrun, hheld, hcode⟩

/-! What the runs from a clean entry keep -/

section Booted
variable {r : State} {n m : Nat}

theorem State.AfterReset.sound_booted (h : r.AfterReset) (hl : r.cfg.legal = true) : (r.booted n m).Sound := by
  obtain ⟨-, -, hheld, -, -, -, hpend, hcnt⟩ := h.core
  have hbus := h.bus_booted (m := m)
  obtain ⟨-, ⟨hclen, hblen, hslen, hqlen, htx, hbufs⟩, hmem, -, hser, hqueue⟩ := h
  exact {
    legal := hl
    cntLength := hclen
    busLength := (length_rebootBelow m r.bus).trans hblen
    serLength := hslen
    queueLength := hqlen
    bounded := fun x hx => by
      have hx' : x ∈ List.replicate r.cfg.nDepth 0#8 := hcnt ▸ hx
      rw [List.eq_of_mem_replicate hx']
      exact Nat.zero_le _
    pending := hpend ▸ fitsIn_zero _
    bus := fun u hu => by
      obtain ⟨b, e, rfl⟩ := hbus u hu
      exact BusUnit.checked_reset _
    ser := fun u hu => by
      refine ⟨htx u hu, ?_⟩
      rw [hser u hu]
      exact (SerUnit.sound_reset _).2
    queue := fun u hu => by
      refine ⟨hbufs u hu, ?_⟩
      rw [hqueue u hu]
      exact (QueueUnit.sound_reset hl).2
    held := by
      have hnone : (r.booted n m).fgHeld = .none := hheld
      rw [State.HeldOk, hnone]
      trivial
    memory := hmem }

theorem State.AfterReset.idleBusAtInit_booted (h : r.AfterReset) (p : Nat) : (r.booted n m).IdleBusAtInit p := by
  intro
  refine forall_getD (P := fun u : BusUnit => u.busState = .initSendAddr) (fun u hu => ?_) rfl p
  obtain ⟨b, e, rfl⟩ := h.bus_booted u hu
  rfl

theorem State.AfterReset.blocksHeld_booted (h : r.AfterReset) : (r.booted n m).BlocksHeld := by
  have hbus : (r.booted n m).bus.countP (fun u => u.busBusy) = 0 := by
    refine List.countP_eq_zero.2 fun u hu => ?_
    obtain ⟨b, e, rfl⟩ := h.bus_booted u hu
    exact Bool.false_ne_true
  have hser : (r.booted n m).ser.countP (fun u => u.serBusy) = 0 := by
    obtain ⟨-, -, -, -, hser, -⟩ := h
    refine List.countP_eq_zero.2 fun u hu => ?_
    rw [hser u hu]
    exact Bool.false_ne_true
  intro d _
  simp [State.blocksOwed, hbus, hser]

end Booted

/-- A clean entry has the invariant and R38 items 2 and 6. -/
theorem State.CleanEntry.keeps {s : State} (h : s.CleanEntry) : s.Sound ∧ (∀ p, s.IdleBusAtInit p) ∧ s.BlocksHeld := by
  obtain ⟨r, hr, hl, rfl⟩ := h.eq_booted
  exact ⟨hr.sound_booted hl, hr.idleBusAtInit_booted, hr.blocksHeld_booted⟩

/-- The last step of a run. -/
theorem run_succ_next {M : Host.Core} {n : Nat} {s t : M.State} (h : M.run (n + 1) s = .next t) :
    ∃ u, M.run n s = .next u ∧ M.step u = .next t := by
  induction n generalizing s with
  | zero =>
    exact ⟨s, rfl, (run_one s).symm.trans h⟩
  | succ n ih =>
    rw [Host.Core.run] at h
    split at h
    · next v hv =>
      obtain ⟨u, hu, ht⟩ := ih h
      exact ⟨u, by simp [Host.Core.run, hv, hu], ht⟩
    · cases h
    · cases h

/-- Along a run, what every step keeps holds of every state. -/
theorem State.Sound.run {s : State} (h : s.Sound) {n : Nat} {t : State} (ht : core.run n s = .next t) : t.Sound := by
  induction n generalizing t with
  | zero =>
    cases ht
    exact h
  | succ n ih =>
    obtain ⟨u, hu, hstep⟩ := run_succ_next (M := core) ht
    exact (State.Keeps.step (ih hu) hstep).sound

/-- 10_state.md R38 items 2 and 6: a step that is none of their exceptions keeps both. -/
theorem State.Keeps.step_tags_blocks {s t : State} (hs : s.Sound) (ht : Machine.step s = .next t) (hA : ∀ p, ¬s.AckWhileIdle p)
    (hR : ¬s.CallerReleases) (hi : ∀ p, s.IdleBusAtInit p) (hb : s.BlocksHeld) : (∀ p, t.IdleBusAtInit p) ∧ t.BlocksHeld := by
  obtain ⟨-, hidle, hblocks⟩ := State.Keeps.step hs ht
  have hstop : ¬s.StopWhileIdle := by
    rintro ⟨p, -, hfree, hst⟩
    exact BusState.noConfusion (hst.symm.trans (hi p hfree))
  exact ⟨fun p => (hidle p (hi p)).resolve_right (hA p), (hblocks hb).resolve_right (not_or.2 ⟨hR, hstop⟩)⟩

theorem State.CleanEntry.run_tags_blocks {s : State} (h : s.CleanEntry) {n : Nat} {t : State} (ht : core.run n s = .next t)
    (hsteps : ∀ (k : Nat) (u : State), k < n → core.run k s = .next u → ¬u.CallerReleases ∧ ∀ p, ¬u.AckWhileIdle p) :
    (∀ p, t.IdleBusAtInit p) ∧ t.BlocksHeld := by
  induction n generalizing t with
  | zero =>
    cases ht
    exact h.keeps.2
  | succ n ih =>
    obtain ⟨u, hu, hstep⟩ := run_succ_next (M := core) ht
    obtain ⟨hR, hA⟩ := hsteps n u n.lt_succ_self hu
    obtain ⟨hi, hb⟩ := ih hu fun k v hk => hsteps k v (Nat.lt_succ_of_lt hk)
    exact State.Keeps.step_tags_blocks (h.keeps.1.run hu) hstep hA hR hi hb

/-- Settles O60: the boot run has one way, every step keeps the invariant, and every step of the run that is no exception keeps items 2
and 6. -/
theorem cleanEntryIsTheResetStateBooted : Obligations.CleanEntryIsTheResetStateBooted := by
  refine ⟨fun c hl => exists_cleanEntry hl, fun s h => ⟨?_, fun n t ht => ?_⟩⟩
  · obtain ⟨r, hr, -, hs⟩ := h.eq_booted
    exact ⟨r, hr, hs.trans hr.booted_eq⟩
  · have hsound := h.keeps.1.run ht
    refine ⟨t.inv_iff_sound.2 hsound, fun hsteps => ?_⟩
    obtain ⟨hidle, hblocks⟩ := h.run_tags_blocks ht hsteps
    exact ⟨hidle, fun _ => hblocks.ser hsound.legal, fun _ => hblocks.bus hsound.legal⟩

end Sys2Proof.Machine
end

section
/-! The reset values (70_reset_and_hazards.md R159): what each accessor reads of the state after reset, inside the machine's instances or
outside them, where the accessors answer the unit after reset too. -/

namespace Sys2Proof.Machine

@[simp] theorem State.busAt_resetOf (c : Params) (p : Nat) : (State.resetOf c).busAt p = BusUnit.reset :=
  List.getElem?_getD_replicate_default_eq _ c.nBus p

@[simp] theorem State.serAt_resetOf (c : Params) (p : Nat) : (State.resetOf c).serAt p = SerUnit.reset c :=
  List.getElem?_getD_replicate_default_eq _ c.nSer p

@[simp] theorem State.queueAt_resetOf (c : Params) (q : Nat) : (State.resetOf c).queueAt q = QueueUnit.reset c :=
  List.getElem?_getD_replicate_default_eq _ c.nSer q

/-- Settles O57: the scalar elements are those of the state after reset, and every instance is the unit after reset, with its own values
for the elements that R159 leaves unspecified. -/
theorem resetValues : Obligations.ResetValues := by
  intro c
  refine ⟨rfl, rfl, rfl, rfl, rfl, rfl, rfl, rfl, rfl, rfl, fun p _ => ?bus, fun p _ => ?ser, fun q _ => ?queue, rfl⟩
  case bus => exact ⟨BusUnit.reset.bautoack, State.busAt_resetOf c p⟩
  case ser => exact ⟨(SerUnit.reset c).txbuf, State.serAt_resetOf c p⟩
  case queue => exact ⟨(QueueUnit.reset c).qbuf, (QueueUnit.reset c).diagbuf, State.queueAt_resetOf c q⟩

end Sys2Proof.Machine
end
